-- ==== Sys2Proof/Word.lean ====
section
/-! DEFINITION. Word.lean: the words of the block and the phrase type (00_scope.md R6, R8, R14; 10_state.md R24 to R26). -/

namespace Sys2Proof

/-- The stream's unit, 8 bits (R6). -/
abbrev Byte := BitVec 8

/-- A code number as the register NEXT holds it: 17 bits, so that 65536 fits (R24). -/
abbrev Code := BitVec 17

/-- A running total of bits: `CNT_W` = 64 bits (R25, R26, D14). -/
abbrev Count := BitVec 64

/-- A phrase: "a byte sequence represented by one codeword; always non-empty" (R14). -/
structure Phrase where
  first : Byte
  rest : List Byte
  deriving DecidableEq, Repr

/-- The bytes of a phrase, first byte at index 0 (R8). -/
def Phrase.toList (p : Phrase) : List Byte := p.first :: p.rest

/-- `|s|` (R8). -/
def Phrase.length (p : Phrase) : Nat := p.rest.length + 1

/-- The one-byte phrase `[b]`: the phrase of seed code `b` (R8, R31). -/
def Phrase.single (b : Byte) : Phrase := ⟨b, []⟩

/-- `s ++ [b]`: the parent extension (R8, R14). -/
def Phrase.snoc (p : Phrase) (b : Byte) : Phrase := ⟨p.first, p.rest ++ [b]⟩

end Sys2Proof
end

