-- ==== Sys2Proof/Config.lean ====
section
/-! DEFINITION. Config.lean: the fixed parameters of the hardware (00_scope.md R6) and the one value the spec leaves open. -/

namespace Sys2Proof.Config

/-- `W_MIN`: initial and post-reset codeword width (R6). -/
abbrev wMin : Nat := 9

/-- `W_MAX`: largest codeword width (R6). -/
abbrev wMax : Nat := 16

/-- `CODE_EOS`: end-of-stream codeword (R6). -/
abbrev codeEos : Nat := 256

/-- `CODE_RST`: dictionary-reset marker (R6). -/
abbrev codeRst : Nat := 257

/-- `CODE_FIRST`: first code of a registered phrase (R6). -/
abbrev codeFirst : Nat := 258

/-- `BC_MIN_W`: smallest legal transfer width of the bit channel (R6). -/
abbrev bcMinW : Nat := 1

/-- `BC_MAX_W`: largest legal transfer width of the bit channel (R6, C3). -/
abbrev bcMaxW : Nat := 32

/-- Numerator of `THRESH` = 11/10 (R6, D9). -/
abbrev threshNum : Nat := 11

/-- Denominator of `THRESH` = 11/10 (R6, D9). -/
abbrev threshDen : Nat := 10

/-- The value a counter must stay below: `2^CNT_W`, `CNT_W` = 64 (R6, R172, D14). -/
abbrev countLimit : Nat := 2 ^ 64

/-- FREE VALUE (log 7): bits 31..0 of a response that returns no value, which R100 does not give. -/
opaque rspIdle : BitVec 32

end Sys2Proof.Config
end

