-- ==== Sys2Proof/Syntax.lean ====
section
/-! DEFINITION. Syntax.lean: one constructor per row of spec/opcode_table.json: the stream symbols that the decoder interprets and
the commands of the command port (00_scope.md R1; 30_encoding.md R81 to R83, R91, R100). -/

namespace Sys2Proof

/-- The instruction set of the block (R1): 46 stream symbols and 16 command codes. -/
inductive Instr where
  -- format HDR (R81)
  | hdrNone
  | hdrReset
  | hdrMonitor
  | hdrIllegal
  -- format CW9 (R82)
  | cw9Eos
  | cw9Rstmark
  | cw9Lit (byte : BitVec 8)
  | cw9Ref (code : BitVec 9)
  | cw9Kwkwk (code : BitVec 9)
  -- format CW10 (R82)
  | cw10Eos
  | cw10Rstmark
  | cw10Lit (byte : BitVec 8)
  | cw10Ref (code : BitVec 10)
  | cw10Kwkwk (code : BitVec 10)
  -- format CW11 (R82)
  | cw11Eos
  | cw11Rstmark
  | cw11Lit (byte : BitVec 8)
  | cw11Ref (code : BitVec 11)
  | cw11Kwkwk (code : BitVec 11)
  -- format CW12 (R82)
  | cw12Eos
  | cw12Rstmark
  | cw12Lit (byte : BitVec 8)
  | cw12Ref (code : BitVec 12)
  | cw12Kwkwk (code : BitVec 12)
  -- format CW13 (R82)
  | cw13Eos
  | cw13Rstmark
  | cw13Lit (byte : BitVec 8)
  | cw13Ref (code : BitVec 13)
  | cw13Kwkwk (code : BitVec 13)
  -- format CW14 (R82)
  | cw14Eos
  | cw14Rstmark
  | cw14Lit (byte : BitVec 8)
  | cw14Ref (code : BitVec 14)
  | cw14Kwkwk (code : BitVec 14)
  -- format CW15 (R82)
  | cw15Eos
  | cw15Rstmark
  | cw15Lit (byte : BitVec 8)
  | cw15Ref (code : BitVec 15)
  | cw15Kwkwk (code : BitVec 15)
  -- format CW16 (R82)
  | cw16Eos
  | cw16Rstmark
  | cw16Lit (byte : BitVec 8)
  | cw16Ref (code : BitVec 16)
  | cw16Kwkwk (code : BitVec 16)
  -- format MK16 (R83)
  | mk16Eos
  | mk16Rstmark (value : BitVec 16)
  -- format OP (R100)
  | encStart (mode : BitVec 2)
  | encStep
  | encRun
  | decStart
  | decStep
  | decRun
  | bcWinit
  | bcWrite (value : BitVec 32) (width : BitVec 6)
  | bcFlush
  | bcRinit
  | bcRead (width : BitVec 6)
  | bcIsempty
  | opsel3Unassigned
  | opsel7Unassigned
  | opselEUnassigned
  | opselFUnassigned
  deriving DecidableEq, Repr

/-- The eight codeword formats `CW9` to `CW16` (R82). -/
inductive CwFormat where
  | cw9 | cw10 | cw11 | cw12 | cw13 | cw14 | cw15 | cw16
  deriving DecidableEq, Repr

/-- The width of a codeword format in bits (R82). -/
abbrev CwFormat.width : CwFormat → Nat
  | .cw9 => 9
  | .cw10 => 10
  | .cw11 => 11
  | .cw12 => 12
  | .cw13 => 13
  | .cw14 => 14
  | .cw15 => 15
  | .cw16 => 16

/-- The five classes of a codeword of `w` bits (R82). -/
inductive CwClass (w : Nat) where
  | eos
  | rstmark
  | lit (byte : BitVec 8)
  | ref (code : BitVec w)
  | kwkwk (code : BitVec w)
  deriving DecidableEq, Repr

/-- The `EOS` symbol of a format. -/
def CwFormat.eos : CwFormat → Instr
  | .cw9 => .cw9Eos
  | .cw10 => .cw10Eos
  | .cw11 => .cw11Eos
  | .cw12 => .cw12Eos
  | .cw13 => .cw13Eos
  | .cw14 => .cw14Eos
  | .cw15 => .cw15Eos
  | .cw16 => .cw16Eos

/-- The `RSTMARK` symbol of a format. -/
def CwFormat.rstmark : CwFormat → Instr
  | .cw9 => .cw9Rstmark
  | .cw10 => .cw10Rstmark
  | .cw11 => .cw11Rstmark
  | .cw12 => .cw12Rstmark
  | .cw13 => .cw13Rstmark
  | .cw14 => .cw14Rstmark
  | .cw15 => .cw15Rstmark
  | .cw16 => .cw16Rstmark

/-- The `LIT` symbol of a format. -/
def CwFormat.lit (f : CwFormat) (byte : BitVec 8) : Instr :=
  match f with
  | .cw9 => .cw9Lit byte
  | .cw10 => .cw10Lit byte
  | .cw11 => .cw11Lit byte
  | .cw12 => .cw12Lit byte
  | .cw13 => .cw13Lit byte
  | .cw14 => .cw14Lit byte
  | .cw15 => .cw15Lit byte
  | .cw16 => .cw16Lit byte

/-- The `REF` symbol of a format. -/
def CwFormat.ref (f : CwFormat) (code : BitVec f.width) : Instr :=
  match f, code with
  | .cw9, c => .cw9Ref c
  | .cw10, c => .cw10Ref c
  | .cw11, c => .cw11Ref c
  | .cw12, c => .cw12Ref c
  | .cw13, c => .cw13Ref c
  | .cw14, c => .cw14Ref c
  | .cw15, c => .cw15Ref c
  | .cw16, c => .cw16Ref c

/-- The `KWKWK` symbol of a format. -/
def CwFormat.kwkwk (f : CwFormat) (code : BitVec f.width) : Instr :=
  match f, code with
  | .cw9, c => .cw9Kwkwk c
  | .cw10, c => .cw10Kwkwk c
  | .cw11, c => .cw11Kwkwk c
  | .cw12, c => .cw12Kwkwk c
  | .cw13, c => .cw13Kwkwk c
  | .cw14, c => .cw14Kwkwk c
  | .cw15, c => .cw15Kwkwk c
  | .cw16, c => .cw16Kwkwk c

/-- The instruction of a codeword format and class (R82). -/
def CwFormat.instr (f : CwFormat) : CwClass f.width → Instr
  | .eos => f.eos
  | .rstmark => f.rstmark
  | .lit b => f.lit b
  | .ref c => f.ref c
  | .kwkwk c => f.kwkwk c

end Sys2Proof
end

