-- ==== Sys2Proof/WellFormed.lean ====
section
/-! DEFINITION. WellFormed.lean: which operand values an instruction of each row can have (30_encoding.md R82, R83). -/

namespace Sys2Proof

/-- The operand checks of `Instr`: a code of class REF or KWKWK is not one of the values of the classes tested before it, and a
marker-slot value of class RSTMARK is not 256 (R82, R83).  Every operand of a command is legal as an encoding (R100). -/
def Instr.wf : Instr → Bool
  | .cw9Ref code => Config.codeFirst ≤ code.toNat
  | .cw9Kwkwk code => Config.codeFirst ≤ code.toNat
  | .cw10Ref code => Config.codeFirst ≤ code.toNat
  | .cw10Kwkwk code => Config.codeFirst ≤ code.toNat
  | .cw11Ref code => Config.codeFirst ≤ code.toNat
  | .cw11Kwkwk code => Config.codeFirst ≤ code.toNat
  | .cw12Ref code => Config.codeFirst ≤ code.toNat
  | .cw12Kwkwk code => Config.codeFirst ≤ code.toNat
  | .cw13Ref code => Config.codeFirst ≤ code.toNat
  | .cw13Kwkwk code => Config.codeFirst ≤ code.toNat
  | .cw14Ref code => Config.codeFirst ≤ code.toNat
  | .cw14Kwkwk code => Config.codeFirst ≤ code.toNat
  | .cw15Ref code => Config.codeFirst ≤ code.toNat
  | .cw15Kwkwk code => Config.codeFirst ≤ code.toNat
  | .cw16Ref code => Config.codeFirst ≤ code.toNat
  | .cw16Kwkwk code => Config.codeFirst ≤ code.toNat
  | .mk16Rstmark value => value.toNat ≠ Config.codeEos
  | .hdrNone | .hdrReset | .hdrMonitor | .hdrIllegal | .mk16Eos => true
  | .cw9Eos | .cw9Rstmark | .cw9Lit _ => true
  | .cw10Eos | .cw10Rstmark | .cw10Lit _ => true
  | .cw11Eos | .cw11Rstmark | .cw11Lit _ => true
  | .cw12Eos | .cw12Rstmark | .cw12Lit _ => true
  | .cw13Eos | .cw13Rstmark | .cw13Lit _ => true
  | .cw14Eos | .cw14Rstmark | .cw14Lit _ => true
  | .cw15Eos | .cw15Rstmark | .cw15Lit _ => true
  | .cw16Eos | .cw16Rstmark | .cw16Lit _ => true
  | .encStart _ | .encStep | .encRun | .decStart | .decStep | .decRun => true
  | .bcWinit | .bcWrite _ _ | .bcFlush | .bcRinit | .bcRead _ | .bcIsempty => true
  | .opsel3Unassigned | .opsel7Unassigned | .opselEUnassigned | .opselFUnassigned => true

/-- `Instr.wf` as a proposition. -/
abbrev WellFormed (i : Instr) : Prop := i.wf = true

end Sys2Proof
end

