-- ==== Sys2Proof/Decode.lean ====
section
/-! DEFINITION. Decode.lean: bits and values (20_memory.md R64; 30_encoding.md R84), the decoder of stream symbols and of command
words (30_encoding.md R81 to R83, R100), and after it the encoder written from the same tables. -/

namespace Sys2Proof

/-! ### Bits and values -/

/-- `v` in exactly `w` binary digits, most significant first (R64, R113 `bin(v, w)`). -/
def natBits : Nat → Nat → List Bool
  | 0, _ => []
  | w + 1, v => v.testBit w :: natBits w v

/-- The unsigned value of a bit sequence, first bit most significant (R84). -/
def bitsToNat (bits : List Bool) : Nat := bits.foldl (fun acc b => 2 * acc + b.toNat) 0

/-- The byte of eight bits, first bit = bit 7 (R64). -/
def byteOfBits (bits : List Bool) : Byte := BitVec.ofNat 8 (bitsToNat bits)

/-- The bits of a byte sequence, byte 0 first, within each byte bit 7 first (R64, R116). -/
def bytesToBits (bytes : List Byte) : List Bool := bytes.flatMap fun b => natBits 8 b.toNat

/-! ### Decoder -/

/-- Where the next instruction stands: a command word, the stream header, a codeword of width `w` met with the register NEXT at
`next`, or the marker slot (R81 to R83, R86, R100). -/
inductive Slot where
  | command
  | header
  | data (w next : Nat)
  | marker
  deriving DecidableEq, Repr

/-- Why bits are no instruction: fewer bits than the slot needs, or a width for which there is no codeword format (R82). -/
inductive DecodeError where
  | tooShort
  | noFormat
  deriving DecidableEq, Repr

/-- The codeword format of a width (R82). -/
def CwFormat.ofWidth : Nat → Option CwFormat
  | 9 => some .cw9
  | 10 => some .cw10
  | 11 => some .cw11
  | 12 => some .cw12
  | 13 => some .cw13
  | 14 => some .cw14
  | 15 => some .cw15
  | 16 => some .cw16
  | _ => none

/-- The class of a codeword, first match wins; a value that is neither of the first three classes nor below NEXT is read as KWKWK,
whose row says that "any other remaining value raises InvalidCodeword" (R82; log 18). -/
def classify {w : Nat} (next : Nat) (code : BitVec w) : CwClass w :=
  if code.toNat = Config.codeEos then .eos
  else if code.toNat = Config.codeRst then .rstmark
  else if code.toNat < 256 then .lit (BitVec.ofNat 8 code.toNat)
  else if code.toNat < next then .ref code
  else .kwkwk code

/-- The header symbol of a 2-bit value (R81). -/
def decodeHeader (v : Nat) : Instr :=
  match v with
  | 0 => .hdrNone
  | 1 => .hdrReset
  | 2 => .hdrMonitor
  | _ => .hdrIllegal

/-- The marker-slot symbol of a 16-bit value: only 256 is told apart (R83). -/
def decodeMarker (v : Nat) : Instr :=
  if v = Config.codeEos then .mk16Eos else .mk16Rstmark (BitVec.ofNat 16 v)

/-- `OPSEL = CMD[43:40]` (R100). -/
def cmdOpsel (cmd : BitVec 44) : BitVec 4 := cmd.extractLsb' 40 4

/-- `ARGW = CMD[39:34]` (R100). -/
def cmdArgw (cmd : BitVec 44) : BitVec 6 := cmd.extractLsb' 34 6

/-- `ARGM = CMD[33:32]` (R100). -/
def cmdArgm (cmd : BitVec 44) : BitVec 2 := cmd.extractLsb' 32 2

/-- `ARGV = CMD[31:0]` (R100). -/
def cmdArgv (cmd : BitVec 44) : BitVec 32 := cmd.extractLsb' 0 32

/-- The command of a 44-bit command word: every OPSEL value has a row; a field an operation does not name is ignored (R100). -/
def decodeCommand (cmd : BitVec 44) : Instr :=
  match (cmdOpsel cmd).toNat with
  | 0x0 => .encStart (cmdArgm cmd)
  | 0x1 => .encStep
  | 0x2 => .encRun
  | 0x3 => .opsel3Unassigned
  | 0x4 => .decStart
  | 0x5 => .decStep
  | 0x6 => .decRun
  | 0x7 => .opsel7Unassigned
  | 0x8 => .bcWinit
  | 0x9 => .bcWrite (cmdArgv cmd) (cmdArgw cmd)
  | 0xA => .bcFlush
  | 0xB => .bcRinit
  | 0xC => .bcRead (cmdArgw cmd)
  | 0xD => .bcIsempty
  | 0xE => .opselEUnassigned
  | _ => .opselFUnassigned

/-- The value of the first `n` bits and the bits after them; rejected by name when there are fewer. -/
def takeValue (n : Nat) (bits : List Bool) : Except DecodeError (Nat × List Bool) :=
  if bits.length < n then .error .tooShort else .ok (bitsToNat (bits.take n), bits.drop n)

/-- The instruction at the front of a bit sequence and the bits after it: total, rejecting by name (R86). -/
def decode (slot : Slot) (bits : List Bool) : Except DecodeError (Instr × List Bool) :=
  match slot with
  | .command => (takeValue 44 bits).map fun r => (decodeCommand (BitVec.ofNat 44 r.1), r.2)
  | .header => (takeValue 2 bits).map fun r => (decodeHeader r.1, r.2)
  | .marker => (takeValue 16 bits).map fun r => (decodeMarker r.1, r.2)
  | .data w next =>
    match CwFormat.ofWidth w with
    | none => .error .noFormat
    | some f => (takeValue f.width bits).map fun r => (f.instr (classify next (BitVec.ofNat f.width r.1)), r.2)

/-! ### Encoder -/

/-- A command word from its fields (R100). -/
def cmdWord (opsel : BitVec 4) (argw : BitVec 6) (argm : BitVec 2) (argv : BitVec 32) : BitVec 44 :=
  opsel ++ argw ++ argm ++ argv

/-- The width of an instruction in bits (R81 to R83, R100). -/
def Instr.width : Instr → Nat
  | .hdrNone | .hdrReset | .hdrMonitor | .hdrIllegal => 2
  | .cw9Eos | .cw9Rstmark | .cw9Lit _ | .cw9Ref _ | .cw9Kwkwk _ => 9
  | .cw10Eos | .cw10Rstmark | .cw10Lit _ | .cw10Ref _ | .cw10Kwkwk _ => 10
  | .cw11Eos | .cw11Rstmark | .cw11Lit _ | .cw11Ref _ | .cw11Kwkwk _ => 11
  | .cw12Eos | .cw12Rstmark | .cw12Lit _ | .cw12Ref _ | .cw12Kwkwk _ => 12
  | .cw13Eos | .cw13Rstmark | .cw13Lit _ | .cw13Ref _ | .cw13Kwkwk _ => 13
  | .cw14Eos | .cw14Rstmark | .cw14Lit _ | .cw14Ref _ | .cw14Kwkwk _ => 14
  | .cw15Eos | .cw15Rstmark | .cw15Lit _ | .cw15Ref _ | .cw15Kwkwk _ => 15
  | .cw16Eos | .cw16Rstmark | .cw16Lit _ | .cw16Ref _ | .cw16Kwkwk _ => 16
  | .mk16Eos | .mk16Rstmark _ => 16
  | .encStart _ | .encStep | .encRun | .decStart | .decStep | .decRun => 44
  | .bcWinit | .bcWrite _ _ | .bcFlush | .bcRinit | .bcRead _ | .bcIsempty => 44
  | .opsel3Unassigned | .opsel7Unassigned | .opselEUnassigned | .opselFUnassigned => 44

/-- The value an instruction is written as, in `Instr.width` bits; a command's unnamed fields are written as zero (R81 to R83, R100). -/
def Instr.value : Instr → Nat
  | .hdrNone => 0
  | .hdrReset => 1
  | .hdrMonitor => 2
  | .hdrIllegal => 3
  | .cw9Eos => 256
  | .cw9Rstmark => 257
  | .cw9Lit byte => byte.toNat
  | .cw9Ref code => code.toNat
  | .cw9Kwkwk code => code.toNat
  | .cw10Eos => 256
  | .cw10Rstmark => 257
  | .cw10Lit byte => byte.toNat
  | .cw10Ref code => code.toNat
  | .cw10Kwkwk code => code.toNat
  | .cw11Eos => 256
  | .cw11Rstmark => 257
  | .cw11Lit byte => byte.toNat
  | .cw11Ref code => code.toNat
  | .cw11Kwkwk code => code.toNat
  | .cw12Eos => 256
  | .cw12Rstmark => 257
  | .cw12Lit byte => byte.toNat
  | .cw12Ref code => code.toNat
  | .cw12Kwkwk code => code.toNat
  | .cw13Eos => 256
  | .cw13Rstmark => 257
  | .cw13Lit byte => byte.toNat
  | .cw13Ref code => code.toNat
  | .cw13Kwkwk code => code.toNat
  | .cw14Eos => 256
  | .cw14Rstmark => 257
  | .cw14Lit byte => byte.toNat
  | .cw14Ref code => code.toNat
  | .cw14Kwkwk code => code.toNat
  | .cw15Eos => 256
  | .cw15Rstmark => 257
  | .cw15Lit byte => byte.toNat
  | .cw15Ref code => code.toNat
  | .cw15Kwkwk code => code.toNat
  | .cw16Eos => 256
  | .cw16Rstmark => 257
  | .cw16Lit byte => byte.toNat
  | .cw16Ref code => code.toNat
  | .cw16Kwkwk code => code.toNat
  | .mk16Eos => 256
  | .mk16Rstmark value => value.toNat
  | .encStart mode => (cmdWord 0x0 0 mode 0).toNat
  | .encStep => (cmdWord 0x1 0 0 0).toNat
  | .encRun => (cmdWord 0x2 0 0 0).toNat
  | .decStart => (cmdWord 0x4 0 0 0).toNat
  | .decStep => (cmdWord 0x5 0 0 0).toNat
  | .decRun => (cmdWord 0x6 0 0 0).toNat
  | .bcWinit => (cmdWord 0x8 0 0 0).toNat
  | .bcWrite value width => (cmdWord 0x9 width 0 value).toNat
  | .bcFlush => (cmdWord 0xA 0 0 0).toNat
  | .bcRinit => (cmdWord 0xB 0 0 0).toNat
  | .bcRead width => (cmdWord 0xC width 0 0).toNat
  | .bcIsempty => (cmdWord 0xD 0 0 0).toNat
  | .opsel3Unassigned => (cmdWord 0x3 0 0 0).toNat
  | .opsel7Unassigned => (cmdWord 0x7 0 0 0).toNat
  | .opselEUnassigned => (cmdWord 0xE 0 0 0).toNat
  | .opselFUnassigned => (cmdWord 0xF 0 0 0).toNat

/-- The bits of an instruction, in stream order (R64). -/
def encode (i : Instr) : List Bool := natBits i.width i.value

/-- The 44-bit word of a command (R100). -/
def encodeCommand (i : Instr) : BitVec 44 := BitVec.ofNat 44 i.value

/-- The slot an instruction stands in, given NEXT (R81 to R83, R100). -/
def Instr.slot (next : Nat) : Instr → Slot
  | .hdrNone | .hdrReset | .hdrMonitor | .hdrIllegal => .header
  | .cw9Eos | .cw9Rstmark | .cw9Lit _ | .cw9Ref _ | .cw9Kwkwk _ => .data 9 next
  | .cw10Eos | .cw10Rstmark | .cw10Lit _ | .cw10Ref _ | .cw10Kwkwk _ => .data 10 next
  | .cw11Eos | .cw11Rstmark | .cw11Lit _ | .cw11Ref _ | .cw11Kwkwk _ => .data 11 next
  | .cw12Eos | .cw12Rstmark | .cw12Lit _ | .cw12Ref _ | .cw12Kwkwk _ => .data 12 next
  | .cw13Eos | .cw13Rstmark | .cw13Lit _ | .cw13Ref _ | .cw13Kwkwk _ => .data 13 next
  | .cw14Eos | .cw14Rstmark | .cw14Lit _ | .cw14Ref _ | .cw14Kwkwk _ => .data 14 next
  | .cw15Eos | .cw15Rstmark | .cw15Lit _ | .cw15Ref _ | .cw15Kwkwk _ => .data 15 next
  | .cw16Eos | .cw16Rstmark | .cw16Lit _ | .cw16Ref _ | .cw16Kwkwk _ => .data 16 next
  | .mk16Eos | .mk16Rstmark _ => .marker
  | .encStart _ | .encStep | .encRun | .decStart | .decStep | .decRun => .command
  | .bcWinit | .bcWrite _ _ | .bcFlush | .bcRinit | .bcRead _ | .bcIsempty => .command
  | .opsel3Unassigned | .opsel7Unassigned | .opselEUnassigned | .opselFUnassigned => .command

/-- The state-dependent half of a row's condition: REF is a code below NEXT, KWKWK a code that is not (R82). -/
def Instr.fitsNext (next : Nat) : Instr → Bool
  | .cw9Ref code => code.toNat < next
  | .cw9Kwkwk code => next ≤ code.toNat
  | .cw10Ref code => code.toNat < next
  | .cw10Kwkwk code => next ≤ code.toNat
  | .cw11Ref code => code.toNat < next
  | .cw11Kwkwk code => next ≤ code.toNat
  | .cw12Ref code => code.toNat < next
  | .cw12Kwkwk code => next ≤ code.toNat
  | .cw13Ref code => code.toNat < next
  | .cw13Kwkwk code => next ≤ code.toNat
  | .cw14Ref code => code.toNat < next
  | .cw14Kwkwk code => next ≤ code.toNat
  | .cw15Ref code => code.toNat < next
  | .cw15Kwkwk code => next ≤ code.toNat
  | .cw16Ref code => code.toNat < next
  | .cw16Kwkwk code => next ≤ code.toNat
  | .cw9Eos | .cw9Rstmark | .cw9Lit _ => true
  | .cw10Eos | .cw10Rstmark | .cw10Lit _ => true
  | .cw11Eos | .cw11Rstmark | .cw11Lit _ => true
  | .cw12Eos | .cw12Rstmark | .cw12Lit _ => true
  | .cw13Eos | .cw13Rstmark | .cw13Lit _ => true
  | .cw14Eos | .cw14Rstmark | .cw14Lit _ => true
  | .cw15Eos | .cw15Rstmark | .cw15Lit _ => true
  | .cw16Eos | .cw16Rstmark | .cw16Lit _ => true
  | .hdrNone | .hdrReset | .hdrMonitor | .hdrIllegal | .mk16Eos | .mk16Rstmark _ => true
  | .encStart _ | .encStep | .encRun | .decStart | .decStep | .decRun => true
  | .bcWinit | .bcWrite _ _ | .bcFlush | .bcRinit | .bcRead _ | .bcIsempty => true
  | .opsel3Unassigned | .opsel7Unassigned | .opselEUnassigned | .opselFUnassigned => true

/-! ### The opcode table's numbering -/

/-- The value of NEXT at which a bare table word is read: one phrase registered, so that 258 is a REF and 259 a KWKWK (log 14). -/
def tableNext : Nat := 259

/-- The slot of a table row of `nbits` bits, the count rounded up to whole bytes or not: 2 or 8 a header, 9 to 16 a codeword of
that width, 44 or 48 a command word (log 14). -/
def tableSlot (nbits : Nat) : Option Slot :=
  if nbits = 2 ∨ nbits = 8 then some .header
  else if 9 ≤ nbits ∧ nbits ≤ 16 then some (.data nbits tableNext)
  else if nbits = 44 ∨ nbits = 48 then some .command
  else none

/-- How many bits a slot holds. -/
def Slot.width : Slot → Nat
  | .command => 44
  | .header => 2
  | .data w _ => w
  | .marker => 16

/-- The instruction of a table word: the word is laid out as the slot holds it, most significant bit first, and decoded; a word
with a bit set above the slot's width is none (log 14). -/
def decodeTableWord (nbits w : Nat) : Option Instr :=
  match tableSlot nbits with
  | none => none
  | some slot =>
    if w < 2 ^ slot.width then
      match decode slot (natBits slot.width w) with
      | .ok r => some r.1
      | .error _ => none
    else none

end Sys2Proof
end

