-- ==== Sys2Proof/Machine/State.lean ====
section
/-! DEFINITION. State.lean: everything the spec gives the machine, as plain data (10_state.md R20 to R42), and its reset values. -/

namespace Sys2Proof.Machine

/-- `ST`, the unit's state machine (R28). -/
inductive UnitState where
  | idle
  | active
  | done
  | fault
  deriving DecidableEq, Repr

/-- `MODE`, the policy of the stream; the encoding 3 is not a mode (R22). -/
inductive Mode where
  | none
  | reset
  | monitor
  deriving DecidableEq, Repr

/-- The causes of a fault (R230). -/
inductive FaultCause where
  | invalidWidth
  | valueOutOfRange
  | endOfStream
  | sourceUnavailable
  | invalidMode
  | invalidCodeword
  | counterOverflow
  | protocolError
  deriving DecidableEq, Repr

/-- What `ADVANCE` answers (R160). -/
inductive Action where
  | register
  | keepFrozen
  | doReset
  deriving DecidableEq, Repr

/-- The two units of the block (R20). -/
inductive UnitId where
  | enc
  | dec
  deriving DecidableEq, Repr

/-- A sparse space: the cells that differ from what an unlisted address reads as, addresses strictly rising (R60). -/
abbrev Cells (α : Type) := List (Nat × α)

/-- The registers each unit has its own copy of (R22 to R29). -/
structure Regs where
  /-- `MODE` (R22). -/
  mode : Mode
  /-- `W` (R23). -/
  w : BitVec 5
  /-- `NEXT` (R24). -/
  next : Code
  /-- `U` (R25). -/
  u : Count
  /-- `C` (R26). -/
  c : Count
  /-- `U0` (R27). -/
  u0 : Count
  /-- `C0` (R27). -/
  c0 : Count
  /-- `LATCHED` (R27). -/
  latched : Bool
  /-- `ST` (R28). -/
  st : UnitState
  /-- `FAULT_CODE` (R29). -/
  faultCode : BitVec 4
  deriving DecidableEq, Repr

/-- The encoder unit (R31 to R33). -/
structure Enc where
  regs : Regs
  /-- `TRIE`: the cell of (node `c`, byte `b`) has address `256 c + b` and holds the child's code (R31, R61). -/
  trie : Cells Code
  /-- `PK.ACC`, oldest bit first; `PK.CNT` is its length (R32, log 13). -/
  acc : List Bool
  /-- `ENC.SRC` (R33). -/
  src : List Byte
  /-- `ENC.SNK` (R33). -/
  snk : List Byte
  /-- `RSP` of the last command: the value returned, if one is (R100, log 7). -/
  rsp : Option (BitVec 32)
  deriving DecidableEq, Repr

/-- The decoder unit (R34 to R36). -/
structure Dec where
  regs : Regs
  /-- `TBL`: the slots that differ from the seeded content (R34, R62). -/
  tbl : Cells Phrase
  /-- `PREV` (R35). -/
  prev : Phrase
  /-- `PREV_VALID` (R35). -/
  prevValid : Bool
  /-- `PENDING`: the bit `pending` of DEC.STEP (R149, R210, log 12). -/
  pending : Bool
  /-- `UP.REM` (R36). -/
  rem : List Bool
  /-- `DEC.SRC` (R36). -/
  src : List Byte
  /-- `DEC.SNK` (R36). -/
  snk : List Byte
  /-- `RSP` of the last command: the value returned, if one is (R100, log 7). -/
  rsp : Option (BitVec 32)
  deriving DecidableEq, Repr

/-- What the host does to a unit: a command word on its port (R100), a hardware reset (R255), a new byte source (R257, R258). -/
inductive HostAct where
  | command (u : UnitId) (cmd : BitVec 44)
  | hwReset (u : UnitId)
  | setSource (u : UnitId) (bytes : List Byte)
  deriving DecidableEq, Repr

/-- The machine: both units, the host's pending actions, and the unit whose port holds the present command (log 8). -/
structure State where
  enc : Enc
  dec : Dec
  port : List HostAct
  target : UnitId
  deriving DecidableEq, Repr

/-- Where a step has no next state.  Every fault of the spec (R230) is a next state instead: its entry is described (R240). -/
inductive Fault where
  /-- Raised by `symRef` (the REF symbols) when the slot named holds no phrase: R62 gives no such read.  Reached by no step from a state that
  meets `State.Inv`.  Safe (log 10). -/
  | emptySlot
  /-- Raised by DEC.STEP when W is outside 9 to 16, for which R82 gives no format.  Reached by no step from a state that meets `State.Inv`.
  Safe (log 11). -/
  | noFormat
  /-- Raised by `runSymbol` on an instruction that is no stream symbol; the stream slots decode to symbols only.  Safe (log 26). -/
  | notASymbol
  /-- Raised by the host's action `setSource` on an ACTIVE unit: I16 calls it outside the model (stuck).  Safe (log 9). -/
  | hostTouchedSource
  deriving DecidableEq, Repr

/-- Why an instruction has no meaning. -/
inductive Refusal where
  /-- Raised by `exec` on an instruction without a meaning, by its mnemonic; no arm does so.  Safe. -/
  | notModelled (mnemonic : String)
  deriving DecidableEq, Repr

/-- The common registers after hardware reset (R42, R255). -/
def Regs.reset : Regs where
  mode := .none
  w := 9
  next := 258
  u := 0
  c := 0
  u0 := 0
  c0 := 0
  latched := false
  st := .idle
  faultCode := 0

/-- ENC after hardware reset (R42, R255); TRIE, ENC.SRC and RSP by logs 3, 6, 7. -/
def Enc.reset : Enc where
  regs := .reset
  trie := []
  acc := []
  src := []
  snk := []
  rsp := none

/-- DEC after hardware reset (R42, R255); TBL, PREV, DEC.SRC, RSP and PENDING by logs 4, 5, 6, 7, 12. -/
def Dec.reset : Dec where
  regs := .reset
  tbl := []
  prev := ⟨0, []⟩
  prevValid := false
  pending := false
  rem := []
  src := []
  snk := []
  rsp := none

/-- The machine right after reset of both units, with no host action pending (log 8). -/
def State.reset : State where
  enc := .reset
  dec := .reset
  port := []
  target := .enc

/-- Replace the common registers of ENC. -/
def Enc.withRegs (e : Enc) (r : Regs) : Enc := { e with regs := r }

/-- Replace the common registers of DEC. -/
def Dec.withRegs (d : Dec) (r : Regs) : Dec := { d with regs := r }

/-- Replace the encoder unit. -/
def State.withEnc (s : State) (e : Enc) : State := { s with enc := e }

/-- Replace the decoder unit. -/
def State.withDec (s : State) (d : Dec) : State := { s with dec := d }

end Sys2Proof.Machine
end

