-- ==== Sys2Proof/Machine/Ops.lean ====
section
/-! DEFINITION. Ops.lean: how a pseudocode line can end, the sparse spaces, fault entry and the return from it, and the bit counters
(00_scope.md R11; 20_memory.md R60 to R62; 43_width_policy.md R170 to R172; 60_exceptions.md R230, R240, R241; 70_reset_and_hazards.md R255). -/

namespace Sys2Proof.Machine

/-! ### How an operation ends -/

/-- An operation on a unit's state `σ`: it goes on with a value, it has raised a fault of R230 (the state is the one at the `raise`
line, R240), or it stands where the spec gives no effect. -/
inductive Run (σ α : Type) where
  | ok (a : α) (s : σ)
  | raised (s : σ)
  | stuck (f : Fault)
  deriving DecidableEq, Repr

/-- One pseudocode line after another: a raised fault stops the operation (R240). -/
def Run.bind {σ α β : Type} (r : Run σ α) (k : α → σ → Run σ β) : Run σ β :=
  match r with
  | .ok a s => k a s
  | .raised s => .raised s
  | .stuck f => .stuck f

/-- An operation on a part of the state, put back into the whole. -/
def Run.lift {ρ σ α : Type} (r : Run ρ α) (put : ρ → σ) : Run σ α :=
  match r with
  | .ok a s => .ok a (put s)
  | .raised s => .raised (put s)
  | .stuck f => .stuck f

/-- The outcome of a whole operation: a raised fault is a next state (R240). -/
def Run.outcome {σ α : Type} (r : Run σ α) (put : σ → State) : Host.Outcome State Fault Refusal :=
  match r with
  | .ok _ s => .next (put s)
  | .raised s => .next (put s)
  | .stuck f => .fault f

/-! ### Sparse spaces -/

/-- The entry listed at an address. -/
def Cells.find {α : Type} : Cells α → Nat → Option α
  | [], _ => none
  | e :: m, k => if k = e.1 then some e.2 else Cells.find m k

/-- List an entry, in its place. -/
def Cells.insert {α : Type} : Cells α → Nat → α → Cells α
  | [], k, v => [(k, v)]
  | e :: m, k, v =>
    if k < e.1 then (k, v) :: e :: m
    else if k = e.1 then (k, v) :: m
    else e :: Cells.insert m k v

/-- Take the entry of an address out of the list. -/
def Cells.erase {α : Type} : Cells α → Nat → Cells α
  | [], _ => []
  | e :: m, k => if k = e.1 then m else e :: Cells.erase m k

/-- Read an address of a space whose unlisted addresses read as `dflt`. -/
def Cells.read {α : Type} (dflt : Nat → Option α) (m : Cells α) (k : Nat) : Option α :=
  match Cells.find m k with
  | some v => some v
  | none => dflt k

/-- Write an address of a space whose unlisted addresses read as `dflt`: a value the address reads as unlisted is not listed. -/
def Cells.write {α : Type} [DecidableEq α] (dflt : Nat → Option α) (m : Cells α) (k : Nat) (v : α) : Cells α :=
  if dflt k = some v then Cells.erase m k else Cells.insert m k v

/-- The canonical form: addresses strictly rising, no entry equal to what its address reads as unlisted. -/
abbrev Cells.Wf {α : Type} [DecidableEq α] (dflt : Nat → Option α) (m : Cells α) : Prop :=
  (m.map Prod.fst).Pairwise (· < ·) ∧ ∀ e ∈ m, dflt e.1 ≠ some e.2

/-- An unlisted trie cell holds no child (R61, R132). -/
def trieDefault (_ : Nat) : Option Code := none

/-- An unlisted table slot holds its seed below 256 and nothing from there on (R147; slots 256, 257, 65536: log 4). -/
def tblDefault (i : Nat) : Option Phrase := if i < 256 then some (Phrase.single (BitVec.ofNat 8 i)) else none

/-- The address of the trie cell `(c, b)` (R60). -/
def trieAddr (c : Code) (b : Byte) : Nat := 256 * c.toNat + b.toNat

/-- `MemRead(TRIE, (c, b))` (R61). -/
def trieRead (t : Cells Code) (c : Code) (b : Byte) : Option Code := Cells.read trieDefault t (trieAddr c b)

/-- `MemWrite(TRIE, (c, b), n)` (R61). -/
def trieWrite (t : Cells Code) (c : Code) (b : Byte) (n : Code) : Cells Code :=
  Cells.write trieDefault t (trieAddr c b) n

/-- `MemRead(TBL, i)` (R62). -/
def tblRead (t : Cells Phrase) (i : Nat) : Option Phrase := Cells.read tblDefault t i

/-- `MemWrite(TBL, i, s)` (R62). -/
def tblWrite (t : Cells Phrase) (i : Nat) (s : Phrase) : Cells Phrase := Cells.write tblDefault t i s

/-! ### Fault entry and the return from it -/

/-- The code of a fault in `FAULT_CODE` (R230). -/
def FaultCause.code : FaultCause → BitVec 4
  | .invalidWidth => 1
  | .valueOutOfRange => 2
  | .endOfStream => 3
  | .sourceUnavailable => 4
  | .invalidMode => 5
  | .invalidCodeword => 6
  | .counterOverflow => 7
  | .protocolError => 8

/-- Fault entry: nothing when `ST = FAULT` already, else the code and the state FAULT (R240). -/
def Regs.raise (f : FaultCause) (r : Regs) : Regs :=
  if r.st = .fault then r else { r with st := .fault, faultCode := f.code }

/-- Fault entry of ENC (R240). -/
def Enc.raise (f : FaultCause) (e : Enc) : Enc := e.withRegs (e.regs.raise f)

/-- Fault entry of DEC (R240). -/
def Dec.raise (f : FaultCause) (d : Dec) : Dec := d.withRegs (d.regs.raise f)

/-- Hardware reset of ENC, the only way out of FAULT and DONE (R241, R255); the source is the host's and stays (log 6). -/
def Enc.hwReset (e : Enc) : Enc := { Enc.reset with src := e.src }

/-- Hardware reset of DEC (R241, R255); the source is the host's and stays (log 6). -/
def Dec.hwReset (d : Dec) : Dec := { Dec.reset with src := d.src }

/-! ### Counters -/

/-- `COUNT_U(k)`: `U <- U + 8 k`, or CounterOverflow with U unchanged (R170, R172). -/
def Regs.countU (k : Nat) (r : Regs) : Run Regs Unit :=
  if r.u.toNat + 8 * k < Config.countLimit then .ok () { r with u := BitVec.ofNat 64 (r.u.toNat + 8 * k) }
  else .raised (r.raise .counterOverflow)

/-- `COUNT_C(w)`: `C <- C + w`, or CounterOverflow with C unchanged (R171, R172). -/
def Regs.countC (w : Nat) (r : Regs) : Run Regs Unit :=
  if r.c.toNat + w < Config.countLimit then .ok () { r with c := BitVec.ofNat 64 (r.c.toNat + w) }
  else .raised (r.raise .counterOverflow)

/-- `COUNT_U` of ENC. -/
def Enc.countU (k : Nat) (e : Enc) : Run Enc Unit := (e.regs.countU k).lift e.withRegs

/-- `COUNT_C` of ENC. -/
def Enc.countC (w : Nat) (e : Enc) : Run Enc Unit := (e.regs.countC w).lift e.withRegs

/-- `COUNT_U` of DEC. -/
def Dec.countU (k : Nat) (d : Dec) : Run Dec Unit := (d.regs.countU k).lift d.withRegs

/-- `COUNT_C` of DEC. -/
def Dec.countC (w : Nat) (d : Dec) : Run Dec Unit := (d.regs.countC w).lift d.withRegs

end Sys2Proof.Machine
end

