-- ==== Sys2Proof/Machine/Flags.lean ====
section
/-! DEFINITION. Flags.lean: the status flags and the STATUS word, and the mode encoding (10_state.md R22, R28, R39). -/

namespace Sys2Proof.Machine

/-- The encoding of `ST` (R28). -/
def UnitState.bits : UnitState → BitVec 2
  | .idle => 0
  | .active => 1
  | .done => 2
  | .fault => 3

/-- The encoding of `MODE`, which is also the header's value (R22, R81). -/
def Mode.bits : Mode → BitVec 2
  | .none => 0
  | .reset => 1
  | .monitor => 2

/-- The mode of a 2-bit value; 3 is not a mode (R22). -/
def Mode.ofBits (m : BitVec 2) : Option Mode :=
  match m.toNat with
  | 0 => some .none
  | 1 => some .reset
  | 2 => some .monitor
  | _ => Option.none

/-- `STATUS`: [31:30] MODE, [29:13] NEXT, [12:8] W, [7:4] FAULT_CODE, [3] PREV_VALID, [2] LATCHED, [1:0] ST (R39). -/
def statusWord (r : Regs) (prevValid : Bool) : BitVec 32 :=
  r.mode.bits ++ r.next ++ r.w ++ r.faultCode ++ BitVec.ofBool prevValid ++ BitVec.ofBool r.latched ++ r.st.bits

/-- `STATUS` of ENC: PREV_VALID reads as 0 (R39). -/
def Enc.status (e : Enc) : BitVec 32 := statusWord e.regs false

/-- `STATUS` of DEC (R39). -/
def Dec.status (d : Dec) : BitVec 32 := statusWord d.regs d.prevValid

/-- `PK.CNT`: the number of bits in `PK.ACC` (R32, log 13). -/
def Enc.pkCnt (e : Enc) : BitVec 3 := BitVec.ofNat 3 e.acc.length

/-- `RSP`: bit 32 says that a value is returned, bits 31..0 are the value, and free when there is none (R100, log 7). -/
def rspWord (r : Option (BitVec 32)) : BitVec 33 :=
  match r with
  | some v => 1#1 ++ v
  | none => 0#1 ++ Config.rspIdle

end Sys2Proof.Machine
end

