-- ==== Sys2Proof/Machine/Operands.lean ====
section
/-! DEFINITION. Operands.lean: the command port: which unit takes a command and how it answers (30_encoding.md R100; 60_exceptions.md
R238), and the state test that opens an operation. -/

namespace Sys2Proof.Machine

/-- The answer of a unit's command begins as "no value returned" (R100). -/
def State.clearRsp (s : State) : State :=
  match s.target with
  | .enc => s.withEnc { s.enc with rsp := none }
  | .dec => s.withDec { s.dec with rsp := none }

/-- `raise ProtocolError` in the unit that got the command (R238, R240). -/
def State.protocolError (s : State) : State :=
  match s.target with
  | .enc => s.withEnc (s.enc.raise .protocolError)
  | .dec => s.withDec (s.dec.raise .protocolError)

/-- A command of unit `u`: run by `u`; sent to the other unit it is a ProtocolError there (R238). -/
def command (u : UnitId) (op : State → Host.Outcome State Fault Refusal) (s : State) : Host.Outcome State Fault Refusal :=
  if s.target = u then op s.clearRsp else .next s.clearRsp.protocolError

/-- A command of ENC as an operation on ENC alone (R20, R21). -/
def encCommand (op : Enc → Run Enc Unit) (s : State) : Host.Outcome State Fault Refusal :=
  command .enc (fun s => (op s.enc).outcome s.withEnc) s

/-- A command of DEC as an operation on DEC alone (R20, R21). -/
def decCommand (op : Dec → Run Dec Unit) (s : State) : Host.Outcome State Fault Refusal :=
  command .dec (fun s => (op s.dec).outcome s.withDec) s

/-- A stream symbol as an operation on DEC alone. -/
def decSymbol (op : Dec → Run Dec Unit) (s : State) : Host.Outcome State Fault Refusal := (op s.dec).outcome s.withDec

/-- `if ST != want: raise ProtocolError(ST)`, the first line of every operation of ENC (R238). -/
def Enc.require (want : UnitState) (op : Enc → Run Enc Unit) (e : Enc) : Run Enc Unit :=
  if e.regs.st = want then op e else .raised (e.raise .protocolError)

/-- `if ST != want: raise ProtocolError(ST)`, the first line of every operation of DEC (R238). -/
def Dec.require (want : UnitState) (op : Dec → Run Dec Unit) (d : Dec) : Run Dec Unit :=
  if d.regs.st = want then op d else .raised (d.raise .protocolError)

end Sys2Proof.Machine
end

