-- ==== Sys2Proof/Machine/Channel.lean ====
section
/-! DEFINITION. Channel.lean: the bit channel, packer and unpacker (40_bit_channel.md R110 to R120). -/

namespace Sys2Proof.Machine

/-! ### Packer -/

/-- `BC.WINIT` (R111). -/
def bcWinit (e : Enc) : Enc := { e with acc := [], snk := [] }

/-- One bit appended to the partial byte; the eighth bit emits the byte (R112, loop body). -/
def putBit (e : Enc) (b : Bool) : Enc :=
  if e.acc.length + 1 = 8 then { e with acc := [], snk := e.snk ++ [byteOfBits (e.acc ++ [b])] }
  else { e with acc := e.acc ++ [b] }

/-- Bits appended one after another, oldest first. -/
def putBits (e : Enc) (bits : List Bool) : Enc := bits.foldl putBit e

/-- `BC.WRITE(value, width)`: the width is tested first, then the range; a faulting write moves nothing (R112). -/
def bcWrite (value width : Nat) (e : Enc) : Run Enc Unit :=
  if width < Config.bcMinW ∨ Config.bcMaxW < width then .raised (e.raise .invalidWidth)
  else if 2 ^ width ≤ value then .raised (e.raise .valueOutOfRange)
  else .ok () (putBits e (natBits width value))

/-- `BC.FLUSH()`: a partial byte is padded with zero bits and emitted (R114). -/
def bcFlush (e : Enc) : Enc :=
  if e.acc = [] then e
  else { e with acc := [], snk := e.snk ++ [byteOfBits (e.acc ++ List.replicate (8 - e.acc.length) false)] }

/-! ### Unpacker -/

/-- `BC.RINIT` (R116). -/
def bcRinit (d : Dec) : Dec := { d with rem := bytesToBits d.src }

/-- `BC.READ(width)`: the width is tested first, then the bits available; a faulting read consumes nothing (R117). -/
def bcRead (width : Nat) (d : Dec) : Run Dec Nat :=
  if width < Config.bcMinW ∨ Config.bcMaxW < width then .raised (d.raise .invalidWidth)
  else if d.rem.length < width then .raised (d.raise .endOfStream)
  else .ok (bitsToNat (d.rem.take width)) { d with rem := d.rem.drop width }

/-- `BC.ISEMPTY()` (R120). -/
def bcIsempty (d : Dec) : Bool := d.rem.length = 0

/-! ### The commands, legal only in IDLE (R100, R238) -/

/-- BC.WINIT (R111). -/
def execBcWinit (s : State) : Host.Outcome State Fault Refusal :=
  encCommand (Enc.require .idle fun e => .ok () (bcWinit e)) s

/-- BC.WRITE (R112). -/
def execBcWrite (value : BitVec 32) (width : BitVec 6) (s : State) : Host.Outcome State Fault Refusal :=
  encCommand (Enc.require .idle (bcWrite value.toNat width.toNat)) s

/-- BC.FLUSH (R114). -/
def execBcFlush (s : State) : Host.Outcome State Fault Refusal :=
  encCommand (Enc.require .idle fun e => .ok () (bcFlush e)) s

/-- BC.RINIT (R116). -/
def execBcRinit (s : State) : Host.Outcome State Fault Refusal :=
  decCommand (Dec.require .idle fun d => .ok () (bcRinit d)) s

/-- BC.READ: the value read is the response (R117, R100). -/
def execBcRead (width : BitVec 6) (s : State) : Host.Outcome State Fault Refusal :=
  decCommand (Dec.require .idle fun d =>
    (bcRead width.toNat d).bind fun v d => .ok () { d with rsp := some (BitVec.ofNat 32 v) }) s

/-- BC.ISEMPTY: 1 if empty, else 0 (R120, R100). -/
def execBcIsempty (s : State) : Host.Outcome State Fault Refusal :=
  decCommand (Dec.require .idle fun d => .ok () { d with rsp := some (if bcIsempty d then 1 else 0) }) s

end Sys2Proof.Machine
end

