-- ==== Sys2Proof/Machine/Table.lean ====
section
/-! DEFINITION. Table.lean: the codeword table of DEC (42_codeword_table.md R145 to R150). -/

namespace Sys2Proof.Machine

/-- `CT.SEED()`: the seeds in slots 0 to 255, nothing from 258 on (R147). -/
def ctSeed (d : Dec) : Dec := { d with tbl := [] }

/-- The self-referential phrase `PREV ++ [PREV[0]]` (R149, R216). -/
def kwkwkPhrase (d : Dec) : Phrase := d.prev.snoc d.prev.first

/-- `CT.RESOLVE(x, pending)` with the field PENDING as the bit (R149). -/
def ctResolve (x : Nat) (d : Dec) : Run Dec Phrase :=
  if x < 256 then .ok (Phrase.single (BitVec.ofNat 8 x)) d
  else if x = Config.codeRst then .raised (d.raise .invalidCodeword)
  else if x < d.regs.next.toNat then
    match tblRead d.tbl x with
    | some p => .ok p d
    | none => .stuck .emptySlot
  else if x = d.regs.next.toNat ∧ d.pending = true then .ok (kwkwkPhrase d) d
  else .raised (d.raise .invalidCodeword)

/-- `CT.REGISTER(s)`: `TBL[NEXT] <- PREV ++ [s[0]] ; NEXT <- NEXT + 1` (R150). -/
def ctRegister (s : Phrase) (d : Dec) : Dec :=
  { d with
    tbl := tblWrite d.tbl d.regs.next.toNat (d.prev.snoc s.first)
    regs := { d.regs with next := d.regs.next + 1 } }

end Sys2Proof.Machine
end

