-- ==== Sys2Proof/Machine/Trie.lean ====
section
/-! DEFINITION. Trie.lean: the prefix dictionary of ENC (41_prefix_dictionary.md R130 to R135). -/

namespace Sys2Proof.Machine

/-- `SrcPeek(k)`: the byte `k` places ahead, or none past the end (R63). -/
def srcPeek (e : Enc) (k : Nat) : Option Byte := e.src[k]?

/-- `SrcTake(k)`: remove the first `k` bytes (R63). -/
def srcTake (k : Nat) (e : Enc) : Enc := { e with src := e.src.drop k }

/-- `PD.SEED()`: no registered node remains; the seeds are implicit (R132). -/
def pdSeed (e : Enc) : Enc := { e with trie := [] }

/-- `PD.CHILD(c, b)` (R133). -/
def pdChild (t : Cells Code) (c : Code) (b : Byte) : Option Code := trieRead t c b

/-- The node of a seed: its code is the byte (R31, R85). -/
def seedCode (b : Byte) : Code := b.setWidth 17

/-- The loop of `PD.LPM` from node `c`, `l` bytes matched, over the bytes after them: the node reached and the bytes matched (R134). -/
def lpmWalk (t : Cells Code) : Code → Nat → List Byte → Code × Nat
  | c, l, [] => (c, l)
  | c, l, b :: bs =>
    match pdChild t c b with
    | none => (c, l)
    | some n => lpmWalk t n (l + 1) bs

/-- `PD.LPM()`: the longest dictionary phrase that is a prefix of the source; on an empty source a ProtocolError (R134, D29). -/
def pdLpm (e : Enc) : Run Enc (Code × Nat) :=
  match e.src with
  | [] => .raised (e.raise .protocolError)
  | b :: bs => .ok (lpmWalk e.trie (seedCode b) 1 bs) e

/-- `PD.INSERT(c, b, n)`: no effect when the cell is already present (R135, D28). -/
def pdInsert (c : Code) (b : Byte) (n : Code) (e : Enc) : Enc :=
  match trieRead e.trie c b with
  | some _ => e
  | none => { e with trie := trieWrite e.trie c b n }

end Sys2Proof.Machine
end

