-- ==== Sys2Proof/Machine/Width.lean ====
section
/-! DEFINITION. Width.lean: the width state machine and the reset-policy controller, one definition for both units, and the
dictionary reset of each (43_width_policy.md R160 to R174). -/

namespace Sys2Proof.Machine

/-- The latch of `CHOOSE_ACTION` under Monitor: the first call of the stream takes `(U0, C0)` (R163, R167). -/
def Regs.latch (r : Regs) : Regs := if r.latched then r else { r with u0 := r.u, c0 := r.c, latched := true }

/-- `10 * U0 * C >= 11 * C0 * U`, on exact products (R163, R168, R169). -/
def Regs.ratioReached (r : Regs) : Bool :=
  Config.threshNum * r.c0.toNat * r.u.toNat ≤ Config.threshDen * r.u0.toNat * r.c.toNat

/-- `CHOOSE_ACTION()` (R163). -/
def chooseAction (r : Regs) : Action × Regs :=
  match r.mode with
  | .none => (.keepFrozen, r)
  | .reset => (.doReset, r)
  | .monitor => (if r.latch.ratioReached then .doReset else .keepFrozen, r.latch)

/-- `ADVANCE()` (R160). -/
def advance (r : Regs) : Action × Regs :=
  if r.next.toNat < 2 ^ r.w.toNat then (.register, r)
  else if r.w.toNat < Config.wMax then (.register, { r with w := r.w + 1 })
  else chooseAction r

/-- `W <- 9 ; NEXT <- 258` (R173, R174, R186, R206). -/
def Regs.restart (r : Regs) : Regs :=
  { r with w := BitVec.ofNat 5 Config.wMin, next := BitVec.ofNat 17 Config.codeFirst }

/-- `U <- 0 ; C <- 0 ; U0 <- 0 ; C0 <- 0 ; LATCHED <- 0` (R186, R206). -/
def Regs.clearCounts (r : Regs) : Regs := { r with u := 0, c := 0, u0 := 0, c0 := 0, latched := false }

/-- `DO_RESET_ENC()`: the marker at the width in force, then the dictionary cleared (R173). -/
def doResetEnc (e : Enc) : Run Enc Unit :=
  (bcWrite Config.codeRst e.regs.w.toNat e).bind fun _ e =>
  (e.countC e.regs.w.toNat).bind fun _ e =>
  .ok () ((pdSeed e).withRegs e.regs.restart)

/-- The clearing half of `DO_RESET_DEC()`: `CT.SEED() ; W <- 9 ; NEXT <- 258 ; PREV_VALID <- 0` (R174). -/
def restartDec (d : Dec) : Dec := { ctSeed d with regs := d.regs.restart, prevValid := false }

end Sys2Proof.Machine
end

