-- ==== Sys2Proof/Machine/Symbols.lean ====
section
/-! DEFINITION. Symbols.lean: what DEC does with each stream symbol: the header inside DEC.START, a codeword or a marker slot inside
DEC.STEP (30_encoding.md R81 to R83; 43_width_policy.md R174; 45_decoder.md R206, R212 to R218).  A symbol's meaning takes its own bits
from UP.REM and counts them, as the `BC.READ` and `COUNT_C` of the operation around it do (log 1). -/

namespace Sys2Proof.Machine

/-! ### Shared operations -/

/-- `x <- BC.READ(w) ; COUNT_C(w)`: the bits of a symbol taken from the stream (R171, R210). -/
def symTake (w : Nat) (d : Dec) : Run Dec Unit :=
  (bcRead w d).bind fun _ d => d.countC w

/-- A symbol read inside DEC.STEP: the unit is ACTIVE, the bits are taken, then the symbol acts (R210; log 2). -/
def symData (w : Nat) (op : Dec → Run Dec Unit) (d : Dec) : Run Dec Unit :=
  Dec.require .active (fun d => (symTake w d).bind fun _ d => op d) d

/-- `for each byte y of s in order: SnkPut(y)` (R210). -/
def snkPutAll (bytes : List Byte) (d : Dec) : Dec := { d with snk := d.snk ++ bytes }

/-- The tail of DEC.STEP once the phrase is known: sink, `COUNT_U`, the pending registration, PREV (R210); the registration is then
no longer pending (log 12). -/
def symTail (s : Phrase) (d : Dec) : Run Dec Unit :=
  ((snkPutAll s.toList d).countU s.length).bind fun _ d =>
  .ok () { (if d.pending then ctRegister s d else d) with prev := s, prevValid := true, pending := false }

/-- The header symbol of a legal mode: two bits taken, then the stream is started (R206). -/
def symHeader (m : Mode) (d : Dec) : Run Dec Unit :=
  Dec.require .idle (fun d => (symTake 2 d).bind fun _ d =>
    .ok () { ctSeed d with
      regs := { d.regs.restart with mode := m, st := .active }
      prevValid := false }) d

/-- The header symbol `0b11`: two bits taken, then InvalidMode (R206, R235). -/
def symHeaderIllegal (d : Dec) : Run Dec Unit :=
  Dec.require .idle (fun d => (symTake 2 d).bind fun _ d => .raised (d.raise .invalidMode)) d

/-- `EOS`: `ST <- DONE`, a pending registration is dropped (R212). -/
def symEos (w : Nat) (d : Dec) : Run Dec Unit :=
  symData w (fun d => .ok () { d.withRegs { d.regs with st := .done } with pending := false }) d

/-- `RSTMARK` in a data position: InvalidCodeword (R215). -/
def symRstmark (w : Nat) (d : Dec) : Run Dec Unit :=
  symData w (fun d => .raised (d.raise .invalidCodeword)) d

/-- `LIT`: the phrase is `[x]` (R213). -/
def symLit (w : Nat) (byte : Byte) (d : Dec) : Run Dec Unit :=
  symData w (symTail (Phrase.single byte)) d

/-- `REF`: the phrase is `TBL[x]`, `x < NEXT` (R214); a code that is not below NEXT is none of the row's, and the
model raises InvalidCodeword on it.  DESIGN CHOICE (log 29): a code below 258, decoded to another row, reads its slot here: below 256
the seed, while 256 and 257, which hold nothing, stop with emptySlot. -/
def symRef (w code : Nat) (d : Dec) : Run Dec Unit :=
  symData w (fun d =>
    if code < d.regs.next.toNat then
      match tblRead d.tbl code with
      | some p => symTail p d
      | none => .stuck .emptySlot
    else .raised (d.raise .invalidCodeword)) d

/-- `KWKWK`: the phrase is `PREV ++ [PREV[0]]` when `x = NEXT` and a registration is pending (R216), else
InvalidCodeword (R218); a code below NEXT is none of the row's (log 29). -/
def symKwkwk (w code : Nat) (d : Dec) : Run Dec Unit :=
  symData w (fun d =>
    if code = d.regs.next.toNat ∧ d.pending = true then symTail (kwkwkPhrase d) d
    else .raised (d.raise .invalidCodeword)) d

/-- The marker slot holding 256: the stream ends (R174, R217). -/
def symMarkerEos (d : Dec) : Run Dec Unit :=
  symData 16 (fun d => .ok () { d.withRegs { d.regs with st := .done } with pending := false }) d

/-- The marker slot holding anything else: the dictionary is cleared, the value is not looked at (R174, R217). -/
def symMarker (d : Dec) : Run Dec Unit :=
  symData 16 (fun d => .ok () { restartDec d with pending := false }) d

/-! ### The header (R206) -/

/-- HDR.NONE. -/
def execHdrNone (s : State) : Host.Outcome State Fault Refusal := decSymbol (symHeader .none) s

/-- HDR.RESET. -/
def execHdrReset (s : State) : Host.Outcome State Fault Refusal := decSymbol (symHeader .reset) s

/-- HDR.MONITOR. -/
def execHdrMonitor (s : State) : Host.Outcome State Fault Refusal := decSymbol (symHeader .monitor) s

/-- HDR.ILLEGAL. -/
def execHdrIllegal (s : State) : Host.Outcome State Fault Refusal := decSymbol symHeaderIllegal s

/-! ### The codewords, width by width (R212 to R218) -/

/-- CW9.EOS. -/
def execCw9Eos (s : State) : Host.Outcome State Fault Refusal := decSymbol (symEos 9) s

/-- CW9.RSTMARK. -/
def execCw9Rstmark (s : State) : Host.Outcome State Fault Refusal := decSymbol (symRstmark 9) s

/-- CW9.LIT. -/
def execCw9Lit (byte : BitVec 8) (s : State) : Host.Outcome State Fault Refusal := decSymbol (symLit 9 byte) s

/-- CW9.REF. -/
def execCw9Ref (code : BitVec 9) (s : State) : Host.Outcome State Fault Refusal := decSymbol (symRef 9 code.toNat) s

/-- CW9.KWKWK. -/
def execCw9Kwkwk (code : BitVec 9) (s : State) : Host.Outcome State Fault Refusal := decSymbol (symKwkwk 9 code.toNat) s

/-- CW10.EOS. -/
def execCw10Eos (s : State) : Host.Outcome State Fault Refusal := decSymbol (symEos 10) s

/-- CW10.RSTMARK. -/
def execCw10Rstmark (s : State) : Host.Outcome State Fault Refusal := decSymbol (symRstmark 10) s

/-- CW10.LIT. -/
def execCw10Lit (byte : BitVec 8) (s : State) : Host.Outcome State Fault Refusal := decSymbol (symLit 10 byte) s

/-- CW10.REF. -/
def execCw10Ref (code : BitVec 10) (s : State) : Host.Outcome State Fault Refusal := decSymbol (symRef 10 code.toNat) s

/-- CW10.KWKWK. -/
def execCw10Kwkwk (code : BitVec 10) (s : State) : Host.Outcome State Fault Refusal := decSymbol (symKwkwk 10 code.toNat) s

/-- CW11.EOS. -/
def execCw11Eos (s : State) : Host.Outcome State Fault Refusal := decSymbol (symEos 11) s

/-- CW11.RSTMARK. -/
def execCw11Rstmark (s : State) : Host.Outcome State Fault Refusal := decSymbol (symRstmark 11) s

/-- CW11.LIT. -/
def execCw11Lit (byte : BitVec 8) (s : State) : Host.Outcome State Fault Refusal := decSymbol (symLit 11 byte) s

/-- CW11.REF. -/
def execCw11Ref (code : BitVec 11) (s : State) : Host.Outcome State Fault Refusal := decSymbol (symRef 11 code.toNat) s

/-- CW11.KWKWK. -/
def execCw11Kwkwk (code : BitVec 11) (s : State) : Host.Outcome State Fault Refusal := decSymbol (symKwkwk 11 code.toNat) s

/-- CW12.EOS. -/
def execCw12Eos (s : State) : Host.Outcome State Fault Refusal := decSymbol (symEos 12) s

/-- CW12.RSTMARK. -/
def execCw12Rstmark (s : State) : Host.Outcome State Fault Refusal := decSymbol (symRstmark 12) s

/-- CW12.LIT. -/
def execCw12Lit (byte : BitVec 8) (s : State) : Host.Outcome State Fault Refusal := decSymbol (symLit 12 byte) s

/-- CW12.REF. -/
def execCw12Ref (code : BitVec 12) (s : State) : Host.Outcome State Fault Refusal := decSymbol (symRef 12 code.toNat) s

/-- CW12.KWKWK. -/
def execCw12Kwkwk (code : BitVec 12) (s : State) : Host.Outcome State Fault Refusal := decSymbol (symKwkwk 12 code.toNat) s

/-- CW13.EOS. -/
def execCw13Eos (s : State) : Host.Outcome State Fault Refusal := decSymbol (symEos 13) s

/-- CW13.RSTMARK. -/
def execCw13Rstmark (s : State) : Host.Outcome State Fault Refusal := decSymbol (symRstmark 13) s

/-- CW13.LIT. -/
def execCw13Lit (byte : BitVec 8) (s : State) : Host.Outcome State Fault Refusal := decSymbol (symLit 13 byte) s

/-- CW13.REF. -/
def execCw13Ref (code : BitVec 13) (s : State) : Host.Outcome State Fault Refusal := decSymbol (symRef 13 code.toNat) s

/-- CW13.KWKWK. -/
def execCw13Kwkwk (code : BitVec 13) (s : State) : Host.Outcome State Fault Refusal := decSymbol (symKwkwk 13 code.toNat) s

/-- CW14.EOS. -/
def execCw14Eos (s : State) : Host.Outcome State Fault Refusal := decSymbol (symEos 14) s

/-- CW14.RSTMARK. -/
def execCw14Rstmark (s : State) : Host.Outcome State Fault Refusal := decSymbol (symRstmark 14) s

/-- CW14.LIT. -/
def execCw14Lit (byte : BitVec 8) (s : State) : Host.Outcome State Fault Refusal := decSymbol (symLit 14 byte) s

/-- CW14.REF. -/
def execCw14Ref (code : BitVec 14) (s : State) : Host.Outcome State Fault Refusal := decSymbol (symRef 14 code.toNat) s

/-- CW14.KWKWK. -/
def execCw14Kwkwk (code : BitVec 14) (s : State) : Host.Outcome State Fault Refusal := decSymbol (symKwkwk 14 code.toNat) s

/-- CW15.EOS. -/
def execCw15Eos (s : State) : Host.Outcome State Fault Refusal := decSymbol (symEos 15) s

/-- CW15.RSTMARK. -/
def execCw15Rstmark (s : State) : Host.Outcome State Fault Refusal := decSymbol (symRstmark 15) s

/-- CW15.LIT. -/
def execCw15Lit (byte : BitVec 8) (s : State) : Host.Outcome State Fault Refusal := decSymbol (symLit 15 byte) s

/-- CW15.REF. -/
def execCw15Ref (code : BitVec 15) (s : State) : Host.Outcome State Fault Refusal := decSymbol (symRef 15 code.toNat) s

/-- CW15.KWKWK. -/
def execCw15Kwkwk (code : BitVec 15) (s : State) : Host.Outcome State Fault Refusal := decSymbol (symKwkwk 15 code.toNat) s

/-- CW16.EOS. -/
def execCw16Eos (s : State) : Host.Outcome State Fault Refusal := decSymbol (symEos 16) s

/-- CW16.RSTMARK. -/
def execCw16Rstmark (s : State) : Host.Outcome State Fault Refusal := decSymbol (symRstmark 16) s

/-- CW16.LIT. -/
def execCw16Lit (byte : BitVec 8) (s : State) : Host.Outcome State Fault Refusal := decSymbol (symLit 16 byte) s

/-- CW16.REF. -/
def execCw16Ref (code : BitVec 16) (s : State) : Host.Outcome State Fault Refusal := decSymbol (symRef 16 code.toNat) s

/-- CW16.KWKWK. -/
def execCw16Kwkwk (code : BitVec 16) (s : State) : Host.Outcome State Fault Refusal := decSymbol (symKwkwk 16 code.toNat) s

/-! ### The marker slot (R174, R217) -/

/-- MK16.EOS. -/
def execMk16Eos (s : State) : Host.Outcome State Fault Refusal := decSymbol symMarkerEos s

/-- MK16.RSTMARK: the value is not compared with anything (R83, R174); 256 is none of the row's (log 29). -/
def execMk16Rstmark (_value : BitVec 16) (s : State) : Host.Outcome State Fault Refusal := decSymbol symMarker s

/-! ### The symbol that DEC has met -/

/-- Run the stream symbol that the decoder has decoded: the same meanings as `exec`'s arms (log 1). -/
def runSymbol (i : Instr) (s : State) : Host.Outcome State Fault Refusal :=
  match i with
  | .hdrNone => execHdrNone s
  | .hdrReset => execHdrReset s
  | .hdrMonitor => execHdrMonitor s
  | .hdrIllegal => execHdrIllegal s
  | .cw9Eos => execCw9Eos s
  | .cw9Rstmark => execCw9Rstmark s
  | .cw9Lit byte => execCw9Lit byte s
  | .cw9Ref code => execCw9Ref code s
  | .cw9Kwkwk code => execCw9Kwkwk code s
  | .cw10Eos => execCw10Eos s
  | .cw10Rstmark => execCw10Rstmark s
  | .cw10Lit byte => execCw10Lit byte s
  | .cw10Ref code => execCw10Ref code s
  | .cw10Kwkwk code => execCw10Kwkwk code s
  | .cw11Eos => execCw11Eos s
  | .cw11Rstmark => execCw11Rstmark s
  | .cw11Lit byte => execCw11Lit byte s
  | .cw11Ref code => execCw11Ref code s
  | .cw11Kwkwk code => execCw11Kwkwk code s
  | .cw12Eos => execCw12Eos s
  | .cw12Rstmark => execCw12Rstmark s
  | .cw12Lit byte => execCw12Lit byte s
  | .cw12Ref code => execCw12Ref code s
  | .cw12Kwkwk code => execCw12Kwkwk code s
  | .cw13Eos => execCw13Eos s
  | .cw13Rstmark => execCw13Rstmark s
  | .cw13Lit byte => execCw13Lit byte s
  | .cw13Ref code => execCw13Ref code s
  | .cw13Kwkwk code => execCw13Kwkwk code s
  | .cw14Eos => execCw14Eos s
  | .cw14Rstmark => execCw14Rstmark s
  | .cw14Lit byte => execCw14Lit byte s
  | .cw14Ref code => execCw14Ref code s
  | .cw14Kwkwk code => execCw14Kwkwk code s
  | .cw15Eos => execCw15Eos s
  | .cw15Rstmark => execCw15Rstmark s
  | .cw15Lit byte => execCw15Lit byte s
  | .cw15Ref code => execCw15Ref code s
  | .cw15Kwkwk code => execCw15Kwkwk code s
  | .cw16Eos => execCw16Eos s
  | .cw16Rstmark => execCw16Rstmark s
  | .cw16Lit byte => execCw16Lit byte s
  | .cw16Ref code => execCw16Ref code s
  | .cw16Kwkwk code => execCw16Kwkwk code s
  | .mk16Eos => execMk16Eos s
  | .mk16Rstmark value => execMk16Rstmark value s
  | .encStart _ | .encStep | .encRun | .decStart | .decStep | .decRun => .fault .notASymbol
  | .bcWinit | .bcWrite _ _ | .bcFlush | .bcRinit | .bcRead _ | .bcIsempty => .fault .notASymbol
  | .opsel3Unassigned | .opsel7Unassigned | .opselEUnassigned | .opselFUnassigned => .fault .notASymbol

end Sys2Proof.Machine
end

