-- ==== Sys2Proof/Machine/Decoder.lean ====
section
/-! DEFINITION. Decoder.lean: the adaptive decoder: what DEC.START and DEC.STEP do before they meet a symbol, the symbol's fetch, and
DEC.RUN (45_decoder.md R205 to R220). -/

namespace Sys2Proof.Machine

/-- Fetch the symbol of a slot at the front of UP.REM and run it; too few bits raise EndOfStream (R37, R86, R118). -/
def meetSymbol (slot : Slot) (s : State) : Host.Outcome State Fault Refusal :=
  match decode slot s.dec.rem with
  | .ok r => runSymbol r.1 s
  | .error .tooShort => .next (s.withDec (s.dec.raise .endOfStream))
  | .error .noFormat => .fault .noFormat

/-- `DEC.START()` up to the header: the stream and the sink readied, the counters cleared (R206). -/
def decReady (d : Dec) : Dec :=
  let d := bcRinit d
  { d.withRegs d.regs.clearCounts with snk := [] }

/-- `DEC.START()`: then the header symbol is met (R206). -/
def decStart (s : State) : Host.Outcome State Fault Refusal :=
  if s.dec.regs.st = .idle then meetSymbol .header (s.withDec (decReady s.dec))
  else .next (s.withDec (s.dec.raise .protocolError))

/-- The head of DEC.STEP: `pending <- 0`, and, when a data codeword came before, `ADVANCE` with `pending <- 1` on its answer Register
(R210, R211). -/
def decHead (d : Dec) : Action × Dec :=
  if d.prevValid then
    match advance d.regs with
    | (.register, r) => (.register, { d.withRegs r with pending := true })
    | (a, r) => (a, { d.withRegs r with pending := false })
  else (.keepFrozen, { d with pending := false })

/-- The codeword of DEC.STEP: a symbol of `W` bits (R210). -/
def decData (s : State) : Host.Outcome State Fault Refusal :=
  meetSymbol (.data s.dec.regs.w.toNat s.dec.regs.next.toNat) s

/-- `DEC.STEP()`: the head, on the answer DoReset the marker slot, and then, unless that ended the stream, the codeword (R210, R217). -/
def decStep (s : State) : Host.Outcome State Fault Refusal :=
  if s.dec.regs.st = .active then
    match decHead s.dec with
    | (.doReset, d) =>
      match meetSymbol .marker (s.withDec d) with
      | .next s => if s.dec.regs.st = .active then decData s else .next s
      | other => other
    | (_, d) => decData (s.withDec d)
  else .next (s.withDec (s.dec.raise .protocolError))

/-- `while ST = ACTIVE: DEC.STEP()`, at most `n` times (R220). -/
def decLoop : Nat → State → Host.Outcome State Fault Refusal
  | 0, s => .next s
  | n + 1, s =>
    if s.dec.regs.st = .active then
      match decStep s with
      | .next s => decLoop n s
      | other => other
    else .next s

/-- `DEC.RUN()`: each step takes at least one bit of those left, and one more step may find too few (R220, R275; log 19). -/
def decRun (s : State) : Host.Outcome State Fault Refusal :=
  if s.dec.regs.st = .active then decLoop (s.dec.rem.length + 1) s
  else .next (s.withDec (s.dec.raise .protocolError))

/-- DEC.START (R206). -/
def execDecStart (s : State) : Host.Outcome State Fault Refusal := command .dec decStart s

/-- DEC.STEP (R210). -/
def execDecStep (s : State) : Host.Outcome State Fault Refusal := command .dec decStep s

/-- DEC.RUN (R220). -/
def execDecRun (s : State) : Host.Outcome State Fault Refusal := command .dec decRun s

end Sys2Proof.Machine
end

