-- ==== Sys2Proof/Machine/Encoder.lean ====
section
/-! DEFINITION. Encoder.lean: the adaptive encoder (44_encoder.md R185 to R197). -/

namespace Sys2Proof.Machine

/-- `ENC.START(mode)` after its state test; the mode 3 is tested before anything is written (R186, D15). -/
def encStart (mode : BitVec 2) (e : Enc) : Run Enc Unit :=
  match Mode.ofBits mode with
  | none => .raised (e.raise .invalidMode)
  | some m =>
    let e := bcWinit (e.withRegs { e.regs.clearCounts with mode := m })
    (bcWrite mode.toNat 2 e).bind fun _ e =>
    (e.countC 2).bind fun _ e =>
    .ok () ((pdSeed e).withRegs { e.regs.restart with st := .active })

/-- The first line of `ENC.FINISH()`: W becomes the width the next data codeword would have had (R195, D6). -/
def encEosWidth (e : Enc) : Enc :=
  if e.regs.next.toNat = 2 ^ e.regs.w.toNat ∧ e.regs.w.toNat < Config.wMax then
    e.withRegs { e.regs with w := e.regs.w + 1 }
  else e

/-- `ENC.FINISH()`: EOS at that width, then the flush (R195). -/
def encFinish (e : Enc) : Run Enc Unit :=
  let e := encEosWidth e
  (bcWrite Config.codeEos e.regs.w.toNat e).bind fun _ e =>
  (e.countC e.regs.w.toNat).bind fun _ e =>
  let e := bcFlush e
  .ok () (e.withRegs { e.regs with st := .done })

/-- The three-way branch of ENC.STEP when a byte `b` follows the match that ended at node `c` (R190). -/
def encAdvance (c : Code) (b : Byte) (e : Enc) : Run Enc Unit :=
  match advance e.regs with
  | (.register, r) => .ok () ((pdInsert c b r.next e).withRegs { r with next := r.next + 1 })
  | (.keepFrozen, r) => .ok () (e.withRegs r)
  | (.doReset, r) => doResetEnc (e.withRegs r)

/-- `BC.WRITE(c, W) ; COUNT_C(W) ; COUNT_U(l)`: a data codeword for the `l` bytes that node `c` stands for (R190). -/
def encEmit (c : Code) (l : Nat) (e : Enc) : Run Enc Unit :=
  (bcWrite c.toNat e.regs.w.toNat e).bind fun _ e =>
  (e.countC e.regs.w.toNat).bind fun _ e =>
  e.countU l

/-- `ENC.STEP()` after its state test, with input left (R190). -/
def encSymbol (e : Enc) : Run Enc Unit :=
  (pdLpm e).bind fun m e =>
  (encEmit m.1 m.2 e).bind fun _ e =>
  (match srcPeek e m.2 with
    | some b => encAdvance m.1 b e
    | none => .ok () e).bind fun _ e =>
  .ok () (srcTake m.2 e)

/-- `ENC.STEP()` (R190). -/
def encStep (e : Enc) : Run Enc Unit :=
  Enc.require .active (fun e => if e.src = [] then encFinish e else encSymbol e) e

/-- `while ST = ACTIVE: ENC.STEP()`, at most `n` times (R197). -/
def encLoop : Nat → Enc → Run Enc Unit
  | 0, e => .ok () e
  | n + 1, e => if e.regs.st = .active then (encStep e).bind fun _ e => encLoop n e else .ok () e

/-- `ENC.RUN()` after its state test: a run takes at most one step for each byte left, and one (R197, R275; log 19). -/
def encRun (e : Enc) : Run Enc Unit := encLoop (e.src.length + 1) e

/-- ENC.START (R186). -/
def execEncStart (mode : BitVec 2) (s : State) : Host.Outcome State Fault Refusal :=
  encCommand (Enc.require .idle (encStart mode)) s

/-- ENC.STEP (R190). -/
def execEncStep (s : State) : Host.Outcome State Fault Refusal := encCommand encStep s

/-- ENC.RUN (R197). -/
def execEncRun (s : State) : Host.Outcome State Fault Refusal := encCommand (Enc.require .active encRun) s

end Sys2Proof.Machine
end

