-- ==== Sys2Proof/Machine/Port.lean ====
section
/-! DEFINITION. Port.lean: the OPSEL values without an operation (60_exceptions.md R238), and what the host does to a unit besides
commands (70_reset_and_hazards.md R255, R257, R258). -/

namespace Sys2Proof.Machine

/-- An unassigned OPSEL: ProtocolError in the unit that got it, in any state but FAULT (R238). -/
def unassigned (s : State) : Host.Outcome State Fault Refusal := .next s.clearRsp.protocolError

/-- OPSEL_3.UNASSIGNED. -/
def execOpsel3Unassigned (s : State) : Host.Outcome State Fault Refusal := unassigned s

/-- OPSEL_7.UNASSIGNED. -/
def execOpsel7Unassigned (s : State) : Host.Outcome State Fault Refusal := unassigned s

/-- OPSEL_E.UNASSIGNED. -/
def execOpselEUnassigned (s : State) : Host.Outcome State Fault Refusal := unassigned s

/-- OPSEL_F.UNASSIGNED. -/
def execOpselFUnassigned (s : State) : Host.Outcome State Fault Refusal := unassigned s

/-- The host puts a command word on a unit's port: the action leaves the list, the unit is the target (R100; log 8). -/
def State.accept (s : State) (u : UnitId) (rest : List HostAct) : State := { s with port := rest, target := u }

/-- Hardware reset of a unit (R255). -/
def hostReset (u : UnitId) (s : State) : Host.Outcome State Fault Refusal :=
  match u with
  | .enc => .next (s.withEnc s.enc.hwReset)
  | .dec => .next (s.withDec s.dec.hwReset)

/-- The host gives a unit its byte source, between streams (R257, R258); during a run it is outside the model (I16, log 9).  DESIGN
CHOICE (log 28): on a DEC that is not ACTIVE the bits that BC.RINIT has loaded into UP.REM stay as they are; R36 counts them to the
source and R263 says that such a change breaks their positions. -/
def hostSetSource (u : UnitId) (bytes : List Byte) (s : State) : Host.Outcome State Fault Refusal :=
  match u with
  | .enc =>
    if s.enc.regs.st = .active then .fault .hostTouchedSource else .next (s.withEnc { s.enc with src := bytes })
  | .dec =>
    if s.dec.regs.st = .active then .fault .hostTouchedSource else .next (s.withDec { s.dec with src := bytes })

/-! ### Placing an instruction where the next step meets it (log 15) -/

/-- The stream bits padded with zeros to whole bytes. -/
def bitsToBytes : Nat → List Bool → List Byte
  | 0, _ => []
  | n + 1, bits => byteOfBits (bits.take 8 ++ List.replicate (8 - (bits.take 8).length) false) :: bitsToBytes n (bits.drop 8)

/-- A decoder in IDLE whose source begins with a header: DEC.START, the next command, reads it. -/
def Dec.beforeHeader (v : Nat) (d : Dec) : Dec :=
  { d with
    regs := { d.regs with st := .idle, faultCode := 0 }
    src := bitsToBytes 1 (natBits 2 v) }

/-- A decoder in a stream that has registered "AB" as 258, with "B" decoded last, whose next `w` bits are `v`: DEC.STEP, the next
command, reads them. -/
def Dec.beforeCodeword (w v : Nat) (d : Dec) : Dec :=
  { d with
    regs := { d.regs with st := .active, faultCode := 0, w := BitVec.ofNat 5 w, next := BitVec.ofNat 17 tableNext }
    tbl := [(258, ⟨65, [66]⟩)]
    prev := ⟨66, []⟩
    prevValid := true
    pending := false
    rem := natBits w v
    src := bitsToBytes ((w + 7) / 8) (natBits w v) }

/-- The unit an OPSEL value belongs to; an unassigned one is given to ENC (R100). -/
def opselUnit (cmd : BitVec 44) : UnitId :=
  match (cmdOpsel cmd).toNat with
  | 0x4 | 0x5 | 0x6 | 0xB | 0xC | 0xD => .dec
  | _ => .enc

/-- The machine with a table word where its next step meets it (log 15). -/
def State.place (s : State) (nbits w : Nat) : State :=
  match tableSlot nbits with
  | some .header => { s with dec := s.dec.beforeHeader w, port := [.command .dec (encodeCommand .decStart)] }
  | some (.data width _) => { s with dec := s.dec.beforeCodeword width w, port := [.command .dec (encodeCommand .decStep)] }
  | some .command =>
    let cmd := BitVec.ofNat 44 w
    { s with port := [.command (opselUnit cmd) cmd] }
  | _ => s

end Sys2Proof.Machine
end

