-- ==== Sys2Proof/Machine/Dispatch.lean ====
section
/-! DEFINITION. Dispatch.lean: one arm per instruction, each one direct call of its meaning. -/

namespace Sys2Proof.Machine

/-- The meaning of an instruction in a state. -/
def exec (i : Instr) (s : State) : Host.Outcome State Fault Refusal :=
  match i with
  | .hdrNone => Sys2Proof.Machine.execHdrNone s
  | .hdrReset => Sys2Proof.Machine.execHdrReset s
  | .hdrMonitor => Sys2Proof.Machine.execHdrMonitor s
  | .hdrIllegal => Sys2Proof.Machine.execHdrIllegal s
  | .cw9Eos => Sys2Proof.Machine.execCw9Eos s
  | .cw9Rstmark => Sys2Proof.Machine.execCw9Rstmark s
  | .cw9Lit byte => Sys2Proof.Machine.execCw9Lit byte s
  | .cw9Ref code => Sys2Proof.Machine.execCw9Ref code s
  | .cw9Kwkwk code => Sys2Proof.Machine.execCw9Kwkwk code s
  | .cw10Eos => Sys2Proof.Machine.execCw10Eos s
  | .cw10Rstmark => Sys2Proof.Machine.execCw10Rstmark s
  | .cw10Lit byte => Sys2Proof.Machine.execCw10Lit byte s
  | .cw10Ref code => Sys2Proof.Machine.execCw10Ref code s
  | .cw10Kwkwk code => Sys2Proof.Machine.execCw10Kwkwk code s
  | .cw11Eos => Sys2Proof.Machine.execCw11Eos s
  | .cw11Rstmark => Sys2Proof.Machine.execCw11Rstmark s
  | .cw11Lit byte => Sys2Proof.Machine.execCw11Lit byte s
  | .cw11Ref code => Sys2Proof.Machine.execCw11Ref code s
  | .cw11Kwkwk code => Sys2Proof.Machine.execCw11Kwkwk code s
  | .cw12Eos => Sys2Proof.Machine.execCw12Eos s
  | .cw12Rstmark => Sys2Proof.Machine.execCw12Rstmark s
  | .cw12Lit byte => Sys2Proof.Machine.execCw12Lit byte s
  | .cw12Ref code => Sys2Proof.Machine.execCw12Ref code s
  | .cw12Kwkwk code => Sys2Proof.Machine.execCw12Kwkwk code s
  | .cw13Eos => Sys2Proof.Machine.execCw13Eos s
  | .cw13Rstmark => Sys2Proof.Machine.execCw13Rstmark s
  | .cw13Lit byte => Sys2Proof.Machine.execCw13Lit byte s
  | .cw13Ref code => Sys2Proof.Machine.execCw13Ref code s
  | .cw13Kwkwk code => Sys2Proof.Machine.execCw13Kwkwk code s
  | .cw14Eos => Sys2Proof.Machine.execCw14Eos s
  | .cw14Rstmark => Sys2Proof.Machine.execCw14Rstmark s
  | .cw14Lit byte => Sys2Proof.Machine.execCw14Lit byte s
  | .cw14Ref code => Sys2Proof.Machine.execCw14Ref code s
  | .cw14Kwkwk code => Sys2Proof.Machine.execCw14Kwkwk code s
  | .cw15Eos => Sys2Proof.Machine.execCw15Eos s
  | .cw15Rstmark => Sys2Proof.Machine.execCw15Rstmark s
  | .cw15Lit byte => Sys2Proof.Machine.execCw15Lit byte s
  | .cw15Ref code => Sys2Proof.Machine.execCw15Ref code s
  | .cw15Kwkwk code => Sys2Proof.Machine.execCw15Kwkwk code s
  | .cw16Eos => Sys2Proof.Machine.execCw16Eos s
  | .cw16Rstmark => Sys2Proof.Machine.execCw16Rstmark s
  | .cw16Lit byte => Sys2Proof.Machine.execCw16Lit byte s
  | .cw16Ref code => Sys2Proof.Machine.execCw16Ref code s
  | .cw16Kwkwk code => Sys2Proof.Machine.execCw16Kwkwk code s
  | .mk16Eos => Sys2Proof.Machine.execMk16Eos s
  | .mk16Rstmark value => Sys2Proof.Machine.execMk16Rstmark value s
  | .encStart mode => Sys2Proof.Machine.execEncStart mode s
  | .encStep => Sys2Proof.Machine.execEncStep s
  | .encRun => Sys2Proof.Machine.execEncRun s
  | .decStart => Sys2Proof.Machine.execDecStart s
  | .decStep => Sys2Proof.Machine.execDecStep s
  | .decRun => Sys2Proof.Machine.execDecRun s
  | .bcWinit => Sys2Proof.Machine.execBcWinit s
  | .bcWrite value width => Sys2Proof.Machine.execBcWrite value width s
  | .bcFlush => Sys2Proof.Machine.execBcFlush s
  | .bcRinit => Sys2Proof.Machine.execBcRinit s
  | .bcRead width => Sys2Proof.Machine.execBcRead width s
  | .bcIsempty => Sys2Proof.Machine.execBcIsempty s
  | .opsel3Unassigned => Sys2Proof.Machine.execOpsel3Unassigned s
  | .opsel7Unassigned => Sys2Proof.Machine.execOpsel7Unassigned s
  | .opselEUnassigned => Sys2Proof.Machine.execOpselEUnassigned s
  | .opselFUnassigned => Sys2Proof.Machine.execOpselFUnassigned s

end Sys2Proof.Machine
end

