-- ==== Sys2Proof/Machine/Step.lean ====
section
/-! DEFINITION. Step.lean: one step of the machine: the host's next action (00_scope.md R11; 30_encoding.md R100). -/

namespace Sys2Proof.Machine

/-- One step: the oldest pending action of the host.  A command word is decoded and executed by the unit it is sent to; with nothing
pending "a unit that is not issued a command does nothing and keeps its state" (R249). -/
def step (s : State) : Host.Outcome State Fault Refusal :=
  match s.port with
  | [] => .next s
  | .command u cmd :: rest => exec (decodeCommand cmd) (s.accept u rest)
  | .hwReset u :: rest => hostReset u { s with port := rest }
  | .setSource u bytes :: rest => hostSetSource u bytes { s with port := rest }

/-- The machine with a table word placed where its next step meets it (log 15). -/
def State.withFetchWord (s : State) (nbits w : Nat) : State := s.place nbits w

end Sys2Proof.Machine
end

