-- ==== Sys2Proof/Machine/Pseudocode.lean ====
section
/-! DEFINITION. Pseudocode.lean: DEC.STEP and DO_RESET_DEC once more, line by line as R210 and R174 write them, on values and not on
decoded symbols.  `exec` does not use them; an obligation says that the two forms agree. -/

namespace Sys2Proof.Machine

/-- `DO_RESET_DEC()`; the answer is true for `Continue`, false for `Stop` (R174). -/
def doResetDec (d : Dec) : Run Dec Bool :=
  (bcRead d.regs.w.toNat d).bind fun m d =>
  (d.countC 16).bind fun _ d =>
  if m = Config.codeEos then .ok false { d.withRegs { d.regs with st := .done } with pending := false }
  else .ok true { restartDec d with pending := false }

/-- The lines of DEC.STEP from `x <- BC.READ(W)` on (R210). -/
def decStepRead (d : Dec) : Run Dec Unit :=
  (bcRead d.regs.w.toNat d).bind fun x d =>
  (d.countC d.regs.w.toNat).bind fun _ d =>
  if x = Config.codeEos then .ok () { d.withRegs { d.regs with st := .done } with pending := false }
  else (ctResolve x d).bind fun s d => symTail s d

/-- `DEC.STEP()` as R210 writes it. -/
def decStepLines (d : Dec) : Run Dec Unit :=
  Dec.require .active (fun d =>
    match decHead d with
    | (.doReset, d) => (doResetDec d).bind fun go d => if go then decStepRead d else .ok () d
    | (_, d) => decStepRead d) d

end Sys2Proof.Machine
end

