-- ==== Sys2Proof/Machine/Serial.lean ====
section
/-! DEFINITION. Serial.lean: the byte-serial form of the encoder, "an equivalent way to build the same unit" (44_encoder.md R198;
41_prefix_dictionary.md R138).  It has no command code; its registers CUR and LEN stand beside an ENC unit (log 20). -/

namespace Sys2Proof.Machine

/-- An encoder unit that is handed its input byte by byte: `CUR`, a node or none, and `LEN`, the length of its phrase (R198). -/
structure SerialEnc where
  enc : Enc
  cur : Option Code
  len : Nat
  deriving DecidableEq, Repr

/-- The byte-serial unit right after `ENC.START`: `CUR = none` (R198).  DESIGN CHOICE (log 27): `LEN = 0` there, of which R198 says
nothing; the first byte writes LEN before anything reads it. -/
def SerialEnc.start (e : Enc) : SerialEnc := ⟨e, none, 0⟩

/-- Replace the encoder unit of a byte-serial one. -/
def SerialEnc.withEnc (x : SerialEnc) (e : Enc) : SerialEnc := { x with enc := e }

/-- `ENC.BYTE(b)` (R198); a fault of the codeword or of ADVANCE's arm leaves CUR and LEN as they were (R240). -/
def serialByte (b : Byte) (x : SerialEnc) : Run SerialEnc Unit :=
  match x.cur with
  | none => .ok () { x with cur := some (seedCode b), len := 1 }
  | some c =>
    match pdChild x.enc.trie c b with
    | some n => .ok () { x with cur := some n, len := x.len + 1 }
    | none =>
      (((encEmit c x.len x.enc).bind fun _ e => encAdvance c b e).lift x.withEnc).bind fun _ x =>
      .ok () { x with cur := some (seedCode b), len := 1 }

/-- `ENC.END()` (R198). -/
def serialEnd (x : SerialEnc) : Run SerialEnc Unit :=
  ((match x.cur with
    | some c => encEmit c x.len x.enc
    | none => .ok () x.enc).bind fun _ e => encFinish e).lift x.withEnc

/-- The bytes of an input, one after another (R198). -/
def serialFeed : List Byte → SerialEnc → Run SerialEnc Unit
  | [], x => .ok () x
  | b :: bs, x => (serialByte b x).bind fun _ x => serialFeed bs x

/-- The state at which an operation on a unit ends, the one at a `raise` included (R240). -/
def Run.final {σ α : Type} (r : Run σ α) : Option σ :=
  match r with
  | .ok _ s => some s
  | .raised s => some s
  | .stuck _ => none

end Sys2Proof.Machine
end

