-- ==== Sys2Proof/Safety.lean ====
section
/-! DEFINITION. Safety.lean: the invariants of the machine (10_state.md R40), the parity of its units (R41), and the notions the claims
are stated in. -/

namespace Sys2Proof

/-! ### The host's actions and the commands -/

/-- The unit a host action is addressed to (R20, R100, R255, R257, R258). -/
def Machine.HostAct.unit : Machine.HostAct → Machine.UnitId
  | .command u _ => u
  | .hwReset u => u
  | .setSource u _ => u


/-- The commands of ENC (R100). -/
def Instr.isEncCommand : Instr → Bool
  | .encStart _ => true
  | .encStep => true
  | .encRun => true
  | .bcWinit => true
  | .bcWrite _ _ => true
  | .bcFlush => true
  | _ => false

/-- The commands of DEC (R100). -/
def Instr.isDecCommand : Instr → Bool
  | .decStart => true
  | .decStep => true
  | .decRun => true
  | .bcRinit => true
  | .bcRead _ => true
  | .bcIsempty => true
  | _ => false

/-- The state in which a command is legal (R238). -/
def Instr.legalIn : Instr → Machine.UnitState
  | .encStep => .active
  | .encRun => .active
  | .decStep => .active
  | .decRun => .active
  | _ => .idle

end Sys2Proof

namespace Sys2Proof.Machine

/-! ### Phrases of the dictionary -/

/-- The node reached from node `c` along bytes (R31, R134). -/
def trieWalk (t : Cells Code) : Code → List Byte → Option Code
  | c, [] => some c
  | c, b :: bs =>
    match pdChild t c b with
    | some n => trieWalk t n bs
    | none => none

/-- The code the dictionary gives a phrase, if it holds the phrase: `{ phrase(n) -> n }` (R31, R131). -/
def dictCode (t : Cells Code) (p : Phrase) : Option Code := trieWalk t (seedCode p.first) p.rest

/-! ### Invariants -/

/-- `FAULT_CODE` is zero exactly when ST is not FAULT, and never above 8 (R29, R230). -/
abbrev Regs.FaultInv (r : Regs) : Prop := (r.faultCode = 0 ↔ r.st ≠ .fault) ∧ r.faultCode.toNat ≤ 8

/-- The registers of a started unit (R40). -/
abbrev Regs.ActiveInv (r : Regs) : Prop :=
  9 ≤ r.w.toNat ∧ r.w.toNat ≤ 16 ∧ 258 ≤ r.next.toNat ∧ r.next.toNat ≤ 2 ^ r.w.toNat ∧ 2 ≤ r.c.toNat ∧
    (r.latched = true → r.mode = .monitor ∧ 0 < r.u0.toNat ∧ 0 < r.c0.toNat)

/-- The registered codes are exactly 258 to NEXT - 1, each the child of one cell, and every node's parent is a seed or was
registered before it (R40, R61).  Each code stands in one cell, so no phrase has two codes and the prefixes of a phrase are phrases. -/
abbrev TrieInv (t : Cells Code) (next : Nat) : Prop :=
  (∀ e ∈ t, (e.1 / 256 < 256 ∨ 258 ≤ e.1 / 256) ∧ e.1 / 256 < e.2.toNat ∧ 258 ≤ e.2.toNat ∧ e.2.toNat < next) ∧
    (t.map Prod.snd).Nodup ∧ t.length + 258 = next

/-- The invariant of ENC (R40); `C` is the number of bits written since START (R171). -/
abbrev Enc.Inv (e : Enc) : Prop :=
  e.acc.length < 8 ∧ Cells.Wf trieDefault e.trie ∧ e.regs.FaultInv ∧
    (e.regs.st = .active →
      e.regs.ActiveInv ∧ TrieInv e.trie e.regs.next.toNat ∧ e.regs.c.toNat = 8 * e.snk.length + e.acc.length)

/-- A phrase the table knows below code `n`: a seed, or the content of a registered slot (R40). -/
def Known (t : Cells Phrase) (n : Nat) (p : Phrase) : Prop :=
  p.rest = [] ∨ ∃ j, 258 ≤ j ∧ j < n ∧ tblRead t j = some p

/-- The filled slots are exactly 258 to NEXT - 1, and every registered phrase is a known phrase plus one byte (R40, R62). -/
def TblInv (t : Cells Phrase) (next : Nat) : Prop :=
  t.map Prod.fst = List.range' 258 (next - 258) ∧
    ∀ e ∈ t, ∃ p b, e.2 = Phrase.snoc p b ∧ Known t e.1 p

/-- The invariant of DEC (R40); `C` is the stream position and `U` the length of the output (R170, R171).  R40's "no phrase has two
codes" is not here: a stream that no encoder wrote can register a phrase twice (log 23).  It is `NoTwoCodes` below, under the premise
that an encoder made the stream (R70). -/
def Dec.Inv (d : Dec) : Prop :=
  Cells.Wf tblDefault d.tbl ∧ d.regs.FaultInv ∧
    (d.pending = true → d.regs.st = .fault ∨ (d.regs.st = .active ∧ d.prevValid = true ∧ d.regs.next.toNat < 2 ^ d.regs.w.toNat)) ∧
    (d.regs.st = .active →
      d.regs.ActiveInv ∧ TblInv d.tbl d.regs.next.toNat ∧ d.regs.c.toNat + d.rem.length = 8 * d.src.length ∧
        d.regs.u.toNat = 8 * d.snk.length ∧
        (d.prevValid = true → 0 < d.regs.u.toNat ∧ Known d.tbl d.regs.next.toNat d.prev))

/-- The invariant of the machine. -/
def State.Inv (s : State) : Prop := s.enc.Inv ∧ s.dec.Inv

/-! ### The unspecified contents -/

/-- Two encoders that agree on all but a trie that is not in use (R42, R255, I10). -/
def Enc.Agree (a b : Enc) : Prop :=
  { a with trie := [] } = { b with trie := [] } ∧ (a.regs.st = .active → a.trie = b.trie)

/-- Two tables that agree on every slot but the three whose content is open at any time, 256, 257 and 65536 (R146, R148, I10). -/
def TblAgree (t t' : Cells Phrase) : Prop :=
  Cells.Wf tblDefault t ∧ Cells.Wf tblDefault t' ∧
    ∀ i, i ≠ 256 → i ≠ 257 → i ≠ 65536 → tblRead t i = tblRead t' i

/-- Two decoders that agree on all but a table that is not in use, the open slots of one that is, a PREV that is not valid, and the bit
PENDING, which DEC.STEP writes before it reads it (R42, R255, I10). -/
def Dec.Agree (a b : Dec) : Prop :=
  { a with tbl := [], prev := ⟨0, []⟩, pending := false } = { b with tbl := [], prev := ⟨0, []⟩, pending := false } ∧
    (a.regs.st = .active → (a.tbl = b.tbl ∨ TblAgree a.tbl b.tbl) ∧ (a.prevValid = true → a.prev = b.prev))

/-- Two machines that agree on all but contents the spec leaves unspecified. -/
def State.Agree (a b : State) : Prop := a.enc.Agree b.enc ∧ a.dec.Agree b.dec ∧ a.port = b.port ∧ a.target = b.target

/-! ### Parity of the two units at a symbol boundary (R41) -/

/-- "No phrase has two codes" (R40), for the table of DEC below NEXT. -/
def NoTwoCodes (d : Dec) : Prop :=
  ∀ i j p, i < d.regs.next.toNat → j < d.regs.next.toNat → i ≠ 256 → i ≠ 257 → j ≠ 256 → j ≠ 257 →
    tblRead d.tbl i = some p → tblRead d.tbl j = some p → i = j

/-- The trie and the table give the codes 258 to DEC's NEXT - 1 the same phrases (R41). -/
def SamePhrases (e : Enc) (d : Dec) : Prop :=
  ∀ (n : Code) (p : Phrase), 258 ≤ n.toNat → n.toNat < d.regs.next.toNat →
    (dictCode e.trie p = some n ↔ tblRead d.tbl n.toNat = some p)

/-- The units agree on `W`, `MODE`, `U` and `C` (R41). -/
def SameCounts (r q : Regs) : Prop := r.w = q.w ∧ r.mode = q.mode ∧ r.u = q.u ∧ r.c = q.c

/-- The units agree on `U0`, `C0` and `LATCHED` (R41). -/
def SameLatch (r q : Regs) : Prop := r.u0 = q.u0 ∧ r.c0 = q.c0 ∧ r.latched = q.latched

/-- DEC just before it reads a data codeword: after the head of DEC.STEP, and after the marker slot when there is one (R210). -/
def Dec.atCodeword (d : Dec) : Run Dec Unit :=
  match decHead d with
  | (.doReset, d) => symMarker d
  | (_, d) => .ok () d

/-- ENC just before it writes a marker, if its next step writes one: after that step's codeword, its counts and `ADVANCE` (R190). -/
def Enc.atMarker (e : Enc) : Option Enc :=
  match (pdLpm e).bind fun m e => (encEmit m.1 m.2 e).bind fun _ e => .ok m e with
  | .ok m e =>
    match srcPeek e m.2, advance e.regs with
    | some _, (.doReset, r) => some (e.withRegs r)
    | _, _ => none
  | _ => none

/-- R41 before a data codeword, `b` the input's next byte: DEC lacks the one entry whose registration is pending, `PREV ++ [b]`. -/
def ParityAtCodeword (b : Byte) (e : Enc) (d : Dec) : Prop :=
  SameCounts e.regs d.regs ∧ SameLatch e.regs d.regs ∧ SamePhrases e d ∧
    if d.pending then e.regs.next = d.regs.next + 1 ∧ dictCode e.trie (d.prev.snoc b) = some d.regs.next
    else e.regs.next = d.regs.next

/-- R41 before a marker: nothing is pending. -/
def ParityAtMarker (e : Enc) (d : Dec) : Prop :=
  SameCounts e.regs d.regs ∧ SameLatch e.regs d.regs ∧ SamePhrases e d ∧ e.regs.next = d.regs.next ∧ d.pending = false

/-- R41 before EOS, from the states between steps: `W` by ENC.FINISH's first line and by DEC's head.  ENC has not called `ADVANCE`
after its last codeword, so it has not registered what DEC holds pending, and the latch is compared before DEC's head (log 30). -/
def ParityAtEos (e : Enc) (d : Dec) : Prop :=
  SameCounts (encEosWidth e).regs (decHead d).2.regs ∧ SameLatch e.regs d.regs ∧ SamePhrases e d ∧ e.regs.next = d.regs.next

/-! ### What the claims say of a unit -/

/-- The bits an encoder has written since its sink was last emptied: the sink's, then the partial byte's (R113 `S`). -/
def written (e : Enc) : List Bool := bytesToBits e.snk ++ e.acc

/-- A decoder after `BC.READ(w)` and `COUNT_C(w)` (R117, R171). -/
def Dec.taken (w : Nat) (d : Dec) : Dec :=
  { d with rem := d.rem.drop w, regs := { d.regs with c := d.regs.c + BitVec.ofNat 64 w } }

/-- A decoder after the tail of DEC.STEP for a phrase: its bytes in the sink and counted, the pending entry `PREV ++ [s[0]]` in slot
NEXT, PREV the phrase (R150, R170, R210). -/
def Dec.output (s : Phrase) (d : Dec) : Dec :=
  { d with
    snk := d.snk ++ s.toList
    tbl := if d.pending then tblWrite d.tbl d.regs.next.toNat (d.prev.snoc s.first) else d.tbl
    regs := { d.regs with
      u := d.regs.u + BitVec.ofNat 64 (8 * s.length)
      next := if d.pending then d.regs.next + 1 else d.regs.next }
    prev := s
    prevValid := true
    pending := false }

/-- A decoder that ended its stream: `ST <- DONE`, a pending registration dropped (R212). -/
def Dec.ended (d : Dec) : Dec := { d with regs := { d.regs with st := .done }, pending := false }

/-- A decoder in FAULT with a cause, all else kept (R240). -/
def Dec.faulted (f : FaultCause) (d : Dec) : Dec := { d with regs := { d.regs with st := .fault, faultCode := f.code } }

/-- A decoder whose `COUNT_U` for a phrase overflowed: the phrase's bytes are in the sink already, U, PREV, NEXT and the table are kept
(R172, R210, R240). -/
def Dec.overflowed (s : Phrase) (d : Dec) : Dec := { d with snk := d.snk ++ s.toList }.faulted .counterOverflow

/-- An encoder in FAULT with a cause, all else kept (R240). -/
def Enc.faulted (f : FaultCause) (e : Enc) : Enc := { e with regs := { e.regs with st := .fault, faultCode := f.code } }

/-- The answer of a command that returns no value, in ENC (R100). -/
def Enc.answered (e : Enc) : Enc := { e with rsp := none }

/-- The answer of a command that returns no value, in DEC (R100). -/
def Dec.answered (d : Dec) : Dec := { d with rsp := none }

/-- DEC can take a symbol of `w` bits: a stream is started, the bits are there and can be counted (R171, R172, R210, R234). -/
abbrev Dec.Ready (w : Nat) (d : Dec) : Prop :=
  d.regs.st = .active ∧ w ≤ d.rem.length ∧ d.regs.c.toNat + w < 2 ^ 64

/-- A phrase can be counted (R172). -/
abbrev Dec.Countable (s : Phrase) (d : Dec) : Prop := d.regs.u.toNat + 8 * s.length < 2 ^ 64

/-- A list of writes `(v, w)`, one after another (R113). -/
def bcWrites : List (Nat × Nat) → Enc → Run Enc Unit
  | [], e => .ok () e
  | p :: ps, e => (bcWrite p.1 p.2 e).bind fun _ e => bcWrites ps e

/-- Reads of a list of widths, one after another: the values (R119). -/
def bcReads : List Nat → Dec → Run Dec (List Nat)
  | [], d => .ok [] d
  | w :: ws, d => (bcRead w d).bind fun v d => (bcReads ws d).bind fun vs d => .ok (v :: vs) d

/-- The bit string of a list of writes (R113 `bin(v_1, w_1) ++ ... ++ bin(v_n, w_n)`). -/
def writesBits (ps : List (Nat × Nat)) : List Bool := ps.flatMap fun p => natBits p.2 p.1

/-! ### Frames -/

/-- All of DEC, and the registers of ENC that only the codec writes, are as they were: what a bit-channel command of ENC leaves alone. -/
def PackerFrame (s t : State) : Prop :=
  t.dec = s.dec ∧ t.port = s.port ∧ t.target = s.target ∧ t.enc.regs = s.enc.regs ∧ t.enc.trie = s.enc.trie ∧
    t.enc.src = s.enc.src

/-- All of ENC, and what a bit-channel command of DEC leaves alone. -/
def UnpackerFrame (s t : State) : Prop :=
  t.enc = s.enc ∧ t.port = s.port ∧ t.target = s.target ∧ t.dec.regs = s.dec.regs ∧ t.dec.tbl = s.dec.tbl ∧
    t.dec.prev = s.dec.prev ∧ t.dec.prevValid = s.dec.prevValid ∧ t.dec.pending = s.dec.pending ∧ t.dec.src = s.dec.src ∧
    t.dec.snk = s.dec.snk

end Sys2Proof.Machine
end

