-- ==== Sys2Proof/Certificates/Slice0/Obligations.lean ====
section
/-! DEFINITION. Certificates/Slice0/Obligations.lean: the statements for the provers, from the numbered rules of the spec. -/

open Sys2Proof Sys2Proof.Machine

/-! ### Reset, the step, fault entry -/

/-- The values R42 and R255 list for hardware reset, and `STATUS = 0x00204900` (R39; 95 section 10), in the state after reset of both units. -/
def Obligations.ResetStateIsTheSpecs : Prop :=
  State.reset.enc.regs =
      { mode := .none, w := 9, next := 258, u := 0, c := 0, u0 := 0, c0 := 0, latched := false, st := .idle, faultCode := 0 } ∧
    State.reset.dec.regs = State.reset.enc.regs ∧ State.reset.enc.acc = [] ∧ State.reset.enc.pkCnt = 0 ∧
    State.reset.enc.snk = [] ∧ State.reset.dec.prevValid = false ∧ State.reset.dec.rem = [] ∧ State.reset.dec.snk = [] ∧
    State.reset.enc.status = 0x00204900 ∧ State.reset.dec.status = 0x00204900

/-- R255: a hardware reset gives the unit the values R42 lists; that the source and the other unit stay is R20 and log 6 (the model's). -/
def Obligations.HardwareResetRestoresTheUnit : Prop :=
  ∀ (s : State) (rest : List HostAct),
    (s.port = .hwReset .enc :: rest → ∃ t, step s = .next t ∧ t.enc.regs = State.reset.enc.regs ∧ t.enc.acc = [] ∧
      t.enc.snk = [] ∧ t.enc.src = s.enc.src ∧ t.dec = s.dec ∧ t.port = rest) ∧
    (s.port = .hwReset .dec :: rest → ∃ t, step s = .next t ∧ t.dec.regs = State.reset.dec.regs ∧ t.dec.prevValid = false ∧
      t.dec.rem = [] ∧ t.dec.snk = [] ∧ t.dec.src = s.dec.src ∧ t.enc = s.enc ∧ t.port = rest)

/-- R241: FAULT is left only by a hardware reset, and the first fault's code is kept until then (R240). -/
def Obligations.OnlyHardwareResetLeavesFault : Prop :=
  ∀ s t : State, step s = .next t →
    ((∀ rest, s.port ≠ .hwReset .enc :: rest) → s.enc.regs.st = .fault → t.enc.regs = s.enc.regs) ∧
    ((∀ rest, s.port ≠ .hwReset .dec :: rest) → s.dec.regs.st = .fault → t.dec.regs = s.dec.regs)

/-- R238, R255: DONE is left only by a hardware reset or, by a command, into FAULT with ProtocolError. -/
def Obligations.DoneIsLeftOnlyByResetOrFault : Prop :=
  ∀ s t : State, step s = .next t →
    ((∀ rest, s.port ≠ .hwReset .enc :: rest) → s.enc.regs.st = .done →
      t.enc.regs = s.enc.regs ∨ t.enc.regs = { s.enc.regs with st := .fault, faultCode := 8 }) ∧
    ((∀ rest, s.port ≠ .hwReset .dec :: rest) → s.dec.regs.st = .done →
      t.dec.regs = s.dec.regs ∨ t.dec.regs = { s.dec.regs with st := .fault, faultCode := 8 })

/-- R249, R257, R258: with nothing issued a step keeps the state; an action addressed to one unit leaves the other as it was; a new
source is taken by a unit that is not ACTIVE, which changes nothing else of it (for the bits of a loaded UP.REM that is the model's
choice, log 28), and stops the machine on an ACTIVE one (I16, log 9).  The list of pending actions is the model's (log 8). -/
def Obligations.IdlePortKeepsTheState : Prop :=
  ∀ s : State,
    (s.port = [] → step s = .next s) ∧
    (∀ t, step s = .next t → (∀ a rest, s.port = a :: rest → a.unit ≠ .enc) → t.enc = s.enc) ∧
    (∀ t, step s = .next t → (∀ a rest, s.port = a :: rest → a.unit ≠ .dec) → t.dec = s.dec) ∧
    (∀ bytes rest, s.port = .setSource .enc bytes :: rest →
      (s.enc.regs.st ≠ .active → step s = .next { s with port := rest, enc := { s.enc with src := bytes } }) ∧
      (s.enc.regs.st = .active → step s = .fault .hostTouchedSource)) ∧
    (∀ bytes rest, s.port = .setSource .dec bytes :: rest →
      (s.dec.regs.st ≠ .active → step s = .next { s with port := rest, dec := { s.dec with src := bytes } }) ∧
      (s.dec.regs.st = .active → step s = .fault .hostTouchedSource))

/-- R100, R11: the next command word is decoded and its instruction executed by the unit it was sent to, as one step.  The list of
pending host actions and the target are the model's (log 8). -/
def Obligations.StepExecutesTheDecodedCommand : Prop :=
  ∀ (s : State) (u : UnitId) (cmd : BitVec 44) (rest : List HostAct), s.port = .command u cmd :: rest →
    WellFormed (decodeCommand cmd) ∧ step s = exec (decodeCommand cmd) { s with port := rest, target := u }

/-- R37, R86, R206, R210, R217: DEC.START executes the header symbol its first bits decode to; DEC.STEP, after its head, executes the
codeword symbol the next W bits decode to, and on the answer DoReset first the marker symbol and then, unless that ended the stream,
the codeword. -/
def Obligations.DecoderExecutesTheDecodedSymbols : Prop :=
  ∀ s : State, s.target = .dec →
    (∀ i rest, s.dec.regs.st = .idle → decode .header (bytesToBits s.dec.src) = .ok (i, rest) →
      exec .decStart s = exec i (s.withDec
        { s.dec.answered with rem := bytesToBits s.dec.src, snk := [], regs := s.dec.regs.clearCounts })) ∧
    (∀ a d i rest, s.dec.regs.st = .active → decHead s.dec.answered = (a, d) → a ≠ .doReset →
      decode (.data d.regs.w.toNat d.regs.next.toNat) d.rem = .ok (i, rest) → exec .decStep s = exec i (s.withDec d)) ∧
    (∀ d i rest t, s.dec.regs.st = .active → decHead s.dec.answered = (.doReset, d) → decode .marker d.rem = .ok (i, rest) →
      exec i (s.withDec d) = .next t →
      (t.dec.regs.st ≠ .active → exec .decStep s = .next t) ∧
      (∀ j rest', t.dec.regs.st = .active →
        decode (.data t.dec.regs.w.toNat t.dec.regs.next.toNat) t.dec.rem = .ok (j, rest') → exec .decStep s = exec j t))

/-- R240, R230: fault entry writes ST and FAULT_CODE alone, and nothing when the unit is in FAULT already; the codes are R230's. -/
def Obligations.FaultEntryKeepsTheFirstFault : Prop :=
  (∀ (f : FaultCause) (r : Regs), r.st ≠ .fault → r.raise f = { r with st := .fault, faultCode := f.code }) ∧
    (∀ (f : FaultCause) (r : Regs), r.st = .fault → r.raise f = r) ∧
    FaultCause.code .invalidWidth = 1 ∧ FaultCause.code .valueOutOfRange = 2 ∧ FaultCause.code .endOfStream = 3 ∧
    FaultCause.code .sourceUnavailable = 4 ∧ FaultCause.code .invalidMode = 5 ∧ FaultCause.code .invalidCodeword = 6 ∧
    FaultCause.code .counterOverflow = 7 ∧ FaultCause.code .protocolError = 8

/-- R39, R22, R28: the fields of STATUS, bit 3 of ENC's, and the encodings of ST and MODE. -/
def Obligations.StatusWordFields : Prop :=
  (∀ (r : Regs) (v : Bool),
    (statusWord r v).extractLsb' 0 2 = r.st.bits ∧ (statusWord r v).extractLsb' 2 1 = BitVec.ofBool r.latched ∧
    (statusWord r v).extractLsb' 3 1 = BitVec.ofBool v ∧ (statusWord r v).extractLsb' 4 4 = r.faultCode ∧
    (statusWord r v).extractLsb' 8 5 = r.w ∧ (statusWord r v).extractLsb' 13 17 = r.next ∧
    (statusWord r v).extractLsb' 30 2 = r.mode.bits) ∧
  (∀ e : Enc, e.status = statusWord e.regs false) ∧ (∀ d : Dec, d.status = statusWord d.regs d.prevValid) ∧
  UnitState.bits .idle = 0 ∧ UnitState.bits .active = 1 ∧ UnitState.bits .done = 2 ∧ UnitState.bits .fault = 3 ∧
  Mode.bits .none = 0 ∧ Mode.bits .reset = 1 ∧ Mode.bits .monitor = 2

/-! ### Encodings -/

/-- R81, R82, R83, R100: words written out from the spec's encodings, one or more of each format. -/
def Obligations.SampleWordsDecode : Prop :=
  decode .header [false, true] = .ok (.hdrReset, []) ∧
    decode (.data 9 258) [false, false, true, false, false, false, false, false, true] = .ok (.cw9Lit 65, []) ∧
    decode (.data 9 259) [true, false, false, false, false, false, false, true, false] = .ok (.cw9Ref 258, []) ∧
    decode (.data 9 258) [true, false, false, false, false, false, false, true, false] = .ok (.cw9Kwkwk 258, []) ∧
    decode (.data 10 513) [false, true, false, false, false, false, false, false, false, false] = .ok (.cw10Eos, []) ∧
    decode (.data 10 513) [false, true, false, false, false, false, false, false, false, true] = .ok (.cw10Rstmark, []) ∧
    decode .marker [false, false, false, false, false, false, false, true, false, false, false, false, false, false, false, true] =
      .ok (.mk16Rstmark 257, []) ∧
    decodeCommand 0x00200000000 = .encStart 2 ∧ decodeCommand 0x924000001FF = .bcWrite 0x1FF 9 ∧
    decodeCommand 0xC0800000000 = .bcRead 2 ∧ decodeCommand 0x60000000000 = .decRun ∧
    decodeCommand 0xE0000000000 = .opselEUnassigned

/-- R81, R82, R83, R100: decoding the encoding of a well-formed instruction, where it stands and with NEXT as its row asks, gives the
instruction and leaves what follows. -/
def Obligations.DecodeOfEncodeIsTheInstruction : Prop :=
  ∀ (i : Instr) (next : Nat) (rest : List Bool), WellFormed i → i.fitsNext next = true →
    decode (i.slot next) (encode i ++ rest) = .ok (i, rest)

/-- R81, R82, R83: whatever a stream slot decodes to is well-formed, stands in that slot, and has the bits that were read as its
encoding. -/
def Obligations.EncodeOfDecodeIsTheSymbolBits : Prop :=
  ∀ (bits : List Bool) (i : Instr) (rest : List Bool),
    (decode .header bits = .ok (i, rest) → encode i ++ rest = bits ∧ WellFormed i ∧ i.slot 0 = .header) ∧
    (decode .marker bits = .ok (i, rest) → encode i ++ rest = bits ∧ WellFormed i ∧ i.slot 0 = .marker) ∧
    (∀ w next : Nat, decode (.data w next) bits = .ok (i, rest) →
      encode i ++ rest = bits ∧ WellFormed i ∧ i.slot next = .data w next ∧ i.fitsNext next = true)

/-- R100, R238: the operation of every OPSEL value with the fields it names, whatever the other fields hold. -/
def Obligations.CommandWordsDecodeByOpsel : Prop :=
  ∀ (w : BitVec 6) (m : BitVec 2) (v : BitVec 32),
    decodeCommand (cmdWord 0x0 w m v) = .encStart m ∧ decodeCommand (cmdWord 0x1 w m v) = .encStep ∧
    decodeCommand (cmdWord 0x2 w m v) = .encRun ∧ decodeCommand (cmdWord 0x3 w m v) = .opsel3Unassigned ∧
    decodeCommand (cmdWord 0x4 w m v) = .decStart ∧ decodeCommand (cmdWord 0x5 w m v) = .decStep ∧
    decodeCommand (cmdWord 0x6 w m v) = .decRun ∧ decodeCommand (cmdWord 0x7 w m v) = .opsel7Unassigned ∧
    decodeCommand (cmdWord 0x8 w m v) = .bcWinit ∧ decodeCommand (cmdWord 0x9 w m v) = .bcWrite v w ∧
    decodeCommand (cmdWord 0xA w m v) = .bcFlush ∧ decodeCommand (cmdWord 0xB w m v) = .bcRinit ∧
    decodeCommand (cmdWord 0xC w m v) = .bcRead w ∧ decodeCommand (cmdWord 0xD w m v) = .bcIsempty ∧
    decodeCommand (cmdWord 0xE w m v) = .opselEUnassigned ∧ decodeCommand (cmdWord 0xF w m v) = .opselFUnassigned

/-! ### The bit channel -/

/-- R111: BC.WINIT empties the partial byte and the sink; outside IDLE it is a ProtocolError; twice is once; a flush after it emits
nothing. -/
def Obligations.BcWinitClearsThePacker : Prop :=
  ∀ s : State, s.target = .enc →
    (s.enc.regs.st = .idle → exec .bcWinit s = .next (s.withEnc { s.enc with acc := [], snk := [], rsp := none })) ∧
    (s.enc.regs.st ≠ .idle → exec .bcWinit s = .next (s.withEnc (s.enc.answered.raise .protocolError))) ∧
    (∀ t, s.enc.regs.st = .idle → exec .bcWinit s = .next t →
      exec .bcWinit t = .next t ∧ ∃ u, exec .bcFlush t = .next u ∧ u.enc.snk = [])

/-- R112, R113: a legal BC.WRITE appends the digits of the value to the bits written, the partial byte stays below eight bits, and
nothing else of either unit changes but RSP, which returns no value. -/
def Obligations.BcWriteAppendsTheBits : Prop :=
  ∀ (value : BitVec 32) (width : BitVec 6) (s : State), s.target = .enc → s.enc.regs.st = .idle → s.enc.acc.length < 8 →
    1 ≤ width.toNat → width.toNat ≤ 32 → value.toNat < 2 ^ width.toNat →
    ∃ t, exec (.bcWrite value width) s = .next t ∧ written t.enc = written s.enc ++ natBits width.toNat value.toNat ∧
      t.enc.acc.length < 8 ∧ t.enc.rsp = none ∧ PackerFrame s t

/-- R112, R232, R233, R242: BC.WRITE tests the width first, then the range; a faulting write moves no bit. -/
def Obligations.BcWriteFaultsMoveNothing : Prop :=
  ∀ (value : BitVec 32) (width : BitVec 6) (s : State), s.target = .enc → s.enc.regs.st = .idle →
    (width.toNat < 1 ∨ 32 < width.toNat →
      exec (.bcWrite value width) s = .next (s.withEnc (s.enc.answered.faulted .invalidWidth))) ∧
    (1 ≤ width.toNat → width.toNat ≤ 32 → 2 ^ width.toNat ≤ value.toNat →
      exec (.bcWrite value width) s = .next (s.withEnc (s.enc.answered.faulted .valueOutOfRange)))

/-- R114, R71: BC.FLUSH puts every written bit in the sink, followed by the zero bits that fill the last byte; a second flush does
nothing; nothing else changes but RSP. -/
def Obligations.BcFlushPadsToAByte : Prop :=
  ∀ s : State, s.target = .enc → s.enc.regs.st = .idle → s.enc.acc.length < 8 →
    ∃ t, exec .bcFlush s = .next t ∧
      bytesToBits t.enc.snk = written s.enc ++ List.replicate ((8 - s.enc.acc.length) % 8) false ∧ t.enc.acc = [] ∧
      t.enc.rsp = none ∧ PackerFrame s t ∧ exec .bcFlush t = .next t

/-- R116, R120: BC.RINIT loads UP.REM with the source's bits; BC.ISEMPTY answers 1 exactly when no bit is left, and consumes none. -/
def Obligations.BcRinitLoadsAndIsemptyReports : Prop :=
  ∀ s : State, s.target = .dec → s.dec.regs.st = .idle →
    exec .bcRinit s = .next (s.withDec { s.dec with rem := bytesToBits s.dec.src, rsp := none }) ∧
    exec .bcIsempty s = .next (s.withDec { s.dec with rsp := some (if s.dec.rem = [] then 1 else 0) })

/-- R117, R232, R234, R242: BC.READ takes the first bits of UP.REM and answers their value; it tests the width first, then the bits left;
a faulting read consumes nothing and returns no value. -/
def Obligations.BcReadTakesTheFirstBits : Prop :=
  ∀ (width : BitVec 6) (s : State), s.target = .dec → s.dec.regs.st = .idle →
    (1 ≤ width.toNat → width.toNat ≤ 32 → width.toNat ≤ s.dec.rem.length →
      exec (.bcRead width) s = .next (s.withDec
        { s.dec with
          rem := s.dec.rem.drop width.toNat
          rsp := some (BitVec.ofNat 32 (bitsToNat (s.dec.rem.take width.toNat))) })) ∧
    (width.toNat < 1 ∨ 32 < width.toNat →
      exec (.bcRead width) s = .next (s.withDec (s.dec.answered.faulted .invalidWidth))) ∧
    (1 ≤ width.toNat → width.toNat ≤ 32 → s.dec.rem.length < width.toNat →
      exec (.bcRead width) s = .next (s.withDec (s.dec.answered.faulted .endOfStream)))

/-- R113: the packer equation. -/
def Obligations.PackerEquation : Prop :=
  ∀ (ps : List (Nat × Nat)) (e e' : Enc), e.acc = [] → e.snk = [] → bcWrites ps e = .ok () e' →
    bytesToBits e'.snk = (writesBits ps).take (8 * ((writesBits ps).length / 8)) ∧
    e'.pkCnt.toNat = (writesBits ps).length % 8 ∧
    e'.acc = (writesBits ps).drop (8 * ((writesBits ps).length / 8))

/-- R119: the unpacker equation: what was written and flushed is read back, and only zero pad bits remain. -/
def Obligations.UnpackerEquation : Prop :=
  ∀ (ps : List (Nat × Nat)) (e e' : Enc) (d : Dec), e.acc = [] → e.snk = [] → bcWrites ps e = .ok () e' →
    d.src = (bcFlush e').snk →
    ∃ d', bcReads (ps.map Prod.snd) (bcRinit d) = .ok (ps.map Prod.fst) d' ∧
      d'.rem = List.replicate ((8 - (ps.map Prod.snd).sum % 8) % 8) false

/-! ### The dictionary and the table -/

/-- R134, R130: PD.LPM finds the longest dictionary phrase that is a prefix of the source, with its code and length, and consumes
nothing. -/
def Obligations.LongestPrefixIsMatched : Prop :=
  ∀ (e : Enc) (b : Byte) (bs : List Byte), e.src = b :: bs →
    ∃ c l, pdLpm e = .ok (c, l) e ∧ 1 ≤ l ∧ l ≤ e.src.length ∧ dictCode e.trie ⟨b, bs.take (l - 1)⟩ = some c ∧
      ∀ k, l < k → k ≤ e.src.length → dictCode e.trie ⟨b, bs.take (k - 1)⟩ = none

/-- R131, R132, R135: the seeded dictionary holds exactly the one-byte phrases; inserting a missing extension gives it its code and
leaves every other phrase its code; inserting a present one changes nothing. -/
def Obligations.InsertGivesThePhraseItsCode : Prop :=
  (∀ p : Phrase, dictCode [] p = if p.rest = [] then some (seedCode p.first) else none) ∧
  (∀ (e : Enc) (p : Phrase) (b : Byte) (c n : Code), dictCode e.trie p = some c → trieRead e.trie c b = none →
    dictCode (pdInsert c b n e).trie (p.snoc b) = some n ∧
    ∀ q k, dictCode e.trie q = some k → dictCode (pdInsert c b n e).trie q = some k) ∧
  (∀ (e : Enc) (b : Byte) (c n k : Code), trieRead e.trie c b = some k → pdInsert c b n e = e)

/-- R147, R150, R62: the seeded table holds `[b]` in slot `b` and nothing from 258 to 65535; CT.REGISTER writes `PREV ++ [s[0]]` into slot
NEXT, raises NEXT by one and leaves every other slot and register. -/
def Obligations.RegisterWritesSlotNext : Prop :=
  (∀ (d : Dec) (b : Byte), tblRead (ctSeed d).tbl b.toNat = some (Phrase.single b)) ∧
  (∀ (d : Dec) (i : Nat), 258 ≤ i → i ≤ 65535 → tblRead (ctSeed d).tbl i = none) ∧
  (∀ (s : Phrase) (d : Dec), Cells.Wf tblDefault d.tbl →
    (∃ p, tblRead (ctRegister s d).tbl d.regs.next.toNat = some p ∧ p.toList = d.prev.toList ++ [s.first]) ∧
    (∀ i, i ≠ d.regs.next.toNat → tblRead (ctRegister s d).tbl i = tblRead d.tbl i) ∧
    (ctRegister s d).regs = { d.regs with next := d.regs.next + 1 } ∧
    { ctRegister s d with tbl := d.tbl, regs := d.regs } = d)

/-! ### The width state machine and the policy -/

/-- R160, R161: the rows of the state machine. -/
def Obligations.AdvanceFollowsTheStateMachine : Prop :=
  ∀ r : Regs,
    (r.next.toNat < 2 ^ r.w.toNat → advance r = (.register, r)) ∧
    (r.next.toNat = 2 ^ r.w.toNat → r.w.toNat < 16 →
      (advance r).1 = .register ∧ (advance r).2.w.toNat = r.w.toNat + 1 ∧ { (advance r).2 with w := r.w } = r) ∧
    (r.next.toNat = 65536 → r.w.toNat = 16 → advance r = chooseAction r)

/-- R163 to R167: the answers of the three policies; under Monitor the first call latches U and C and answers KeepFrozen, every later
call compares and writes nothing. -/
def Obligations.PolicyAnswers : Prop :=
  ∀ r : Regs,
    (r.mode = .none → chooseAction r = (.keepFrozen, r)) ∧
    (r.mode = .reset → chooseAction r = (.doReset, r)) ∧
    (r.mode = .monitor → r.latched = false → 0 < r.u.toNat → 0 < r.c.toNat →
      chooseAction r = (.keepFrozen, { r with u0 := r.u, c0 := r.c, latched := true })) ∧
    (r.mode = .monitor → r.latched = true →
      chooseAction r =
        (if 10 * r.u0.toNat * r.c.toNat ≥ 11 * r.c0.toNat * r.u.toNat then .doReset else .keepFrozen, r))

/-- R168, R169: the integer test is `ratioOfRatios >= 11/10` on exact fractions. -/
def Obligations.RatioTestIsTheExactFraction : Prop :=
  ∀ r : Regs, 0 < r.c0.toNat → 0 < r.u.toNat → 0 < r.c.toNat →
    (r.ratioReached = true ↔
      (11 / 10 : ℚ) ≤ ((r.u0.toNat : ℚ) / r.c0.toNat) / ((r.u.toNat : ℚ) / r.c.toNat))

/-! ### The encoder -/

/-- R186, R235: ENC.START from IDLE: with a legal mode the registers of a started stream, the header in the packer, an empty
dictionary; with the operand 3 InvalidMode, and nothing else is written. -/
def Obligations.EncStartBeginsAStreamOrRefusesModeThree : Prop :=
  ∀ s : State, s.target = .enc → s.enc.regs.st = .idle →
    (∀ m : Mode, exec (.encStart m.bits) s = .next (s.withEnc
      { regs :=
          { mode := m, w := 9, next := 258, u := 0, c := 2, u0 := 0, c0 := 0, latched := false, st := .active,
            faultCode := s.enc.regs.faultCode }
        trie := []
        acc := [m.bits.getLsbD 1, m.bits.getLsbD 0]
        src := s.enc.src
        snk := []
        rsp := none })) ∧
    exec (.encStart 3) s = .next (s.withEnc (s.enc.answered.faulted .invalidMode))

/-- R190 with R160, R172, R173, R240: ENC.STEP with input left writes the code of the longest match at the width in force, counts it,
and, when a byte follows, registers the extension, keeps the dictionary frozen, or writes the marker and clears the dictionary, as
ADVANCE answers; the source loses the match.  A count that would overflow stops it there: what is written is written, the counter,
the trie and the source are kept.  `m` is the match of PD.LPM: node and length. -/
def Obligations.EncStepEmitsTheLongestMatch : Prop :=
  ∀ (s : State) (b : Byte) (bs : List Byte) (m : Code × Nat), s.target = .enc → s.enc.regs.st = .active → s.enc.Inv →
    s.enc.src = b :: bs → pdLpm s.enc = .ok m s.enc →
    let w := s.enc.regs.w.toNat
    let counted : Regs := { s.enc.regs with c := s.enc.regs.c + BitVec.ofNat 64 w }
    let r : Regs := { counted with u := s.enc.regs.u + BitVec.ofNat 64 (8 * m.2) }
    let bits := written s.enc ++ natBits w m.1.toNat
    ∃ t, exec .encStep s = .next t ∧ t.dec = s.dec ∧ t.port = s.port ∧ t.target = s.target ∧ t.enc.rsp = none ∧
      t.enc.acc.length < 8 ∧
      let stopped := fun q : Regs => t.enc.regs = { q with st := .fault, faultCode := 7 } ∧ t.enc.trie = s.enc.trie ∧
        t.enc.src = s.enc.src
      if 2 ^ 64 ≤ s.enc.regs.c.toNat + w then written t.enc = bits ∧ stopped s.enc.regs
      else if 2 ^ 64 ≤ s.enc.regs.u.toNat + 8 * m.2 then written t.enc = bits ∧ stopped counted
      else match s.enc.src[m.2]? with
      | none => written t.enc = bits ∧ t.enc.regs = r ∧ t.enc.trie = s.enc.trie ∧ t.enc.src = s.enc.src.drop m.2
      | some x =>
        match advance r with
        | (.register, r') =>
          written t.enc = bits ∧ t.enc.regs = { r' with next := r.next + 1 } ∧
            t.enc.trie = trieWrite s.enc.trie m.1 x r.next ∧ t.enc.src = s.enc.src.drop m.2
        | (.keepFrozen, r') =>
          written t.enc = bits ∧ t.enc.regs = r' ∧ t.enc.trie = s.enc.trie ∧ t.enc.src = s.enc.src.drop m.2
        | (.doReset, r') =>
          written t.enc = bits ++ natBits 16 257 ∧
            if 2 ^ 64 ≤ r'.c.toNat + 16 then stopped r'
            else t.enc.regs = { r' with c := r'.c + 16, w := 9, next := 258 } ∧ t.enc.trie = [] ∧
              t.enc.src = s.enc.src.drop m.2

/-- R195, R172, R240: ENC.STEP with no input left writes EOS at the width the next data codeword would have had, flushes, and ends the
stream; when C would overflow it stops after EOS was written: C is kept, nothing is flushed. -/
def Obligations.EncStepAtTheEndWritesEos : Prop :=
  ∀ s : State, s.target = .enc → s.enc.regs.st = .active → s.enc.Inv → s.enc.src = [] →
    let w := if s.enc.regs.next.toNat = 2 ^ s.enc.regs.w.toNat ∧ s.enc.regs.w.toNat < 16 then s.enc.regs.w.toNat + 1
      else s.enc.regs.w.toNat
    ∃ t, exec .encStep s = .next t ∧ t.enc.trie = s.enc.trie ∧ t.enc.src = [] ∧ t.enc.rsp = none ∧ t.dec = s.dec ∧
      t.port = s.port ∧ t.target = s.target ∧
      if 2 ^ 64 ≤ s.enc.regs.c.toNat + w then
        written t.enc = written s.enc ++ natBits w 256 ∧ t.enc.acc.length < 8 ∧
          t.enc.regs = { s.enc.regs with w := BitVec.ofNat 5 w, st := .fault, faultCode := 7 }
      else
        (∃ pad, pad < 8 ∧ bytesToBits t.enc.snk = written s.enc ++ natBits w 256 ++ List.replicate pad false) ∧
          t.enc.acc = [] ∧
          t.enc.regs = { s.enc.regs with w := BitVec.ofNat 5 w, c := s.enc.regs.c + BitVec.ofNat 64 w, st := .done }

/-- R197, R275: ENC.RUN on a started stream whose counters have room ends in DONE with the whole input covered, flushed and counted,
within the bits R275 gives. -/
def Obligations.EncRunEndsTheStream : Prop :=
  ∀ s : State, s.target = .enc → s.enc.regs.st = .active → s.enc.Inv →
    s.enc.regs.u.toNat + 8 * s.enc.src.length < 2 ^ 64 → s.enc.regs.c.toNat + 32 * s.enc.src.length + 16 < 2 ^ 64 →
    ∃ t, exec .encRun s = .next t ∧ t.enc.regs.st = .done ∧ t.enc.src = [] ∧ t.enc.acc = [] ∧ t.enc.rsp = none ∧
      t.enc.regs.mode = s.enc.regs.mode ∧ t.enc.regs.u.toNat = s.enc.regs.u.toNat + 8 * s.enc.src.length ∧
      t.enc.regs.c.toNat ≤ s.enc.regs.c.toNat + 32 * s.enc.src.length + 16 ∧
      t.dec = s.dec ∧ t.port = s.port ∧ t.target = s.target

/-- R197: ENC.RUN is repeated ENC.STEP. -/
def Obligations.EncRunIsRepeatedStep : Prop :=
  ∀ s s1 : State, s.target = .enc → s.enc.regs.st = .active → exec .encStep s = .next s1 →
    (s1.enc.regs.st = .active → exec .encRun s = exec .encRun s1) ∧
    (s1.enc.regs.st ≠ .active → exec .encRun s = .next s1)

/-- R198: the byte-serial form ends with the same registers, dictionary, partial byte and sink as ENC.RUN on the same input, at a
fault too. -/
def Obligations.ByteSerialFormWritesTheSameStream : Prop :=
  ∀ e : Enc, e.regs.st = .active →
    (encRun e).final.map (fun e => { e with src := [] }) =
      ((serialFeed e.src (SerialEnc.start e)).bind fun _ x => serialEnd x).final.map fun x => { x.enc with src := [] }

/-! ### The decoder and its symbols -/

/-- R81, R206: a legal header symbol starts the stream in its mode; the illegal one is InvalidMode after its bits were taken and
counted.  That PREV, which R42 leaves unspecified after START, is kept is the model's choice (log 5). -/
def Obligations.HeaderSymbolsStartTheStream : Prop :=
  ∀ s : State, s.dec.regs.st = .idle → 2 ≤ s.dec.rem.length → s.dec.regs.c.toNat + 2 < 2 ^ 64 →
    let started := fun m : Mode => s.withDec
      { s.dec with
        rem := s.dec.rem.drop 2
        regs := { s.dec.regs with c := s.dec.regs.c + 2, mode := m, w := 9, next := 258, st := .active }
        tbl := []
        prevValid := false }
    exec .hdrNone s = .next (started .none) ∧ exec .hdrReset s = .next (started .reset) ∧
    exec .hdrMonitor s = .next (started .monitor) ∧
    exec .hdrIllegal s = .next (s.withDec ((s.dec.taken 2).faulted .invalidMode))

/-- R206: DEC.START from IDLE on a source that begins with a legal header.  That PREV, which R42 leaves unspecified after START, is
kept is the model's choice (log 5). -/
def Obligations.DecStartReadsTheHeader : Prop :=
  ∀ (m : Mode) (s : State), s.target = .dec → s.dec.regs.st = .idle →
    (bytesToBits s.dec.src).take 2 = natBits 2 m.bits.toNat →
    exec .decStart s = .next (s.withDec
      { s.dec with
        regs :=
          { mode := m, w := 9, next := 258, u := 0, c := 2, u0 := 0, c0 := 0, latched := false, st := .active,
            faultCode := s.dec.regs.faultCode }
        tbl := []
        prevValid := false
        rem := (bytesToBits s.dec.src).drop 2
        snk := []
        rsp := none })

/-- R206, R234, R235: DEC.START on an empty source is EndOfStream; on a header `0b11` InvalidMode, with the two bits counted. -/
def Obligations.DecStartFaultsOnABadHeader : Prop :=
  ∀ s : State, s.target = .dec → s.dec.regs.st = .idle →
    let ready : Dec := { s.dec with regs := s.dec.regs.clearCounts, rem := bytesToBits s.dec.src, snk := [], rsp := none }
    (s.dec.src = [] → exec .decStart s = .next (s.withDec (ready.faulted .endOfStream))) ∧
    ((bytesToBits s.dec.src).take 2 = [true, true] →
      exec .decStart s = .next (s.withDec ((ready.taken 2).faulted .invalidMode)))

/-- R213: a LIT symbol of any width puts out its one byte, completes a pending registration and becomes PREV. -/
def Obligations.LiteralOutputsItsByte : Prop :=
  ∀ (f : CwFormat) (byte : Byte) (s : State), s.dec.Ready f.width → s.dec.Countable (Phrase.single byte) →
    exec (f.lit byte) s = .next (s.withDec ((s.dec.taken f.width).output (Phrase.single byte)))

/-- R214: a REF symbol of any width puts out the phrase in its slot. -/
def Obligations.ReferenceOutputsItsSlot : Prop :=
  ∀ (f : CwFormat) (code : BitVec f.width) (p : Phrase) (s : State), s.dec.Ready f.width → 258 ≤ code.toNat →
    code.toNat < s.dec.regs.next.toNat → tblRead s.dec.tbl code.toNat = some p → s.dec.Countable p →
    exec (f.ref code) s = .next (s.withDec ((s.dec.taken f.width).output p))

/-- R216: a KWKWK symbol of any width, with a registration pending, puts out PREV and PREV's first byte, and that same phrase is
written into slot NEXT. -/
def Obligations.SelfReferenceOutputsPrevAndItsFirstByte : Prop :=
  ∀ (f : CwFormat) (code : BitVec f.width) (s : State), s.dec.Ready f.width → code.toNat = s.dec.regs.next.toNat →
    s.dec.pending = true → Cells.Wf tblDefault s.dec.tbl →
    let p := s.dec.prev.snoc s.dec.prev.first
    s.dec.Countable p →
    exec (f.kwkwk code) s = .next (s.withDec ((s.dec.taken f.width).output p)) ∧
      tblRead ((s.dec.taken f.width).output p).tbl code.toNat = some p

/-- R212: an EOS symbol of any width ends the stream: nothing is put out and a pending registration is dropped. -/
def Obligations.EosEndsTheStream : Prop :=
  ∀ (f : CwFormat) (s : State), s.dec.Ready f.width →
    exec f.eos s = .next (s.withDec (s.dec.taken f.width).ended)

/-- R215: a 257 in a data position is InvalidCodeword, after its bits were taken and counted. -/
def Obligations.MarkerInDataIsInvalid : Prop :=
  ∀ (f : CwFormat) (s : State), s.dec.Ready f.width →
    exec f.rstmark s = .next (s.withDec ((s.dec.taken f.width).faulted .invalidCodeword))


/-- R83, R174, R217: the marker slot: 256 ends the stream; any other value clears the dictionary.  That PREV, which R42 leaves
unspecified after a dictionary reset, is kept is the model's choice (log 5). -/
def Obligations.MarkerSlotResetsOrEnds : Prop :=
  ∀ (value : BitVec 16) (s : State), s.dec.Ready 16 →
    exec .mk16Eos s = .next (s.withDec (s.dec.taken 16).ended) ∧
    (WellFormed (.mk16Rstmark value) → exec (.mk16Rstmark value) s = .next (s.withDec
      { s.dec.taken 16 with
        tbl := []
        regs := { (s.dec.taken 16).regs with w := 9, next := 258 }
        prevValid := false
        pending := false }))

/-- R118, R172, R218, R234, R240: where a codeword or marker symbol traps: too few bits left (nothing consumed); C would overflow (the
bits are consumed); a code above NEXT, or equal to it with no registration pending, is InvalidCodeword (bits consumed and counted);
U would overflow (the phrase is in the sink, nothing is registered, PREV and U are kept).  A symbol outside a started stream is met
by no operation; its ProtocolError is the model's choice (log 2). -/
def Obligations.SymbolsTrapOnShortStreamAndOverflow : Prop :=
  (∀ (i : Instr) (w : Nat) (s : State), (∃ f : CwFormat, w = f.width ∧ ∃ c, i = f.instr c) ∨ (w = 16 ∧ i.slot 0 = .marker) →
    (s.dec.regs.st ≠ .active → exec i s = .next (s.withDec (s.dec.raise .protocolError))) ∧
    (s.dec.regs.st = .active → s.dec.rem.length < w → exec i s = .next (s.withDec (s.dec.faulted .endOfStream))) ∧
    (s.dec.regs.st = .active → w ≤ s.dec.rem.length → 2 ^ 64 ≤ s.dec.regs.c.toNat + w →
      exec i s = .next (s.withDec ({ s.dec with rem := s.dec.rem.drop w }.faulted .counterOverflow)))) ∧
  ∀ (f : CwFormat) (byte : Byte) (code : BitVec f.width) (s : State), s.dec.Ready f.width →
    (s.dec.regs.next.toNat ≤ code.toNat → ¬(code.toNat = s.dec.regs.next.toNat ∧ s.dec.pending = true) →
      exec (f.kwkwk code) s = .next (s.withDec ((s.dec.taken f.width).faulted .invalidCodeword))) ∧
    (¬s.dec.Countable (Phrase.single byte) →
      exec (f.lit byte) s = .next (s.withDec ((s.dec.taken f.width).overflowed (Phrase.single byte)))) ∧
    (∀ p, 258 ≤ code.toNat → code.toNat < s.dec.regs.next.toNat → tblRead s.dec.tbl code.toNat = some p → ¬s.dec.Countable p →
      exec (f.ref code) s = .next (s.withDec ((s.dec.taken f.width).overflowed p))) ∧
    (code.toNat = s.dec.regs.next.toNat → s.dec.pending = true → ¬s.dec.Countable (s.dec.prev.snoc s.dec.prev.first) →
      exec (f.kwkwk code) s = .next (s.withDec
        ((s.dec.taken f.width).overflowed (s.dec.prev.snoc s.dec.prev.first))))

/-- R210, R149: DEC.STEP without a dictionary reset, on a codeword that CT.RESOLVE resolves: the phrase is put out.  `d` is the unit
after the head of the step (the pending bit and ADVANCE), `x` the value of the next W bits. -/
def Obligations.DecStepOutputsTheResolvedPhrase : Prop :=
  ∀ (s : State) (a : Action) (d : Dec) (p : Phrase), s.target = .dec → s.dec.regs.st = .active →
    decHead s.dec.answered = (a, d) → a ≠ .doReset → 9 ≤ d.regs.w.toNat → d.regs.w.toNat ≤ 16 → d.Ready d.regs.w.toNat →
    bitsToNat (d.rem.take d.regs.w.toNat) ≠ 256 → ctResolve (bitsToNat (d.rem.take d.regs.w.toNat)) d = .ok p d →
    d.Countable p →
    exec .decStep s = .next (s.withDec ((d.taken d.regs.w.toNat).output p))

/-- R210, R212, R220: DEC.STEP, and DEC.RUN too, on a stream whose next codeword is EOS ends it. -/
def Obligations.DecStepAndRunEndAtEos : Prop :=
  ∀ (s : State) (a : Action) (d : Dec), s.target = .dec → s.dec.regs.st = .active →
    decHead s.dec.answered = (a, d) → a ≠ .doReset → 9 ≤ d.regs.w.toNat → d.regs.w.toNat ≤ 16 → d.Ready d.regs.w.toNat →
    bitsToNat (d.rem.take d.regs.w.toNat) = 256 →
    exec .decStep s = .next (s.withDec (d.taken d.regs.w.toNat).ended) ∧
      exec .decRun s = .next (s.withDec (d.taken d.regs.w.toNat).ended)

/-- R220, R275: DEC.RUN is repeated DEC.STEP, and leaves no stream ACTIVE. -/
def Obligations.DecRunIsRepeatedStep : Prop :=
  ∀ s : State, s.target = .dec → s.dec.regs.st = .active →
    (∀ s1, exec .decStep s = .next s1 → s1.dec.regs.st = .active → exec .decRun s = exec .decRun s1) ∧
    (∀ s1, exec .decStep s = .next s1 → s1.dec.regs.st ≠ .active → exec .decRun s = .next s1) ∧
    (∀ t, exec .decRun s = .next t → t.dec.regs.st ≠ .active)

/-- R210, R174, R149: DEC.STEP as `exec` runs it, through decoded symbols, is the pseudocode of R210 read line by line. -/
def Obligations.DecStepIsItsPseudocode : Prop :=
  ∀ s : State, s.target = .dec → 9 ≤ s.dec.regs.w.toNat → s.dec.regs.w.toNat ≤ 16 →
    exec .decStep s = (decStepLines s.dec.answered).outcome s.withDec

/-! ### Faults at the command port -/

/-- R238: an unassigned OPSEL is a ProtocolError in the unit that got it, and in FAULT nothing. -/
def Obligations.UnassignedOpselIsAProtocolError : Prop :=
  ∀ (i : Instr) (s : State),
    i = .opsel3Unassigned ∨ i = .opsel7Unassigned ∨ i = .opselEUnassigned ∨ i = .opselFUnassigned →
    (s.target = .enc → s.enc.regs.st ≠ .fault → exec i s = .next (s.withEnc (s.enc.answered.faulted .protocolError))) ∧
    (s.target = .dec → s.dec.regs.st ≠ .fault → exec i s = .next (s.withDec (s.dec.answered.faulted .protocolError)))

/-- R238: a command that is not legal in the unit's state, or is the other unit's, is a ProtocolError in the unit that got it. -/
def Obligations.IllegalCommandIsAProtocolError : Prop :=
  ∀ (i : Instr) (s : State),
    (s.target = .enc → s.enc.regs.st ≠ .fault →
      (i.isEncCommand = true ∧ s.enc.regs.st ≠ i.legalIn) ∨ i.isDecCommand = true →
      exec i s = .next (s.withEnc (s.enc.answered.faulted .protocolError))) ∧
    (s.target = .dec → s.dec.regs.st ≠ .fault →
      (i.isDecCommand = true ∧ s.dec.regs.st ≠ i.legalIn) ∨ i.isEncCommand = true →
      exec i s = .next (s.withDec (s.dec.answered.faulted .protocolError)))

/-- R238, R240: a unit in FAULT ignores every command: only RSP answers.  That a bare stream symbol, which no operation meets in FAULT,
changes nothing at all is the model's choice (log 2). -/
def Obligations.FaultedUnitIgnoresCommands : Prop :=
  ∀ (i : Instr) (s : State),
    (i.slot 0 = .command → s.target = .enc → s.enc.regs.st = .fault → exec i s = .next (s.withEnc s.enc.answered)) ∧
    (i.slot 0 = .command → s.target = .dec → s.dec.regs.st = .fault → exec i s = .next (s.withDec s.dec.answered)) ∧
    (i.slot 0 ≠ .command → s.dec.regs.st = .fault → exec i s = .next s)

/-! ### Rules about the whole machine -/

/-- R20, R21, R69: a command to one unit leaves the other unit as it was, and what it does depends on its own unit alone. -/
def Obligations.UnitsShareNoState : Prop :=
  ∀ (s s' : State) (cmd : BitVec 44) (rest rest' : List HostAct) (t : State),
    (s.port = .command .enc cmd :: rest → s'.port = .command .enc cmd :: rest' → s.enc = s'.enc → step s = .next t →
      t.dec = s.dec ∧ t.port = rest ∧ ∃ t', step s' = .next t' ∧ t'.enc = t.enc) ∧
    (s.port = .command .dec cmd :: rest → s'.port = .command .dec cmd :: rest' → s.dec = s'.dec → step s = .next t →
      t.enc = s.enc ∧ t.port = rest ∧ ∃ t', step s' = .next t' ∧ t'.dec = t.dec)

/-- R22, R264: the mode is fixed for the whole stream. -/
def Obligations.ModeIsFixedInAStream : Prop :=
  ∀ s t : State, step s = .next t →
    ((∀ rest, s.port ≠ .hwReset .enc :: rest) → s.enc.regs.st = .active → t.enc.regs.mode = s.enc.regs.mode) ∧
    ((∀ rest, s.port ≠ .hwReset .dec :: rest) → s.dec.regs.st = .active → t.dec.regs.mode = s.dec.regs.mode)

/-- R63: "bytes are appended in order and never revised": only the operations that begin a stream or clear the packer empty a sink. -/
def Obligations.SinksOnlyGrow : Prop :=
  ∀ (i : Instr) (s t : State), (∀ m, i ≠ .encStart m) → i ≠ .decStart → i ≠ .bcWinit → exec i s = .next t →
    s.enc.snk <+: t.enc.snk ∧ s.dec.snk <+: t.dec.snk

/-- R162: in one step of a unit W stays, rises by one and not above 16, or returns to 9 from a dictionary full at 16 bits. -/
def Obligations.WidthRisesByOneOrRestarts : Prop :=
  ∀ s t : State, s.Inv →
    (s.target = .enc → s.enc.regs.st = .active → exec .encStep s = .next t →
      t.enc.regs.w = s.enc.regs.w ∨ (t.enc.regs.w.toNat = s.enc.regs.w.toNat + 1 ∧ t.enc.regs.w.toNat ≤ 16) ∨
      (s.enc.regs.w = 16 ∧ s.enc.regs.next = 65536 ∧ t.enc.regs.w = 9 ∧ t.enc.regs.next = 258)) ∧
    (s.target = .dec → s.dec.regs.st = .active → exec .decStep s = .next t →
      t.dec.regs.w = s.dec.regs.w ∨ (t.dec.regs.w.toNat = s.dec.regs.w.toNat + 1 ∧ t.dec.regs.w.toNat ≤ 16) ∨
      (s.dec.regs.w = 16 ∧ s.dec.regs.next = 65536 ∧ t.dec.regs.w = 9 ∧ t.dec.regs.next = 258))

/-- R40: the state after reset meets the invariant of the machine. -/
def Obligations.ResetMeetsTheInvariant : Prop := State.reset.Inv

/-- R40, R29, R61, R62, R170, R171: every step keeps the invariant of the machine, from every state that meets it. -/
def Obligations.StepKeepsTheInvariant : Prop :=
  ∀ s t : State, s.Inv → step s = .next t → t.Inv

/-- From every state that meets the invariant a step has a next state, unless the host replaces the source of a running unit (I16, log 9):
every table read, width and symbol that the decoder can meet has its meaning (R62, R82, R214). -/
def Obligations.NoStepStopsInTheInvariant : Prop :=
  ∀ s : State, s.Inv →
    (∀ bytes rest, s.port = .setSource .enc bytes :: rest → s.enc.regs.st ≠ .active) →
    (∀ bytes rest, s.port = .setSource .dec bytes :: rest → s.dec.regs.st ≠ .active) →
    ∃ t, step s = .next t

/-- R42, R255, I10: contents the spec leaves unspecified (the trie and the table of a unit without a running stream, slots 256, 257 and
65536 of the table at any time, PREV while PREV_VALID is 0) change nothing else, in this step or, by iteration, in any later one. -/
def Obligations.UnspecifiedContentsNeverMatter : Prop :=
  ∀ a b : State, a.Agree b →
    (∃ t t', step a = .next t ∧ step b = .next t' ∧ t.Agree t') ∨ (∃ f, step a = .fault f ∧ step b = .fault f)

/-- R41, R40, R70: on a stream that one encoder run made, complete, DEC's step `k` meets ENC's step `k`, and the units agree at every
symbol boundary: before a data codeword, before a marker, and before EOS; and in DEC too no phrase has two codes.  `e1`, `e`: ENC
after ENC.START and `k` steps later; `r1`, `r`: the same for DEC.  Where the latch is compared before EOS: log 30. -/
def Obligations.UnitsAgreeAtEverySymbolBoundary : Prop :=
  ∀ (m : Mode) (e0 e1 e2 e : Enc) (r0 r1 : State) (k : Nat),
    encStart m.bits e0 = .ok () e1 → encRun e1 = .ok () e2 → e2.regs.st = .done →
    r0.dec.regs.st = .idle → r0.dec.src = e2.snk → decStart r0 = .next r1 →
    encLoop k e1 = .ok () e → e.regs.st = .active →
    ∃ r, decLoop k r1 = .next r ∧ r.dec.regs.st = .active ∧ NoTwoCodes r.dec ∧
      (∀ b bs, e.src = b :: bs → ∃ d, r.dec.atCodeword = .ok () d ∧ NoTwoCodes d ∧ ParityAtCodeword b e d) ∧
      (∀ e', e.atMarker = some e' →
        ∃ r', decStep r = .next r' ∧ (decHead r'.dec).1 = .doReset ∧ ParityAtMarker e' (decHead r'.dec).2) ∧
      (e.src = [] → ParityAtEos e r.dec)

/-- R221: decoding what the encoder wrote gives back the input and the mode, for every input and every mode; the only premise is that
the encoder's run ended in DONE (no CounterOverflow). -/
def Obligations.RoundTrip : Prop :=
  ∀ (m : Mode) (s s1 s2 : State), s.target = .enc → s.enc.regs.st = .idle →
    exec (.encStart m.bits) s = .next s1 → exec .encRun s1 = .next s2 → s2.enc.regs.st = .done →
    ∀ r : State, r.target = .dec → r.dec.regs.st = .idle → r.dec.src = s2.enc.snk →
      ∃ r1 r2, exec .decStart r = .next r1 ∧ exec .decRun r1 = .next r2 ∧ r2.dec.regs.st = .done ∧
        r2.dec.snk = s.enc.src ∧ r2.dec.regs.mode = m
end

