-- ==== Sys2Proof/Laws/Bits.lean ====
section
/-! SUPPORT. Laws/Bits.lean: bit sequences and the values they stand for (20_memory.md R64; 30_encoding.md R84). -/

namespace Sys2Proof

@[simp] theorem natBits_length (w v : Nat) : (natBits w v).length = w := by
  induction w with
  | zero => rfl
  | succ w ih => simp [natBits, ih]

@[simp] theorem bitsToNat_nil : bitsToNat [] = 0 := rfl

theorem bitsToNat_foldl (acc : Nat) (bits : List Bool) :
    bits.foldl (fun a b => 2 * a + b.toNat) acc = acc * 2 ^ bits.length + bitsToNat bits := by
  induction bits generalizing acc with
  | nil => simp [bitsToNat]
  | cons b bs ih =>
    simp only [List.foldl_cons, List.length_cons, bitsToNat]
    rw [ih, ih]
    ring

/-- The first bit has the highest weight (R84). -/
theorem bitsToNat_cons (b : Bool) (bs : List Bool) : bitsToNat (b :: bs) = b.toNat * 2 ^ bs.length + bitsToNat bs := by
  have := bitsToNat_foldl (2 * 0 + b.toNat) bs
  simpa [bitsToNat] using this

theorem bitsToNat_lt (bits : List Bool) : bitsToNat bits < 2 ^ bits.length := by
  induction bits with
  | nil => simp
  | cons b bs ih =>
    rw [bitsToNat_cons, List.length_cons, pow_succ]
    cases b <;> simp <;> omega

/-- A value written in `w` bits and read back is the value, modulo `2^w`. -/
theorem bitsToNat_natBits (w v : Nat) : bitsToNat (natBits w v) = v % 2 ^ w := by
  induction w with
  | zero => simp [natBits, Nat.mod_one]
  | succ w ih => rw [natBits, bitsToNat_cons, ih, natBits_length, Nat.mod_pow_succ, Nat.toNat_testBit]; ring

/-- A value that fits is read back as written. -/
theorem bitsToNat_natBits_of_lt {w v : Nat} (h : v < 2 ^ w) : bitsToNat (natBits w v) = v := by
  rw [bitsToNat_natBits, Nat.mod_eq_of_lt h]

/-- The bits below bit `w` alone decide the `w` low digits. -/
theorem natBits_add_mul {w v : Nat} (a : Nat) (hv : v < 2 ^ w) : natBits w (a * 2 ^ w + v) = natBits w v := by
  suffices ∀ k, k ≤ w → natBits k (a * 2 ^ w + v) = natBits k v from this w le_rfl
  intro k
  induction k with
  | zero => intro _; rfl
  | succ k ih =>
    intro hk
    rw [natBits, natBits, ih (by omega)]
    congr 1
    rw [mul_comm, Nat.testBit_two_pow_mul_add a hv, if_pos (by omega)]

/-- A bit sequence is the digits of its value. -/
theorem natBits_bitsToNat (bits : List Bool) : natBits bits.length (bitsToNat bits) = bits := by
  induction bits with
  | nil => rfl
  | cons b bs ih =>
    rw [List.length_cons, natBits, bitsToNat_cons, natBits_add_mul _ (bitsToNat_lt bs), ih]
    congr 1
    rw [mul_comm, Nat.testBit_two_pow_mul_add _ (bitsToNat_lt bs)]
    cases b <;> simp

theorem natBits_bitsToNat_of_length {w : Nat} {bits : List Bool} (h : bits.length = w) : natBits w (bitsToNat bits) = bits := by
  subst h; exact natBits_bitsToNat bits

/-- Eight bits make a byte and the byte's digits are the bits (R64). -/
theorem natBits_byteOfBits {bits : List Bool} (h : bits.length = 8) : natBits 8 (byteOfBits bits).toNat = bits := by
  have := bitsToNat_lt bits
  rw [h] at this
  rw [byteOfBits, BitVec.toNat_ofNat, Nat.mod_eq_of_lt (by simpa using this)]
  exact natBits_bitsToNat_of_length h

@[simp] theorem bytesToBits_nil : bytesToBits [] = [] := rfl

theorem bytesToBits_cons (b : Byte) (bs : List Byte) : bytesToBits (b :: bs) = natBits 8 b.toNat ++ bytesToBits bs := rfl

@[simp] theorem bytesToBits_append (a b : List Byte) : bytesToBits (a ++ b) = bytesToBits a ++ bytesToBits b := by
  simp [bytesToBits]

@[simp] theorem bytesToBits_length (bytes : List Byte) : (bytesToBits bytes).length = 8 * bytes.length := by
  induction bytes with
  | nil => rfl
  | cons b bs ih => rw [bytesToBits_cons]; simp [ih]; omega

end Sys2Proof
end

