-- ==== Sys2Proof/Laws/Cells.lean ====
section
/-! SUPPORT. Laws/Cells.lean: the sparse spaces: read after write, and that every write keeps the canonical form. -/

namespace Sys2Proof.Machine

variable {α : Type}

/-- The addresses a space lists. -/
abbrev Cells.keys (m : Cells α) : List Nat := m.map Prod.fst

@[simp] theorem Cells.find_nil (k : Nat) : Cells.find ([] : Cells α) k = none := rfl

theorem Cells.find_cons (e : Nat × α) (m : Cells α) (k : Nat) :
    Cells.find (e :: m) k = if k = e.1 then some e.2 else Cells.find m k := rfl

/-- A read is the entry found, or else what the address reads as unlisted. -/
theorem Cells.read_eq (dflt : Nat → Option α) (m : Cells α) (k : Nat) :
    Cells.read dflt m k = (Cells.find m k).or (dflt k) := by
  unfold Cells.read; cases Cells.find m k <;> rfl

/-- Finding an address that was just listed gives the value, and every other address finds what it found before. -/
theorem Cells.find_insert (m : Cells α) (k j : Nat) (v : α) :
    Cells.find (Cells.insert m k v) j = if j = k then some v else Cells.find m j := by
  induction m with
  | nil => simp [Cells.insert, Cells.find]
  | cons e m ih =>
    unfold Cells.insert
    split
    · simp [Cells.find_cons]
    · split
      · next h => subst h; simp only [Cells.find_cons]; split <;> simp_all
      · next h => simp only [Cells.find_cons, ih]; by_cases hj : j = e.1 <;> simp_all [Ne.symm h, eq_comm]

/-- An address found is listed. -/
theorem Cells.mem_of_find {m : Cells α} {k : Nat} {v : α} (h : Cells.find m k = some v) : (k, v) ∈ m := by
  induction m with
  | nil => simp at h
  | cons e m ih =>
    rw [Cells.find_cons] at h
    split at h
    · next hk => cases h; subst hk; simp
    · exact List.mem_cons_of_mem _ (ih h)

/-- In rising order a listed entry is the one found. -/
theorem Cells.find_of_mem {m : Cells α} {k : Nat} {v : α} (hs : m.keys.Pairwise (· < ·)) (h : (k, v) ∈ m) :
    Cells.find m k = some v := by
  induction m with
  | nil => simp at h
  | cons e m ih =>
    simp only [Cells.keys, List.map_cons, List.pairwise_cons] at hs
    rw [Cells.find_cons]
    rcases List.mem_cons.1 h with rfl | h
    · simp
    · have : e.1 < k := hs.1 k (List.mem_map_of_mem h)
      rw [if_neg (by omega)]
      exact ih hs.2 h

/-- An address below all listed ones is not found. -/
theorem Cells.find_eq_none_of_lt {m : Cells α} {k : Nat} (h : ∀ j ∈ m.keys, k < j) : Cells.find m k = none := by
  by_contra hne
  obtain ⟨v, hv⟩ := Option.ne_none_iff_exists'.1 hne
  exact absurd (h k (List.mem_map_of_mem (Cells.mem_of_find hv))) (by simp)

/-- In rising order an erased address is no longer found, and every other finds what it found before. -/
theorem Cells.find_erase {m : Cells α} (hs : m.keys.Pairwise (· < ·)) (k j : Nat) :
    Cells.find (Cells.erase m k) j = if j = k then none else Cells.find m j := by
  induction m with
  | nil => simp [Cells.erase]
  | cons e m ih =>
    simp only [Cells.keys, List.map_cons, List.pairwise_cons] at hs
    unfold Cells.erase
    split
    · next hk =>
      subst hk
      split
      · next hj => subst hj; exact Cells.find_eq_none_of_lt hs.1
      · next hj => simp [Cells.find_cons, hj]
    · next hk =>
      simp only [Cells.find_cons, ih hs.2]
      by_cases hj : j = e.1 <;> simp_all [eq_comm]

/-- A read after a write to the same address gives the value written; every other address reads as before. -/
theorem Cells.read_write [DecidableEq α] {dflt : Nat → Option α} {m : Cells α} (hs : m.keys.Pairwise (· < ·)) (k j : Nat) (v : α) :
    Cells.read dflt (Cells.write dflt m k v) j = if j = k then some v else Cells.read dflt m j := by
  simp only [Cells.read_eq]
  unfold Cells.write
  split
  · next h => rw [Cells.find_erase hs]; by_cases hj : j = k <;> simp_all
  · rw [Cells.find_insert]; by_cases hj : j = k <;> simp_all

/-! ### The canonical form -/

theorem Cells.keys_insert_mem {m : Cells α} {k j : Nat} {v : α} (h : j ∈ (Cells.insert m k v).keys) : j = k ∨ j ∈ m.keys := by
  induction m with
  | nil => simp_all [Cells.insert, Cells.keys]
  | cons e m ih =>
    unfold Cells.insert at h
    split at h
    · simpa [Cells.keys] using h
    · split at h
      · simp only [Cells.keys, List.map_cons, List.mem_cons] at h ⊢; tauto
      · simp only [Cells.keys, List.map_cons, List.mem_cons] at h ih ⊢
        rcases h with h | h
        · tauto
        · rcases ih h with h | h <;> tauto

theorem Cells.insert_rising {m : Cells α} (hs : m.keys.Pairwise (· < ·)) (k : Nat) (v : α) :
    (Cells.insert m k v).keys.Pairwise (· < ·) := by
  induction m with
  | nil => simp [Cells.insert, Cells.keys]
  | cons e m ih =>
    have hs' := hs
    simp only [Cells.keys, List.map_cons, List.pairwise_cons] at hs
    unfold Cells.insert
    split
    · next hk =>
      simp only [Cells.keys, List.map_cons, List.pairwise_cons, List.mem_cons]
      exact ⟨by rintro a (rfl | ha); exacts [hk, hk.trans (hs.1 a ha)], hs.1, hs.2⟩
    · split
      · next hk => subst hk; simpa [Cells.keys] using hs
      · next h1 h2 =>
        simp only [Cells.keys, List.map_cons, List.pairwise_cons]
        refine ⟨fun a ha => ?_, ih hs.2⟩
        rcases Cells.keys_insert_mem ha with rfl | ha
        · omega
        · exact hs.1 a ha

theorem Cells.erase_sublist (m : Cells α) (k : Nat) : (Cells.erase m k).Sublist m := by
  induction m with
  | nil => simp [Cells.erase]
  | cons e m ih =>
    unfold Cells.erase
    split
    · exact List.sublist_cons_self _ _
    · exact ih.cons_cons e

theorem Cells.mem_insert {m : Cells α} {k : Nat} {v : α} {e : Nat × α} (h : e ∈ Cells.insert m k v) : e = (k, v) ∨ e ∈ m := by
  induction m with
  | nil => simpa [Cells.insert] using h
  | cons x m ih =>
    unfold Cells.insert at h
    split at h
    · simpa using h
    · split at h
      · rcases List.mem_cons.1 h with h | h
        · exact .inl h
        · exact .inr (List.mem_cons_of_mem _ h)
      · rcases List.mem_cons.1 h with h | h
        · exact .inr (by simp [h])
        · rcases ih h with h | h
          · exact .inl h
          · exact .inr (List.mem_cons_of_mem _ h)

/-- Every write keeps the canonical form. -/
theorem Cells.write_wf [DecidableEq α] {dflt : Nat → Option α} {m : Cells α} (h : Cells.Wf dflt m) (k : Nat) (v : α) :
    Cells.Wf dflt (Cells.write dflt m k v) := by
  unfold Cells.write
  split
  · exact ⟨h.1.sublist ((Cells.erase_sublist m k).map _), fun e he => h.2 e ((Cells.erase_sublist m k).subset he)⟩
  · next hd =>
    refine ⟨Cells.insert_rising h.1 k v, fun e he => ?_⟩
    rcases Cells.mem_insert he with rfl | he
    · exact hd
    · exact h.2 e he

/-- The empty list is in canonical form. -/
theorem Cells.nil_wf [DecidableEq α] (dflt : Nat → Option α) : Cells.Wf dflt ([] : Cells α) := ⟨.nil, by simp⟩

/-! ### Trie space and table space -/

/-- Two cells have one address only when they are one cell (R61). -/
theorem trieAddr_inj {c c' : Code} {b b' : Byte} : trieAddr c b = trieAddr c' b' ↔ c = c' ∧ b = b' := by
  unfold trieAddr
  have := b.isLt; have := b'.isLt
  constructor
  · intro h
    exact ⟨BitVec.eq_of_toNat_eq (by omega), BitVec.eq_of_toNat_eq (by omega)⟩
  · rintro ⟨rfl, rfl⟩; rfl

/-- `MemRead` after `MemWrite` in trie space (R61). -/
theorem trieRead_trieWrite (t : Cells Code) (c c' : Code) (b b' : Byte) (n : Code) :
    trieRead (trieWrite t c b n) c' b' = if c' = c ∧ b' = b then some n else trieRead t c' b' := by
  have : trieWrite t c b n = Cells.insert t (trieAddr c b) n := by simp [trieWrite, Cells.write, trieDefault]
  simp only [trieRead, Cells.read_eq, this, Cells.find_insert, trieAddr_inj]
  split <;> rfl

/-- The cleared trie has no child anywhere (R132). -/
@[simp] theorem trieRead_nil (c : Code) (b : Byte) : trieRead [] c b = none := rfl

theorem trieWrite_wf {t : Cells Code} (h : Cells.Wf trieDefault t) (c : Code) (b : Byte) (n : Code) :
    Cells.Wf trieDefault (trieWrite t c b n) := Cells.write_wf h _ _

/-- `MemRead` after `MemWrite` in table space (R62). -/
theorem tblRead_tblWrite {t : Cells Phrase} (h : Cells.Wf tblDefault t) (i j : Nat) (p : Phrase) :
    tblRead (tblWrite t i p) j = if j = i then some p else tblRead t j := Cells.read_write h.1 i j p

/-- The seeded table: slot `b < 256` holds `[b]`, every other slot nothing (R147). -/
theorem tblRead_nil (i : Nat) : tblRead [] i = if i < 256 then some (Phrase.single (BitVec.ofNat 8 i)) else none := rfl

theorem tblWrite_wf {t : Cells Phrase} (h : Cells.Wf tblDefault t) (i : Nat) (p : Phrase) :
    Cells.Wf tblDefault (tblWrite t i p) := Cells.write_wf h _ _

/-- The spaces of the state after reset are in canonical form. -/
theorem State.reset_wf : Cells.Wf trieDefault State.reset.enc.trie ∧ Cells.Wf tblDefault State.reset.dec.tbl :=
  ⟨Cells.nil_wf _, Cells.nil_wf _⟩

end Sys2Proof.Machine
end

