-- ==== Sys2Proof/Laws/Decode.lean ====
section
/-! SUPPORT. Laws/Decode.lean: what the decoder answers, slot by slot, and the widths of what it reads. -/

namespace Sys2Proof

theorem takeValue_eq_ok {n : Nat} {bits : List Bool} {r : Nat × List Bool} :
    takeValue n bits = .ok r ↔ n ≤ bits.length ∧ r = (bitsToNat (bits.take n), bits.drop n) := by
  unfold takeValue
  by_cases h : bits.length < n
  · simp [h]
  · simp [h, Nat.le_of_not_lt h, eq_comm]

theorem takeValue_eq_error {n : Nat} {bits : List Bool} {e : DecodeError} :
    takeValue n bits = .error e ↔ bits.length < n ∧ e = .tooShort := by
  unfold takeValue
  by_cases h : bits.length < n <;> simp [h, eq_comm]

theorem takeValue_of_le {n : Nat} {bits : List Bool} (h : n ≤ bits.length) :
    takeValue n bits = .ok (bitsToNat (bits.take n), bits.drop n) := takeValue_eq_ok.2 ⟨h, rfl⟩

/-- A value written in `w` bits is what is read at the front of them. -/
theorem takeValue_natBits {w v : Nat} (h : v < 2 ^ w) (rest : List Bool) :
    takeValue w (natBits w v ++ rest) = .ok (v, rest) := by
  rw [takeValue_of_le (by simp), List.take_left' (natBits_length w v), List.drop_left' (natBits_length w v),
    bitsToNat_natBits_of_lt h]

theorem decode_header_of_le {bits : List Bool} (h : 2 ≤ bits.length) :
    decode .header bits = .ok (decodeHeader (bitsToNat (bits.take 2)), bits.drop 2) := by
  simp [decode, takeValue_of_le h, Except.map]

theorem decode_marker_of_le {bits : List Bool} (h : 16 ≤ bits.length) :
    decode .marker bits = .ok (decodeMarker (bitsToNat (bits.take 16)), bits.drop 16) := by
  simp [decode, takeValue_of_le h, Except.map]

theorem decode_data_of_le {f : CwFormat} {next : Nat} {bits : List Bool} (h : f.width ≤ bits.length) :
    decode (.data f.width next) bits =
      .ok (f.instr (classify next (BitVec.ofNat f.width (bitsToNat (bits.take f.width)))), bits.drop f.width) := by
  have hf : CwFormat.ofWidth f.width = some f := by cases f <;> rfl
  simp only [decode, hf, takeValue_of_le h, Except.map]

theorem decode_header_of_lt {bits : List Bool} (h : bits.length < 2) : decode .header bits = .error .tooShort := by
  simp [decode, takeValue, h, Except.map]

theorem decode_marker_of_lt {bits : List Bool} (h : bits.length < 16) : decode .marker bits = .error .tooShort := by
  simp [decode, takeValue, h, Except.map]

theorem decode_data_of_lt {f : CwFormat} {next : Nat} {bits : List Bool} (h : bits.length < f.width) :
    decode (.data f.width next) bits = .error .tooShort := by
  have hf : CwFormat.ofWidth f.width = some f := by cases f <;> rfl
  simp only [decode, hf, takeValue, if_pos h, Except.map]

/-- What a data slot of format `f` holds is one of the five symbols of that format (R82). -/
theorem CwFormat.instr_slot (f : CwFormat) (c : CwClass f.width) (n : Nat) : (f.instr c).slot n = .data f.width n := by
  cases f <;> cases c <;> rfl

theorem CwFormat.instr_width (f : CwFormat) (c : CwClass f.width) : (f.instr c).width = f.width := by
  cases f <;> cases c <;> rfl

theorem decodeHeader_slot (v n : Nat) : (decodeHeader v).slot n = .header := by
  unfold decodeHeader; split <;> rfl

theorem decodeMarker_slot (v n : Nat) : (decodeMarker v).slot n = .marker := by
  unfold decodeMarker; split <;> rfl

/-- What a stream slot holds is never a command. -/
theorem decode_slot_ne_command {slot : Slot} {bits : List Bool} {r : Instr × List Bool} (n : Nat) (hs : slot ≠ .command)
    (h : decode slot bits = .ok r) : r.1.slot n ≠ .command := by
  cases slot with
  | command => exact absurd rfl hs
  | header =>
    by_cases hl : 2 ≤ bits.length
    · rw [decode_header_of_le hl] at h; cases h; simp [decodeHeader_slot]
    · rw [decode_header_of_lt (by omega)] at h; cases h
  | marker =>
    by_cases hl : 16 ≤ bits.length
    · rw [decode_marker_of_le hl] at h; cases h; simp [decodeMarker_slot]
    · rw [decode_marker_of_lt (by omega)] at h; cases h
  | data w next =>
    cases hf : CwFormat.ofWidth w with
    | none => simp [decode, hf] at h
    | some f =>
      have hw : w = f.width := by unfold CwFormat.ofWidth at hf; split at hf <;> cases hf <;> rfl
      subst hw
      by_cases hl : f.width ≤ bits.length
      · rw [decode_data_of_le hl] at h; cases h; simp [CwFormat.instr_slot]
      · rw [decode_data_of_lt (by omega)] at h; cases h

end Sys2Proof
end

