-- ==== Sys2Proof/Laws/State.lean ====
section
/-! SUPPORT. Laws/State.lean: one lemma per field per named update of the state, so that no proof unfolds one. -/

namespace Sys2Proof.Machine

/-! ### Replacing a unit or its registers -/

@[simp] theorem State.withEnc_enc (s : State) (e : Enc) : (s.withEnc e).enc = e := rfl
@[simp] theorem State.withEnc_dec (s : State) (e : Enc) : (s.withEnc e).dec = s.dec := rfl
@[simp] theorem State.withEnc_port (s : State) (e : Enc) : (s.withEnc e).port = s.port := rfl
@[simp] theorem State.withEnc_target (s : State) (e : Enc) : (s.withEnc e).target = s.target := rfl
@[simp] theorem State.withEnc_withEnc (s : State) (a b : Enc) : (s.withEnc a).withEnc b = s.withEnc b := rfl
@[simp] theorem State.withEnc_self (s : State) : s.withEnc s.enc = s := rfl

@[simp] theorem State.withDec_enc (s : State) (d : Dec) : (s.withDec d).enc = s.enc := rfl
@[simp] theorem State.withDec_dec (s : State) (d : Dec) : (s.withDec d).dec = d := rfl
@[simp] theorem State.withDec_port (s : State) (d : Dec) : (s.withDec d).port = s.port := rfl
@[simp] theorem State.withDec_target (s : State) (d : Dec) : (s.withDec d).target = s.target := rfl
@[simp] theorem State.withDec_withDec (s : State) (a b : Dec) : (s.withDec a).withDec b = s.withDec b := rfl
@[simp] theorem State.withDec_self (s : State) : s.withDec s.dec = s := rfl

@[simp] theorem Enc.withRegs_regs (e : Enc) (r : Regs) : (e.withRegs r).regs = r := rfl
@[simp] theorem Enc.withRegs_trie (e : Enc) (r : Regs) : (e.withRegs r).trie = e.trie := rfl
@[simp] theorem Enc.withRegs_acc (e : Enc) (r : Regs) : (e.withRegs r).acc = e.acc := rfl
@[simp] theorem Enc.withRegs_src (e : Enc) (r : Regs) : (e.withRegs r).src = e.src := rfl
@[simp] theorem Enc.withRegs_snk (e : Enc) (r : Regs) : (e.withRegs r).snk = e.snk := rfl
@[simp] theorem Enc.withRegs_rsp (e : Enc) (r : Regs) : (e.withRegs r).rsp = e.rsp := rfl
@[simp] theorem Enc.withRegs_withRegs (e : Enc) (a b : Regs) : (e.withRegs a).withRegs b = e.withRegs b := rfl
@[simp] theorem Enc.withRegs_self (e : Enc) : e.withRegs e.regs = e := rfl

@[simp] theorem Dec.withRegs_regs (d : Dec) (r : Regs) : (d.withRegs r).regs = r := rfl
@[simp] theorem Dec.withRegs_tbl (d : Dec) (r : Regs) : (d.withRegs r).tbl = d.tbl := rfl
@[simp] theorem Dec.withRegs_prev (d : Dec) (r : Regs) : (d.withRegs r).prev = d.prev := rfl
@[simp] theorem Dec.withRegs_prevValid (d : Dec) (r : Regs) : (d.withRegs r).prevValid = d.prevValid := rfl
@[simp] theorem Dec.withRegs_pending (d : Dec) (r : Regs) : (d.withRegs r).pending = d.pending := rfl
@[simp] theorem Dec.withRegs_rem (d : Dec) (r : Regs) : (d.withRegs r).rem = d.rem := rfl
@[simp] theorem Dec.withRegs_src (d : Dec) (r : Regs) : (d.withRegs r).src = d.src := rfl
@[simp] theorem Dec.withRegs_snk (d : Dec) (r : Regs) : (d.withRegs r).snk = d.snk := rfl
@[simp] theorem Dec.withRegs_rsp (d : Dec) (r : Regs) : (d.withRegs r).rsp = d.rsp := rfl
@[simp] theorem Dec.withRegs_withRegs (d : Dec) (a b : Regs) : (d.withRegs a).withRegs b = d.withRegs b := rfl
@[simp] theorem Dec.withRegs_self (d : Dec) : d.withRegs d.regs = d := rfl

/-! ### Fault entry: only ST and FAULT_CODE can change (R240) -/

/-- In FAULT a `raise` does nothing: the first fault is kept. -/
@[simp] theorem Regs.raise_of_fault {r : Regs} (h : r.st = .fault) (f : FaultCause) : r.raise f = r := by
  simp [Regs.raise, h]

/-- Outside FAULT a `raise` writes the code and the state. -/
theorem Regs.raise_of_ne_fault {r : Regs} (h : r.st ≠ .fault) (f : FaultCause) :
    r.raise f = { r with st := .fault, faultCode := f.code } := by
  simp [Regs.raise, h]

@[simp] theorem Regs.raise_st (r : Regs) (f : FaultCause) : (r.raise f).st = .fault := by
  unfold Regs.raise; split <;> simp_all
@[simp] theorem Regs.raise_mode (r : Regs) (f : FaultCause) : (r.raise f).mode = r.mode := by
  unfold Regs.raise; split <;> rfl
@[simp] theorem Regs.raise_w (r : Regs) (f : FaultCause) : (r.raise f).w = r.w := by
  unfold Regs.raise; split <;> rfl
@[simp] theorem Regs.raise_next (r : Regs) (f : FaultCause) : (r.raise f).next = r.next := by
  unfold Regs.raise; split <;> rfl
@[simp] theorem Regs.raise_u (r : Regs) (f : FaultCause) : (r.raise f).u = r.u := by
  unfold Regs.raise; split <;> rfl
@[simp] theorem Regs.raise_c (r : Regs) (f : FaultCause) : (r.raise f).c = r.c := by
  unfold Regs.raise; split <;> rfl
@[simp] theorem Regs.raise_u0 (r : Regs) (f : FaultCause) : (r.raise f).u0 = r.u0 := by
  unfold Regs.raise; split <;> rfl
@[simp] theorem Regs.raise_c0 (r : Regs) (f : FaultCause) : (r.raise f).c0 = r.c0 := by
  unfold Regs.raise; split <;> rfl
@[simp] theorem Regs.raise_latched (r : Regs) (f : FaultCause) : (r.raise f).latched = r.latched := by
  unfold Regs.raise; split <;> rfl
theorem Regs.raise_faultCode (r : Regs) (f : FaultCause) :
    (r.raise f).faultCode = if r.st = .fault then r.faultCode else f.code := by
  unfold Regs.raise; split <;> rfl

@[simp] theorem Enc.raise_regs (e : Enc) (f : FaultCause) : (e.raise f).regs = e.regs.raise f := rfl
@[simp] theorem Enc.raise_trie (e : Enc) (f : FaultCause) : (e.raise f).trie = e.trie := rfl
@[simp] theorem Enc.raise_acc (e : Enc) (f : FaultCause) : (e.raise f).acc = e.acc := rfl
@[simp] theorem Enc.raise_src (e : Enc) (f : FaultCause) : (e.raise f).src = e.src := rfl
@[simp] theorem Enc.raise_snk (e : Enc) (f : FaultCause) : (e.raise f).snk = e.snk := rfl
@[simp] theorem Enc.raise_rsp (e : Enc) (f : FaultCause) : (e.raise f).rsp = e.rsp := rfl
@[simp] theorem Dec.raise_regs (d : Dec) (f : FaultCause) : (d.raise f).regs = d.regs.raise f := rfl
@[simp] theorem Dec.raise_tbl (d : Dec) (f : FaultCause) : (d.raise f).tbl = d.tbl := rfl
@[simp] theorem Dec.raise_prev (d : Dec) (f : FaultCause) : (d.raise f).prev = d.prev := rfl
@[simp] theorem Dec.raise_prevValid (d : Dec) (f : FaultCause) : (d.raise f).prevValid = d.prevValid := rfl
@[simp] theorem Dec.raise_pending (d : Dec) (f : FaultCause) : (d.raise f).pending = d.pending := rfl
@[simp] theorem Dec.raise_rem (d : Dec) (f : FaultCause) : (d.raise f).rem = d.rem := rfl
@[simp] theorem Dec.raise_src (d : Dec) (f : FaultCause) : (d.raise f).src = d.src := rfl
@[simp] theorem Dec.raise_snk (d : Dec) (f : FaultCause) : (d.raise f).snk = d.snk := rfl
@[simp] theorem Dec.raise_rsp (d : Dec) (f : FaultCause) : (d.raise f).rsp = d.rsp := rfl

/-- In FAULT a `raise` of ENC changes nothing. -/
theorem Enc.raise_of_fault {e : Enc} (h : e.regs.st = .fault) (f : FaultCause) : e.raise f = e := by
  simp [Enc.raise, h]

/-- In FAULT a `raise` of DEC changes nothing. -/
theorem Dec.raise_of_fault {d : Dec} (h : d.regs.st = .fault) (f : FaultCause) : d.raise f = d := by
  simp [Dec.raise, h]

/-! ### Hardware reset (R255) -/

@[simp] theorem Enc.hwReset_regs (e : Enc) : e.hwReset.regs = Regs.reset := rfl
@[simp] theorem Enc.hwReset_src (e : Enc) : e.hwReset.src = e.src := rfl
@[simp] theorem Enc.hwReset_snk (e : Enc) : e.hwReset.snk = [] := rfl
@[simp] theorem Enc.hwReset_acc (e : Enc) : e.hwReset.acc = [] := rfl
@[simp] theorem Dec.hwReset_regs (d : Dec) : d.hwReset.regs = Regs.reset := rfl
@[simp] theorem Dec.hwReset_src (d : Dec) : d.hwReset.src = d.src := rfl
@[simp] theorem Dec.hwReset_snk (d : Dec) : d.hwReset.snk = [] := rfl
@[simp] theorem Dec.hwReset_rem (d : Dec) : d.hwReset.rem = [] := rfl
@[simp] theorem Dec.hwReset_prevValid (d : Dec) : d.hwReset.prevValid = false := rfl

end Sys2Proof.Machine
end

