-- ==== Sys2Proof/Laws/Ops.lean ====
section
/-! SUPPORT. Laws/Ops.lean: what the shared operations can do: sequencing, counters, the command port, the bit channel. -/

namespace Sys2Proof.Machine

/-! ### Sequencing -/

section
variable {σ ρ α β : Type}

@[simp] theorem Run.bind_ok (a : α) (s : σ) (k : α → σ → Run σ β) : (Run.ok a s).bind k = k a s := rfl
@[simp] theorem Run.bind_raised (s : σ) (k : α → σ → Run σ β) : (Run.raised s : Run σ α).bind k = .raised s := rfl
@[simp] theorem Run.bind_stuck (f : Fault) (k : α → σ → Run σ β) : (Run.stuck f : Run σ α).bind k = .stuck f := rfl
@[simp] theorem Run.lift_ok (a : α) (s : ρ) (put : ρ → σ) : (Run.ok a s).lift put = .ok a (put s) := rfl
@[simp] theorem Run.lift_raised (s : ρ) (put : ρ → σ) : (Run.raised s : Run ρ α).lift put = .raised (put s) := rfl
@[simp] theorem Run.lift_stuck (f : Fault) (put : ρ → σ) : (Run.stuck f : Run ρ α).lift put = .stuck f := rfl
@[simp] theorem Run.outcome_ok (a : α) (s : σ) (put : σ → State) : (Run.ok a s).outcome put = .next (put s) := rfl
@[simp] theorem Run.outcome_raised (s : σ) (put : σ → State) : (Run.raised s : Run σ α).outcome put = .next (put s) := rfl
@[simp] theorem Run.outcome_stuck (f : Fault) (put : σ → State) : (Run.stuck f : Run σ α).outcome put = .fault f := rfl

/-- A sequence goes on to its end only through both of its parts. -/
theorem Run.bind_eq_ok {r : Run σ α} {k : α → σ → Run σ β} {b : β} {t : σ} :
    r.bind k = .ok b t ↔ ∃ a s, r = .ok a s ∧ k a s = .ok b t := by
  cases r <;> simp

/-- A sequence raises in its first part or, that having gone on, in its second. -/
theorem Run.bind_eq_raised {r : Run σ α} {k : α → σ → Run σ β} {t : σ} :
    r.bind k = .raised t ↔ r = .raised t ∨ ∃ a s, r = .ok a s ∧ k a s = .raised t := by
  cases r <;> simp

/-- A sequence gets stuck in its first part or, that having gone on, in its second. -/
theorem Run.bind_eq_stuck {r : Run σ α} {k : α → σ → Run σ β} {f : Fault} :
    r.bind k = .stuck f ↔ r = .stuck f ∨ ∃ a s, r = .ok a s ∧ k a s = .stuck f := by
  cases r <;> simp

/-- An operation gives a next state by going on or by raising. -/
theorem Run.outcome_eq_next {r : Run σ α} {put : σ → State} {t : State} :
    r.outcome put = .next t ↔ ∃ s, ((∃ a, r = .ok a s) ∨ r = .raised s) ∧ put s = t := by
  cases r <;> simp

/-- Sequencing is associative. -/
theorem Run.bind_assoc {γ : Type} (r : Run σ α) (k : α → σ → Run σ β) (l : β → σ → Run σ γ) :
    (r.bind k).bind l = r.bind fun a s => (k a s).bind l := by
  cases r <;> rfl

end

/-! ### Counters -/

/-- `COUNT_U` adds `8 k` bits or raises CounterOverflow; nothing else changes (R170, R172). -/
theorem Regs.countU_cases (k : Nat) (r : Regs) :
    (r.u.toNat + 8 * k < 2 ^ 64 ∧ r.countU k = .ok () { r with u := BitVec.ofNat 64 (r.u.toNat + 8 * k) }) ∨
      (2 ^ 64 ≤ r.u.toNat + 8 * k ∧ r.countU k = .raised (r.raise .counterOverflow)) := by
  unfold Regs.countU Config.countLimit; split
  · exact .inl ⟨‹_›, rfl⟩
  · exact .inr ⟨by omega, rfl⟩

/-- `COUNT_C` adds `w` bits or raises CounterOverflow; nothing else changes (R171, R172). -/
theorem Regs.countC_cases (w : Nat) (r : Regs) :
    (r.c.toNat + w < 2 ^ 64 ∧ r.countC w = .ok () { r with c := BitVec.ofNat 64 (r.c.toNat + w) }) ∨
      (2 ^ 64 ≤ r.c.toNat + w ∧ r.countC w = .raised (r.raise .counterOverflow)) := by
  unfold Regs.countC Config.countLimit; split
  · exact .inl ⟨‹_›, rfl⟩
  · exact .inr ⟨by omega, rfl⟩

theorem Enc.countU_of_lt {k : Nat} {e : Enc} (h : e.regs.u.toNat + 8 * k < 2 ^ 64) :
    e.countU k = .ok () (e.withRegs { e.regs with u := BitVec.ofNat 64 (e.regs.u.toNat + 8 * k) }) := by
  simp [Enc.countU, Regs.countU, h]

theorem Enc.countC_of_lt {w : Nat} {e : Enc} (h : e.regs.c.toNat + w < 2 ^ 64) :
    e.countC w = .ok () (e.withRegs { e.regs with c := BitVec.ofNat 64 (e.regs.c.toNat + w) }) := by
  simp [Enc.countC, Regs.countC, h]

theorem Dec.countU_of_lt {k : Nat} {d : Dec} (h : d.regs.u.toNat + 8 * k < 2 ^ 64) :
    d.countU k = .ok () (d.withRegs { d.regs with u := BitVec.ofNat 64 (d.regs.u.toNat + 8 * k) }) := by
  simp [Dec.countU, Regs.countU, h]

theorem Dec.countC_of_lt {w : Nat} {d : Dec} (h : d.regs.c.toNat + w < 2 ^ 64) :
    d.countC w = .ok () (d.withRegs { d.regs with c := BitVec.ofNat 64 (d.regs.c.toNat + w) }) := by
  simp [Dec.countC, Regs.countC, h]

theorem Enc.countC_of_le {w : Nat} {e : Enc} (h : 2 ^ 64 ≤ e.regs.c.toNat + w) :
    e.countC w = .raised (e.raise .counterOverflow) := by
  simp [Enc.countC, Regs.countC, Nat.not_lt.2 h, Enc.raise]

theorem Dec.countC_of_le {w : Nat} {d : Dec} (h : 2 ^ 64 ≤ d.regs.c.toNat + w) :
    d.countC w = .raised (d.raise .counterOverflow) := by
  simp [Dec.countC, Regs.countC, Nat.not_lt.2 h, Dec.raise]

theorem Enc.countU_of_le {k : Nat} {e : Enc} (h : 2 ^ 64 ≤ e.regs.u.toNat + 8 * k) :
    e.countU k = .raised (e.raise .counterOverflow) := by
  simp [Enc.countU, Regs.countU, Nat.not_lt.2 h, Enc.raise]

theorem Dec.countU_of_le {k : Nat} {d : Dec} (h : 2 ^ 64 ≤ d.regs.u.toNat + 8 * k) :
    d.countU k = .raised (d.raise .counterOverflow) := by
  simp [Dec.countU, Regs.countU, Nat.not_lt.2 h, Dec.raise]

/-! ### The command port -/

@[simp] theorem State.clearRsp_target (s : State) : s.clearRsp.target = s.target := by
  unfold State.clearRsp; split <;> rfl
@[simp] theorem State.clearRsp_port (s : State) : s.clearRsp.port = s.port := by
  unfold State.clearRsp; split <;> rfl
@[simp] theorem State.clearRsp_clearRsp (s : State) : s.clearRsp.clearRsp = s.clearRsp := by
  unfold State.clearRsp; cases h : s.target <;> simp [h]
@[simp] theorem State.protocolError_target (s : State) : s.protocolError.target = s.target := by
  unfold State.protocolError; split <;> rfl
@[simp] theorem State.protocolError_port (s : State) : s.protocolError.port = s.port := by
  unfold State.protocolError; split <;> rfl

theorem State.clearRsp_of_enc {s : State} (h : s.target = .enc) : s.clearRsp = s.withEnc { s.enc with rsp := none } := by
  simp [State.clearRsp, h]
theorem State.clearRsp_of_dec {s : State} (h : s.target = .dec) : s.clearRsp = s.withDec { s.dec with rsp := none } := by
  simp [State.clearRsp, h]

/-- A command of ENC that reaches ENC runs on ENC alone, with the answer cleared. -/
theorem encCommand_of_enc {s : State} (h : s.target = .enc) (op : Enc → Run Enc Unit) :
    encCommand op s = (op { s.enc with rsp := none }).outcome s.withEnc := by
  simp only [encCommand, command, h, if_true, State.clearRsp_of_enc h, State.withEnc_enc]
  rfl

/-- A command of ENC that reaches DEC is a ProtocolError there. -/
theorem encCommand_of_dec {s : State} (h : s.target = .dec) (op : Enc → Run Enc Unit) :
    encCommand op s = .next (s.withDec ({ s.dec with rsp := none }.raise .protocolError)) := by
  simp [encCommand, command, h, State.clearRsp_of_dec h, State.protocolError]

/-- A command of DEC that reaches DEC runs on DEC alone, with the answer cleared. -/
theorem decCommand_of_dec {s : State} (h : s.target = .dec) (op : Dec → Run Dec Unit) :
    decCommand op s = (op { s.dec with rsp := none }).outcome s.withDec := by
  simp only [decCommand, command, h, if_true, State.clearRsp_of_dec h, State.withDec_dec]
  rfl

/-- A command of DEC that reaches ENC is a ProtocolError there. -/
theorem decCommand_of_enc {s : State} (h : s.target = .enc) (op : Dec → Run Dec Unit) :
    decCommand op s = .next (s.withEnc ({ s.enc with rsp := none }.raise .protocolError)) := by
  simp [decCommand, command, h, State.clearRsp_of_enc h, State.protocolError]

theorem Enc.require_of_eq {e : Enc} {want : UnitState} (h : e.regs.st = want) (op : Enc → Run Enc Unit) :
    Enc.require want op e = op e := by simp [Enc.require, h]
theorem Enc.require_of_ne {e : Enc} {want : UnitState} (h : e.regs.st ≠ want) (op : Enc → Run Enc Unit) :
    Enc.require want op e = .raised (e.raise .protocolError) := by simp [Enc.require, h]
theorem Dec.require_of_eq {d : Dec} {want : UnitState} (h : d.regs.st = want) (op : Dec → Run Dec Unit) :
    Dec.require want op d = op d := by simp [Dec.require, h]
theorem Dec.require_of_ne {d : Dec} {want : UnitState} (h : d.regs.st ≠ want) (op : Dec → Run Dec Unit) :
    Dec.require want op d = .raised (d.raise .protocolError) := by simp [Dec.require, h]

/-! ### The packer -/

/-- One bit goes to the partial byte or completes it; only `PK.ACC` and the sink change (R112). -/
theorem putBit_frame (e : Enc) (b : Bool) :
    ∃ acc snk, putBit e b = { e with acc := acc, snk := snk } := by
  unfold putBit; split <;> exact ⟨_, _, rfl⟩

/-- Bits written change only `PK.ACC` and the sink (R112). -/
theorem putBits_frame (e : Enc) (bits : List Bool) :
    ∃ acc snk, putBits e bits = { e with acc := acc, snk := snk } := by
  induction bits generalizing e with
  | nil => exact ⟨e.acc, e.snk, rfl⟩
  | cons b bs ih =>
    obtain ⟨acc, snk, h⟩ := putBit_frame e b
    obtain ⟨acc', snk', h'⟩ := ih (putBit e b)
    refine ⟨acc', snk', ?_⟩
    rw [show putBits e (b :: bs) = putBits (putBit e b) bs from rfl, h', h]

@[simp] theorem putBits_regs (e : Enc) (bits : List Bool) : (putBits e bits).regs = e.regs := by
  obtain ⟨_, _, h⟩ := putBits_frame e bits; rw [h]
@[simp] theorem putBits_trie (e : Enc) (bits : List Bool) : (putBits e bits).trie = e.trie := by
  obtain ⟨_, _, h⟩ := putBits_frame e bits; rw [h]
@[simp] theorem putBits_src (e : Enc) (bits : List Bool) : (putBits e bits).src = e.src := by
  obtain ⟨_, _, h⟩ := putBits_frame e bits; rw [h]
@[simp] theorem putBits_rsp (e : Enc) (bits : List Bool) : (putBits e bits).rsp = e.rsp := by
  obtain ⟨_, _, h⟩ := putBits_frame e bits; rw [h]

/-- One bit written comes after all the others, and the partial byte stays partial (R112, R113). -/
theorem putBit_written {e : Enc} (h : e.acc.length < 8) (b : Bool) :
    written (putBit e b) = written e ++ [b] ∧ (putBit e b).acc.length < 8 := by
  unfold putBit written
  split
  · next h8 =>
    have : natBits 8 (byteOfBits (e.acc ++ [b])).toNat = e.acc ++ [b] := natBits_byteOfBits (by simpa using h8)
    simp [bytesToBits_cons, this]
  · exact ⟨by simp, by simp; omega⟩

/-- Bits written come after all the others, in their order, and the partial byte stays partial (R112, R113). -/
theorem putBits_written {e : Enc} (h : e.acc.length < 8) (bits : List Bool) :
    written (putBits e bits) = written e ++ bits ∧ (putBits e bits).acc.length < 8 := by
  induction bits generalizing e with
  | nil => exact ⟨by simp [putBits], h⟩
  | cons b bs ih =>
    obtain ⟨hw, hl⟩ := putBit_written h b
    obtain ⟨hw', hl'⟩ := ih hl
    exact ⟨by rw [show putBits e (b :: bs) = putBits (putBit e b) bs from rfl, hw', hw]; simp, hl'⟩

/-- The sink only grows (R63). -/
theorem putBits_snk_isPrefix (e : Enc) (bits : List Bool) : e.snk <+: (putBits e bits).snk := by
  induction bits generalizing e with
  | nil => exact List.prefix_rfl
  | cons b bs ih =>
    refine List.IsPrefix.trans ?_ (ih (putBit e b))
    unfold putBit; split
    · exact List.prefix_append _ _
    · exact List.prefix_rfl

/-- Everything `BC.WRITE` can do: one of its two faults with nothing moved, or the bits appended (R112, D16). -/
theorem bcWrite_cases (v w : Nat) (e : Enc) :
    ((w < 1 ∨ 32 < w) ∧ bcWrite v w e = .raised (e.raise .invalidWidth)) ∨
      (1 ≤ w ∧ w ≤ 32 ∧ 2 ^ w ≤ v ∧ bcWrite v w e = .raised (e.raise .valueOutOfRange)) ∨
      (1 ≤ w ∧ w ≤ 32 ∧ v < 2 ^ w ∧ bcWrite v w e = .ok () (putBits e (natBits w v))) := by
  unfold bcWrite Config.bcMinW Config.bcMaxW
  split
  · exact .inl ⟨‹_›, rfl⟩
  · split
    · exact .inr (.inl ⟨by omega, by omega, ‹_›, rfl⟩)
    · exact .inr (.inr ⟨by omega, by omega, by omega, rfl⟩)

theorem bcWrite_of_fits {v w : Nat} (h1 : 1 ≤ w) (h2 : w ≤ 32) (hv : v < 2 ^ w) (e : Enc) :
    bcWrite v w e = .ok () (putBits e (natBits w v)) := by
  rcases bcWrite_cases v w e with ⟨h, _⟩ | ⟨_, _, h, _⟩ | ⟨_, _, _, h⟩
  · omega
  · omega
  · exact h

/-- Everything `BC.FLUSH` can do: nothing on a byte boundary, else one padded byte (R114). -/
theorem bcFlush_cases (e : Enc) :
    (e.acc = [] ∧ bcFlush e = e) ∨
      (e.acc ≠ [] ∧ bcFlush e =
        { e with acc := [], snk := e.snk ++ [byteOfBits (e.acc ++ List.replicate (8 - e.acc.length) false)] }) := by
  unfold bcFlush; split
  · exact .inl ⟨‹_›, rfl⟩
  · exact .inr ⟨‹_›, rfl⟩

@[simp] theorem bcFlush_regs (e : Enc) : (bcFlush e).regs = e.regs := by unfold bcFlush; split <;> rfl
@[simp] theorem bcFlush_trie (e : Enc) : (bcFlush e).trie = e.trie := by unfold bcFlush; split <;> rfl
@[simp] theorem bcFlush_src (e : Enc) : (bcFlush e).src = e.src := by unfold bcFlush; split <;> rfl
@[simp] theorem bcFlush_rsp (e : Enc) : (bcFlush e).rsp = e.rsp := by unfold bcFlush; split <;> rfl
@[simp] theorem bcFlush_acc (e : Enc) : (bcFlush e).acc = [] := by
  unfold bcFlush; split
  · assumption
  · rfl

/-- After a flush every written bit is in the sink, followed by the zero bits that fill the last byte (R71, R114). -/
theorem bcFlush_written {e : Enc} (h : e.acc.length < 8) :
    bytesToBits (bcFlush e).snk = written e ++ List.replicate ((8 - e.acc.length) % 8) false := by
  unfold bcFlush written
  split
  · next h0 => simp [h0]
  · next h0 =>
    have hpos : 0 < e.acc.length := List.length_pos_iff.2 h0
    have hl : (e.acc ++ List.replicate (8 - e.acc.length) false).length = 8 := by simp; omega
    simp [bytesToBits_cons, natBits_byteOfBits hl, Nat.mod_eq_of_lt (show 8 - e.acc.length < 8 by omega)]

/-! ### The unpacker -/

/-- Everything `BC.READ` can do: one of its two faults with nothing consumed, or the value and the rest (R117, D16). -/
theorem bcRead_cases (w : Nat) (d : Dec) :
    ((w < 1 ∨ 32 < w) ∧ bcRead w d = .raised (d.raise .invalidWidth)) ∨
      (1 ≤ w ∧ w ≤ 32 ∧ d.rem.length < w ∧ bcRead w d = .raised (d.raise .endOfStream)) ∨
      (1 ≤ w ∧ w ≤ 32 ∧ w ≤ d.rem.length ∧
        bcRead w d = .ok (bitsToNat (d.rem.take w)) { d with rem := d.rem.drop w }) := by
  unfold bcRead Config.bcMinW Config.bcMaxW
  split
  · exact .inl ⟨‹_›, rfl⟩
  · split
    · exact .inr (.inl ⟨by omega, by omega, ‹_›, rfl⟩)
    · exact .inr (.inr ⟨by omega, by omega, by omega, rfl⟩)

theorem bcRead_of_le {w : Nat} (h1 : 1 ≤ w) (h2 : w ≤ 32) {d : Dec} (h : w ≤ d.rem.length) :
    bcRead w d = .ok (bitsToNat (d.rem.take w)) { d with rem := d.rem.drop w } := by
  rcases bcRead_cases w d with ⟨h', _⟩ | ⟨_, _, h', _⟩ | ⟨_, _, _, h'⟩
  · omega
  · omega
  · exact h'

theorem bcRead_of_lt {w : Nat} (h1 : 1 ≤ w) (h2 : w ≤ 32) {d : Dec} (h : d.rem.length < w) :
    bcRead w d = .raised (d.raise .endOfStream) := by
  rcases bcRead_cases w d with ⟨h', _⟩ | ⟨_, _, _, h'⟩ | ⟨_, _, h', _⟩
  · omega
  · exact h'
  · omega

end Sys2Proof.Machine
end

