-- ==== Sys2Proof/Laws/Codec.lean ====
section
/-! SUPPORT. Laws/Codec.lean: what the shared operations of the codec can do: ADVANCE and the policy, the dictionary, the stream symbols,
the symbol's fetch, and `exec` on a codeword of any width. -/

namespace Sys2Proof.Machine

/-! ### ADVANCE and the policy -/

/-- Everything `CHOOSE_ACTION` can answer (R163). -/
theorem chooseAction_cases (r : Regs) :
    (r.mode = .none ∧ chooseAction r = (.keepFrozen, r)) ∨
      (r.mode = .reset ∧ chooseAction r = (.doReset, r)) ∨
      (r.mode = .monitor ∧ r.latch.ratioReached = true ∧ chooseAction r = (.doReset, r.latch)) ∨
      (r.mode = .monitor ∧ r.latch.ratioReached = false ∧ chooseAction r = (.keepFrozen, r.latch)) := by
  unfold chooseAction
  cases h : r.mode
  · simp
  · simp
  · cases hr : r.latch.ratioReached <;> simp

/-- Everything `ADVANCE` can answer (R160, R161). -/
theorem advance_cases (r : Regs) :
    (r.next.toNat < 2 ^ r.w.toNat ∧ advance r = (.register, r)) ∨
      (2 ^ r.w.toNat ≤ r.next.toNat ∧ r.w.toNat < 16 ∧ advance r = (.register, { r with w := r.w + 1 })) ∨
      (2 ^ r.w.toNat ≤ r.next.toNat ∧ 16 ≤ r.w.toNat ∧ advance r = chooseAction r) := by
  unfold advance Config.wMax
  split
  · exact .inl ⟨‹_›, rfl⟩
  · split
    · exact .inr (.inl ⟨by omega, ‹_›, rfl⟩)
    · exact .inr (.inr ⟨by omega, by omega, rfl⟩)

/-- The latch writes only U0, C0 and LATCHED (R163). -/
theorem Regs.latch_frame (r : Regs) : ∃ u0 c0, r.latch = { r with u0 := u0, c0 := c0, latched := true } := by
  unfold Regs.latch; split
  · next h => exact ⟨r.u0, r.c0, by cases r; simp_all⟩
  · exact ⟨_, _, rfl⟩

/-- `ADVANCE` writes only W, U0, C0 and LATCHED (R160, R163). -/
theorem advance_frame (r : Regs) :
    ∃ w u0 c0 latched, (advance r).2 = { r with w := w, u0 := u0, c0 := c0, latched := latched } := by
  obtain ⟨u0, c0, hl⟩ := r.latch_frame
  rcases advance_cases r with ⟨_, h⟩ | ⟨_, _, h⟩ | ⟨_, _, h⟩
  · exact ⟨_, _, _, _, by rw [h]⟩
  · exact ⟨_, _, _, _, by rw [h]⟩
  · rcases chooseAction_cases r with ⟨_, h'⟩ | ⟨_, h'⟩ | ⟨_, _, h'⟩ | ⟨_, _, h'⟩
    · exact ⟨_, _, _, _, by rw [h, h']⟩
    · exact ⟨_, _, _, _, by rw [h, h']⟩
    · exact ⟨r.w, u0, c0, true, by rw [h, h', hl]⟩
    · exact ⟨r.w, u0, c0, true, by rw [h, h', hl]⟩

/-- ENC.FINISH's first line writes W alone. -/
theorem encEosWidth_frame (e : Enc) : ∃ w, encEosWidth e = e.withRegs { e.regs with w := w } := by
  unfold encEosWidth
  split
  · exact ⟨_, rfl⟩
  · exact ⟨e.regs.w, rfl⟩

@[simp] theorem advance_mode (r : Regs) : (advance r).2.mode = r.mode := by
  obtain ⟨_, _, _, _, h⟩ := advance_frame r; rw [h]
@[simp] theorem advance_next (r : Regs) : (advance r).2.next = r.next := by
  obtain ⟨_, _, _, _, h⟩ := advance_frame r; rw [h]
@[simp] theorem advance_u (r : Regs) : (advance r).2.u = r.u := by
  obtain ⟨_, _, _, _, h⟩ := advance_frame r; rw [h]
@[simp] theorem advance_c (r : Regs) : (advance r).2.c = r.c := by
  obtain ⟨_, _, _, _, h⟩ := advance_frame r; rw [h]
@[simp] theorem advance_st (r : Regs) : (advance r).2.st = r.st := by
  obtain ⟨_, _, _, _, h⟩ := advance_frame r; rw [h]
@[simp] theorem advance_faultCode (r : Regs) : (advance r).2.faultCode = r.faultCode := by
  obtain ⟨_, _, _, _, h⟩ := advance_frame r; rw [h]

/-! ### The dictionary -/

/-- The walk of `PD.LPM` matches at least what it began with and at most the whole input (R134). -/
theorem lpmWalk_length (t : Cells Code) (c : Code) (l : Nat) (bs : List Byte) :
    l ≤ (lpmWalk t c l bs).2 ∧ (lpmWalk t c l bs).2 ≤ l + bs.length := by
  induction bs generalizing c l with
  | nil => exact ⟨le_rfl, by simp [lpmWalk]⟩
  | cons b bs ih =>
    unfold lpmWalk
    split
    · exact ⟨le_rfl, by simp⟩
    · next n _ => have := ih n (l + 1); simp only [List.length_cons]; omega

/-- The node at which the walk of `PD.LPM` ends is the one it began with or the child of some cell (R134). -/
theorem lpmWalk_code (t : Cells Code) (c : Code) (l : Nat) (bs : List Byte) :
    (lpmWalk t c l bs).1 = c ∨ ∃ k b, trieRead t k b = some (lpmWalk t c l bs).1 := by
  induction bs generalizing c l with
  | nil => exact .inl rfl
  | cons b bs ih =>
    unfold lpmWalk
    split
    · exact .inl rfl
    · next n hn =>
      rcases ih n (l + 1) with h | h
      · exact .inr ⟨c, b, by rw [h]; exact hn⟩
      · exact .inr h

/-- Everything `PD.INSERT` can do: nothing on a present cell, else the one cell written (R135, D28). -/
theorem pdInsert_cases (c : Code) (b : Byte) (n : Code) (e : Enc) :
    ((∃ k, trieRead e.trie c b = some k) ∧ pdInsert c b n e = e) ∨
      (trieRead e.trie c b = none ∧ pdInsert c b n e = { e with trie := trieWrite e.trie c b n }) := by
  unfold pdInsert; split
  · exact .inl ⟨⟨_, ‹_›⟩, rfl⟩
  · exact .inr ⟨‹_›, rfl⟩

/-- Everything `CT.RESOLVE` can do (R149). -/
theorem ctResolve_cases (x : Nat) (d : Dec) :
    (x < 256 ∧ ctResolve x d = .ok (Phrase.single (BitVec.ofNat 8 x)) d) ∨
      (256 ≤ x ∧ x ≠ 257 ∧ x < d.regs.next.toNat ∧ ∃ p, tblRead d.tbl x = some p ∧ ctResolve x d = .ok p d) ∨
      (256 ≤ x ∧ x ≠ 257 ∧ x < d.regs.next.toNat ∧ tblRead d.tbl x = none ∧ ctResolve x d = .stuck .emptySlot) ∨
      (256 ≤ x ∧ x ≠ 257 ∧ x = d.regs.next.toNat ∧ d.pending = true ∧ ctResolve x d = .ok (kwkwkPhrase d) d) ∨
      (256 ≤ x ∧ ctResolve x d = .raised (d.raise .invalidCodeword)) := by
  unfold ctResolve Config.codeRst
  split
  · exact .inl ⟨‹_›, rfl⟩
  · split
    · exact .inr (.inr (.inr (.inr ⟨by omega, rfl⟩)))
    · split
      · cases h : tblRead d.tbl x
        · exact .inr (.inr (.inl ⟨by omega, ‹_›, ‹_›, rfl, rfl⟩))
        · exact .inr (.inl ⟨by omega, ‹_›, ‹_›, _, rfl, rfl⟩)
      · split
        · next h => exact .inr (.inr (.inr (.inl ⟨by omega, ‹_›, h.1, h.2, rfl⟩)))
        · exact .inr (.inr (.inr (.inr ⟨by omega, rfl⟩)))

/-! ### Stream symbols -/

/-- Counting on 64 bits is adding on 64 bits. -/
theorem count_eq_add (c : Count) (n : Nat) : BitVec.ofNat 64 (c.toNat + n) = c + BitVec.ofNat 64 n := by
  apply BitVec.eq_of_toNat_eq; simp [BitVec.toNat_add]

/-- Everything taking the bits of a symbol can do, for the widths symbols have (R117, R171, R172). -/
theorem symTake_cases {w : Nat} (h1 : 1 ≤ w) (h2 : w ≤ 32) (d : Dec) :
    (d.rem.length < w ∧ symTake w d = .raised (d.raise .endOfStream)) ∨
      (w ≤ d.rem.length ∧ 2 ^ 64 ≤ d.regs.c.toNat + w ∧
        symTake w d = .raised ({ d with rem := d.rem.drop w }.raise .counterOverflow)) ∨
      (w ≤ d.rem.length ∧ d.regs.c.toNat + w < 2 ^ 64 ∧ symTake w d = .ok () (d.taken w)) := by
  unfold symTake
  by_cases hl : d.rem.length < w
  · exact .inl ⟨hl, by rw [bcRead_of_lt h1 h2 hl]; rfl⟩
  · have hl : w ≤ d.rem.length := by omega
    rw [bcRead_of_le h1 h2 hl]
    by_cases hc : d.regs.c.toNat + w < 2 ^ 64
    · refine .inr (.inr ⟨hl, hc, ?_⟩)
      rw [Run.bind_ok, Dec.countC_of_lt (d := { d with rem := d.rem.drop w }) hc, count_eq_add]
      rfl
    · exact .inr (.inl ⟨hl, by omega, Dec.countC_of_le (d := { d with rem := d.rem.drop w }) (by simpa using hc)⟩)

/-- Everything the frame of a codeword's meaning can do: the state test, the bits, then the symbol's own effect (R210). -/
theorem symData_cases {w : Nat} (h1 : 1 ≤ w) (h2 : w ≤ 32) (op : Dec → Run Dec Unit) (d : Dec) :
    (d.regs.st ≠ .active ∧ symData w op d = .raised (d.raise .protocolError)) ∨
      (d.regs.st = .active ∧ d.rem.length < w ∧ symData w op d = .raised (d.raise .endOfStream)) ∨
      (d.regs.st = .active ∧ w ≤ d.rem.length ∧ 2 ^ 64 ≤ d.regs.c.toNat + w ∧
        symData w op d = .raised ({ d with rem := d.rem.drop w }.raise .counterOverflow)) ∨
      (d.regs.st = .active ∧ w ≤ d.rem.length ∧ d.regs.c.toNat + w < 2 ^ 64 ∧ symData w op d = op (d.taken w)) := by
  unfold symData
  by_cases hs : d.regs.st = .active
  · rw [Dec.require_of_eq hs]
    rcases symTake_cases h1 h2 d with ⟨h, e⟩ | ⟨h, h', e⟩ | ⟨h, h', e⟩ <;> rw [e]
    · exact .inr (.inl ⟨hs, h, rfl⟩)
    · exact .inr (.inr (.inl ⟨hs, h, h', rfl⟩))
    · exact .inr (.inr (.inr ⟨hs, h, h', rfl⟩))
  · exact .inl ⟨hs, Dec.require_of_ne hs _⟩

/-- Everything the tail of DEC.STEP can do; on CounterOverflow the phrase is already in the sink (R210, R240). -/
theorem symTail_cases (s : Phrase) (d : Dec) :
    (d.regs.u.toNat + 8 * s.length < 2 ^ 64 ∧ symTail s d = .ok () (d.output s)) ∨
      (2 ^ 64 ≤ d.regs.u.toNat + 8 * s.length ∧
        symTail s d = .raised ((snkPutAll s.toList d).raise .counterOverflow)) := by
  unfold symTail
  by_cases h : d.regs.u.toNat + 8 * s.length < 2 ^ 64
  · refine .inl ⟨h, ?_⟩
    rw [Dec.countU_of_lt (d := snkPutAll s.toList d) h, count_eq_add, Run.bind_ok]
    cases hp : d.pending <;> simp [snkPutAll, Dec.output, ctRegister, Dec.withRegs, hp]
  · exact .inr ⟨by omega, by rw [Dec.countU_of_le (d := snkPutAll s.toList d) (by simpa [snkPutAll] using h)]; rfl⟩

/-! ### `exec` on codewords of any width -/

theorem exec_eos (f : CwFormat) (s : State) : exec f.eos s = decSymbol (symEos f.width) s := by cases f <;> rfl
theorem exec_rstmark (f : CwFormat) (s : State) : exec f.rstmark s = decSymbol (symRstmark f.width) s := by cases f <;> rfl
theorem exec_lit (f : CwFormat) (byte : BitVec 8) (s : State) :
    exec (f.lit byte) s = decSymbol (symLit f.width byte) s := by cases f <;> rfl
theorem exec_ref (f : CwFormat) (code : BitVec f.width) (s : State) :
    exec (f.ref code) s = decSymbol (symRef f.width code.toNat) s := by cases f <;> rfl
theorem exec_kwkwk (f : CwFormat) (code : BitVec f.width) (s : State) :
    exec (f.kwkwk code) s = decSymbol (symKwkwk f.width code.toNat) s := by cases f <;> rfl

theorem CwFormat.width_bounds (f : CwFormat) : 9 ≤ f.width ∧ f.width ≤ 16 := by cases f <;> decide

/-- A width from 9 to 16 has its format, and no other width has one (R82). -/
theorem CwFormat.ofWidth_eq_some {w : Nat} {f : CwFormat} : CwFormat.ofWidth w = some f ↔ w = f.width := by
  constructor
  · intro h; unfold CwFormat.ofWidth at h; split at h <;> cases h <;> rfl
  · rintro rfl; cases f <;> rfl

theorem CwFormat.ofWidth_of_bounds {w : Nat} (h1 : 9 ≤ w) (h2 : w ≤ 16) : ∃ f, CwFormat.ofWidth w = some f ∧ f.width = w := by
  interval_cases w <;> exact ⟨_, rfl, rfl⟩

/-! ### The symbol that DEC has met -/

/-- On every stream symbol `runSymbol` is `exec`. -/
theorem runSymbol_eq_exec {i : Instr} (n : Nat) (h : i.slot n ≠ .command) (s : State) : runSymbol i s = exec i s := by
  cases i <;> first | rfl | exact absurd rfl h

/-- Meeting a symbol is executing the instruction its bits decode to (R37). -/
theorem meetSymbol_of_decode {slot : Slot} {s : State} {r : Instr × List Bool} (hs : slot ≠ .command)
    (h : decode slot s.dec.rem = .ok r) : meetSymbol slot s = exec r.1 s := by
  unfold meetSymbol; rw [h]
  exact runSymbol_eq_exec 0 (decode_slot_ne_command 0 hs h) s

/-! ### One step -/

/-- Everything a step can be: nothing, a command executed, a hardware reset, a source replaced (R100, R249, R255). -/
theorem step_cases (s : State) :
    (s.port = [] ∧ step s = .next s) ∨
      (∃ u cmd rest, s.port = .command u cmd :: rest ∧ step s = exec (decodeCommand cmd) (s.accept u rest)) ∨
      (∃ u rest, s.port = .hwReset u :: rest ∧ step s = hostReset u { s with port := rest }) ∨
      (∃ u bytes rest, s.port = .setSource u bytes :: rest ∧ step s = hostSetSource u bytes { s with port := rest }) := by
  unfold step
  cases h : s.port with
  | nil => exact .inl ⟨rfl, rfl⟩
  | cons a rest =>
    cases a with
    | command u cmd => exact .inr (.inl ⟨u, cmd, rest, rfl, rfl⟩)
    | hwReset u => exact .inr (.inr (.inl ⟨u, rest, rfl, rfl⟩))
    | setSource u bytes => exact .inr (.inr (.inr ⟨u, bytes, rest, rfl, rfl⟩))

end Sys2Proof.Machine
end

