-- ==== Sys2Proof/Laws/PerInstr.lean ====
section
/-! SUPPORT. Laws/PerInstr.lean: the statements about every instruction as syntax, one lemma per constructor. -/

namespace Sys2Proof.Laws.EncodeLength

/-- An instruction is encoded in exactly the bits its format has, and its value fits them (R81 to R83, R100). -/
def Statement (i : Instr) : Prop := (encode i).length = i.width ∧ bitsToNat (encode i) = i.value

/-- A value that fits the width is all that the statement needs. -/
theorem of_lt {i : Instr} (h : i.value < 2 ^ i.width) : Statement i :=
  ⟨natBits_length _ _, bitsToNat_natBits_of_lt h⟩

theorem hdrNone : Statement .hdrNone := of_lt (by decide)
theorem hdrReset : Statement .hdrReset := of_lt (by decide)
theorem hdrMonitor : Statement .hdrMonitor := of_lt (by decide)
theorem hdrIllegal : Statement .hdrIllegal := of_lt (by decide)
theorem cw9Eos : Statement .cw9Eos := of_lt (by decide)
theorem cw9Rstmark : Statement .cw9Rstmark := of_lt (by decide)
theorem cw9Lit (byte : BitVec 8) : Statement (.cw9Lit byte) :=
  of_lt (byte.isLt.trans (show 2 ^ 8 < 2 ^ 9 by decide))
theorem cw9Ref (code : BitVec 9) : Statement (.cw9Ref code) := of_lt code.isLt
theorem cw9Kwkwk (code : BitVec 9) : Statement (.cw9Kwkwk code) := of_lt code.isLt
theorem cw10Eos : Statement .cw10Eos := of_lt (by decide)
theorem cw10Rstmark : Statement .cw10Rstmark := of_lt (by decide)
theorem cw10Lit (byte : BitVec 8) : Statement (.cw10Lit byte) :=
  of_lt (byte.isLt.trans (show 2 ^ 8 < 2 ^ 10 by decide))
theorem cw10Ref (code : BitVec 10) : Statement (.cw10Ref code) := of_lt code.isLt
theorem cw10Kwkwk (code : BitVec 10) : Statement (.cw10Kwkwk code) := of_lt code.isLt
theorem cw11Eos : Statement .cw11Eos := of_lt (by decide)
theorem cw11Rstmark : Statement .cw11Rstmark := of_lt (by decide)
theorem cw11Lit (byte : BitVec 8) : Statement (.cw11Lit byte) :=
  of_lt (byte.isLt.trans (show 2 ^ 8 < 2 ^ 11 by decide))
theorem cw11Ref (code : BitVec 11) : Statement (.cw11Ref code) := of_lt code.isLt
theorem cw11Kwkwk (code : BitVec 11) : Statement (.cw11Kwkwk code) := of_lt code.isLt
theorem cw12Eos : Statement .cw12Eos := of_lt (by decide)
theorem cw12Rstmark : Statement .cw12Rstmark := of_lt (by decide)
theorem cw12Lit (byte : BitVec 8) : Statement (.cw12Lit byte) :=
  of_lt (byte.isLt.trans (show 2 ^ 8 < 2 ^ 12 by decide))
theorem cw12Ref (code : BitVec 12) : Statement (.cw12Ref code) := of_lt code.isLt
theorem cw12Kwkwk (code : BitVec 12) : Statement (.cw12Kwkwk code) := of_lt code.isLt
theorem cw13Eos : Statement .cw13Eos := of_lt (by decide)
theorem cw13Rstmark : Statement .cw13Rstmark := of_lt (by decide)
theorem cw13Lit (byte : BitVec 8) : Statement (.cw13Lit byte) :=
  of_lt (byte.isLt.trans (show 2 ^ 8 < 2 ^ 13 by decide))
theorem cw13Ref (code : BitVec 13) : Statement (.cw13Ref code) := of_lt code.isLt
theorem cw13Kwkwk (code : BitVec 13) : Statement (.cw13Kwkwk code) := of_lt code.isLt
theorem cw14Eos : Statement .cw14Eos := of_lt (by decide)
theorem cw14Rstmark : Statement .cw14Rstmark := of_lt (by decide)
theorem cw14Lit (byte : BitVec 8) : Statement (.cw14Lit byte) :=
  of_lt (byte.isLt.trans (show 2 ^ 8 < 2 ^ 14 by decide))
theorem cw14Ref (code : BitVec 14) : Statement (.cw14Ref code) := of_lt code.isLt
theorem cw14Kwkwk (code : BitVec 14) : Statement (.cw14Kwkwk code) := of_lt code.isLt
theorem cw15Eos : Statement .cw15Eos := of_lt (by decide)
theorem cw15Rstmark : Statement .cw15Rstmark := of_lt (by decide)
theorem cw15Lit (byte : BitVec 8) : Statement (.cw15Lit byte) :=
  of_lt (byte.isLt.trans (show 2 ^ 8 < 2 ^ 15 by decide))
theorem cw15Ref (code : BitVec 15) : Statement (.cw15Ref code) := of_lt code.isLt
theorem cw15Kwkwk (code : BitVec 15) : Statement (.cw15Kwkwk code) := of_lt code.isLt
theorem cw16Eos : Statement .cw16Eos := of_lt (by decide)
theorem cw16Rstmark : Statement .cw16Rstmark := of_lt (by decide)
theorem cw16Lit (byte : BitVec 8) : Statement (.cw16Lit byte) :=
  of_lt (byte.isLt.trans (show 2 ^ 8 < 2 ^ 16 by decide))
theorem cw16Ref (code : BitVec 16) : Statement (.cw16Ref code) := of_lt code.isLt
theorem cw16Kwkwk (code : BitVec 16) : Statement (.cw16Kwkwk code) := of_lt code.isLt
theorem mk16Eos : Statement .mk16Eos := of_lt (by decide)
theorem mk16Rstmark (value : BitVec 16) : Statement (.mk16Rstmark value) := of_lt value.isLt
theorem encStart (mode : BitVec 2) : Statement (.encStart mode) := of_lt (cmdWord 0x0 0 mode 0).isLt
theorem encStep : Statement .encStep := of_lt (cmdWord 0x1 0 0 0).isLt
theorem encRun : Statement .encRun := of_lt (cmdWord 0x2 0 0 0).isLt
theorem decStart : Statement .decStart := of_lt (cmdWord 0x4 0 0 0).isLt
theorem decStep : Statement .decStep := of_lt (cmdWord 0x5 0 0 0).isLt
theorem decRun : Statement .decRun := of_lt (cmdWord 0x6 0 0 0).isLt
theorem bcWinit : Statement .bcWinit := of_lt (cmdWord 0x8 0 0 0).isLt
theorem bcWrite (value : BitVec 32) (width : BitVec 6) : Statement (.bcWrite value width) := of_lt (cmdWord 0x9 width 0 value).isLt
theorem bcFlush : Statement .bcFlush := of_lt (cmdWord 0xA 0 0 0).isLt
theorem bcRinit : Statement .bcRinit := of_lt (cmdWord 0xB 0 0 0).isLt
theorem bcRead (width : BitVec 6) : Statement (.bcRead width) := of_lt (cmdWord 0xC width 0 0).isLt
theorem bcIsempty : Statement .bcIsempty := of_lt (cmdWord 0xD 0 0 0).isLt
theorem opsel3Unassigned : Statement .opsel3Unassigned := of_lt (cmdWord 0x3 0 0 0).isLt
theorem opsel7Unassigned : Statement .opsel7Unassigned := of_lt (cmdWord 0x7 0 0 0).isLt
theorem opselEUnassigned : Statement .opselEUnassigned := of_lt (cmdWord 0xE 0 0 0).isLt
theorem opselFUnassigned : Statement .opselFUnassigned := of_lt (cmdWord 0xF 0 0 0).isLt

end Sys2Proof.Laws.EncodeLength
end

