-- ==== Sys2Proof/Laws/Serial.lean ====
section
/-! SUPPORT. Laws/Serial.lean: the byte-serial encoder's small lemmas, and what a fault in `ENC.BYTE` leaves (44_encoder.md R198;
60_exceptions.md R240). -/

namespace Sys2Proof.Machine

@[simp] theorem SerialEnc.withEnc_enc (x : SerialEnc) (e : Enc) : (x.withEnc e).enc = e := rfl
@[simp] theorem SerialEnc.withEnc_cur (x : SerialEnc) (e : Enc) : (x.withEnc e).cur = x.cur := rfl
@[simp] theorem SerialEnc.withEnc_len (x : SerialEnc) (e : Enc) : (x.withEnc e).len = x.len := rfl

/-- A fault in `ENC.BYTE` leaves CUR and LEN as they were: their lines stand after the `raise`. -/
theorem serialByte_raised {b : Byte} {x y : SerialEnc} (h : serialByte b x = .raised y) : y.cur = x.cur ∧ y.len = x.len := by
  unfold serialByte at h
  split at h
  · cases h
  · split at h
    · cases h
    · generalize (encEmit _ _ _).bind _ = r at h
      cases r <;> cases h
      exact ⟨rfl, rfl⟩

/-- Where `ENC.BYTE` completes with a byte that the phrase cannot take, the byte begins the next phrase. -/
theorem serialByte_mismatch {b : Byte} {c : Code} {x : SerialEnc} (hc : x.cur = some c) (hn : pdChild x.enc.trie c b = none) :
    serialByte b x = (((encEmit c x.len x.enc).bind fun _ e => encAdvance c b e).lift x.withEnc).bind fun _ x =>
      .ok () { x with cur := some (seedCode b), len := 1 } := by
  simp only [serialByte, hc, hn]

end Sys2Proof.Machine
end

