-- ==== Sys2Proof/Tests/Slice0.lean ====
section
/-! SUPPORT. Tests/Slice0.lean: tests with expected results from the spec (vectors of 95_test_vectors.md, worked examples of the
rules), words written out from the spec's encodings, and a witness for the hypotheses of each obligation. -/

namespace Sys2Proof.Tests

open Sys2Proof.Machine

/-- The next state of an outcome. -/
def after (o : Host.Outcome State Fault Refusal) : Option State :=
  match o with
  | .next s => some s
  | .fault _ => none
  | .refused _ => none

/-- An outcome that has a next state is that next state. -/
theorem eq_next {o : Host.Outcome State Fault Refusal} {t : State} (h : after o = some t) : o = .next t := by
  cases o with
  | next s => exact congrArg Host.Outcome.next (Option.some.inj h)
  | fault f => cases h
  | refused r => cases h

/-- The digits of a written-out word, most significant first. -/
def bin (s : List Nat) : List Bool := s.map (· = 1)

/-- Run commands one after another, each given to one unit. -/
def issue (u : UnitId) (i : Instr) (s : State) : Option State := after (exec i { s with target := u })

/-! ### Small states -/

/-- A machine whose ENC is as given. -/
def withEncoder (e : Enc) : State := { State.reset with enc := e, target := .enc }

/-- A machine whose DEC is as given. -/
def withDecoder (d : Dec) : State := { State.reset with dec := d, target := .dec }

/-- ENC right after `ENC.START 0` on an input. -/
def encOn (src : List Byte) : Enc :=
  { Enc.reset with regs := { Regs.reset with st := .active, c := 2 }, acc := [false, false], src := src }

/-- ENC with a full dictionary at 16 bits, under a mode, before its first byte of a source; the trie is left out. -/
def encFull (m : Mode) (src : List Byte) : Enc :=
  { Enc.reset with
    regs := { Regs.reset with st := .active, mode := m, w := 16, next := 65536, u := 712968, c := 981241 }
    src := src }

/-- A unit's registers in FAULT with a code. -/
def faultRegs (code : BitVec 4) : Regs := { Regs.reset with st := .fault, faultCode := code }

/-- DEC right after `DEC.START` under mode None, with these bits left. -/
def decOn (rem : List Bool) : Dec :=
  { Dec.reset with regs := { Regs.reset with st := .active, c := 2 }, rem := rem }

/-- DEC of T1 (95 section 4): "AB" and "BA" registered, PREV = "AB", a registration pending or not. -/
def decTbl (pending : Bool) (rem : List Bool) : Dec :=
  { Dec.reset with
    regs := { Regs.reset with st := .active, c := 29, u := 32, next := 260 }
    tbl := [(258, ⟨65, [66]⟩), (259, ⟨66, [65]⟩)]
    prev := ⟨65, [66]⟩
    prevValid := true
    pending := pending
    rem := rem }

/-- DEC with a full table at 16 bits, under a mode, these bits left; the table's own content is left out. -/
def decFull (m : Mode) (rem : List Bool) : Dec :=
  { Dec.reset with
    regs := { Regs.reset with st := .active, mode := m, w := 16, next := 65536, u := 712968, c := 981241 }
    prevValid := true
    rem := rem }

/-! ### WellFormed refuses what no row can hold (R82, R83) -/

theorem test_wf_refuses_cw9Ref : ¬WellFormed (.cw9Ref 257) ∧ WellFormed (.cw9Ref 258) := by decide
theorem test_wf_refuses_cw9Kwkwk : ¬WellFormed (.cw9Kwkwk 257) ∧ WellFormed (.cw9Kwkwk 258) := by decide
theorem test_wf_refuses_cw10Ref : ¬WellFormed (.cw10Ref 257) ∧ WellFormed (.cw10Ref 258) := by decide
theorem test_wf_refuses_cw10Kwkwk : ¬WellFormed (.cw10Kwkwk 257) ∧ WellFormed (.cw10Kwkwk 258) := by decide
theorem test_wf_refuses_cw11Ref : ¬WellFormed (.cw11Ref 257) ∧ WellFormed (.cw11Ref 258) := by decide
theorem test_wf_refuses_cw11Kwkwk : ¬WellFormed (.cw11Kwkwk 257) ∧ WellFormed (.cw11Kwkwk 258) := by decide
theorem test_wf_refuses_cw12Ref : ¬WellFormed (.cw12Ref 257) ∧ WellFormed (.cw12Ref 258) := by decide
theorem test_wf_refuses_cw12Kwkwk : ¬WellFormed (.cw12Kwkwk 257) ∧ WellFormed (.cw12Kwkwk 258) := by decide
theorem test_wf_refuses_cw13Ref : ¬WellFormed (.cw13Ref 257) ∧ WellFormed (.cw13Ref 258) := by decide
theorem test_wf_refuses_cw13Kwkwk : ¬WellFormed (.cw13Kwkwk 257) ∧ WellFormed (.cw13Kwkwk 258) := by decide
theorem test_wf_refuses_cw14Ref : ¬WellFormed (.cw14Ref 257) ∧ WellFormed (.cw14Ref 258) := by decide
theorem test_wf_refuses_cw14Kwkwk : ¬WellFormed (.cw14Kwkwk 257) ∧ WellFormed (.cw14Kwkwk 258) := by decide
theorem test_wf_refuses_cw15Ref : ¬WellFormed (.cw15Ref 257) ∧ WellFormed (.cw15Ref 258) := by decide
theorem test_wf_refuses_cw15Kwkwk : ¬WellFormed (.cw15Kwkwk 257) ∧ WellFormed (.cw15Kwkwk 258) := by decide
theorem test_wf_refuses_cw16Ref : ¬WellFormed (.cw16Ref 257) ∧ WellFormed (.cw16Ref 258) := by decide
theorem test_wf_refuses_cw16Kwkwk : ¬WellFormed (.cw16Kwkwk 257) ∧ WellFormed (.cw16Kwkwk 258) := by decide
theorem test_wf_refuses_mk16Rstmark : ¬WellFormed (.mk16Rstmark 256) ∧ WellFormed (.mk16Rstmark 257) := by decide

/-! ### Decoding: words written out from the encodings of 30_encoding.md -/

/-- R81. -/
theorem test_decode_hdrNone : decode .header (bin [0, 0]) = .ok (.hdrNone, []) := by rfl
/-- R81. -/
theorem test_decode_hdrReset : decode .header (bin [0, 1]) = .ok (.hdrReset, []) := by rfl
/-- R81. -/
theorem test_decode_hdrMonitor : decode .header (bin [1, 0]) = .ok (.hdrMonitor, []) := by rfl
/-- R81. -/
theorem test_decode_hdrIllegal : decode .header (bin [1, 1]) = .ok (.hdrIllegal, []) := by rfl
/-- R82: EOS 256, RSTMARK 257. -/
theorem test_decode_cw9_markers :
    decode (.data 9 260) (bin [1, 0, 0, 0, 0, 0, 0, 0, 0]) = .ok (.cw9Eos, []) ∧
      decode (.data 9 260) (bin [1, 0, 0, 0, 0, 0, 0, 0, 1]) = .ok (.cw9Rstmark, []) := by exact ⟨rfl, rfl⟩
/-- R82: LIT 0x41, REF 259 below NEXT = 260, KWKWK 260 = NEXT. -/
theorem test_decode_cw9_data :
    decode (.data 9 260) (bin [0, 0, 1, 0, 0, 0, 0, 0, 1]) = .ok (.cw9Lit 65, []) ∧
      decode (.data 9 260) (bin [1, 0, 0, 0, 0, 0, 0, 1, 1]) = .ok (.cw9Ref 259, []) ∧
      decode (.data 9 260) (bin [1, 0, 0, 0, 0, 0, 1, 0, 0]) = .ok (.cw9Kwkwk 260, []) := by exact ⟨rfl, rfl, rfl⟩
/-- R82: EOS 256, RSTMARK 257. -/
theorem test_decode_cw10_markers :
    decode (.data 10 260) (bin [0, 1, 0, 0, 0, 0, 0, 0, 0, 0]) = .ok (.cw10Eos, []) ∧
      decode (.data 10 260) (bin [0, 1, 0, 0, 0, 0, 0, 0, 0, 1]) = .ok (.cw10Rstmark, []) := by exact ⟨rfl, rfl⟩
/-- R82: LIT 0x41, REF 259 below NEXT = 260, KWKWK 260 = NEXT. -/
theorem test_decode_cw10_data :
    decode (.data 10 260) (bin [0, 0, 0, 1, 0, 0, 0, 0, 0, 1]) = .ok (.cw10Lit 65, []) ∧
      decode (.data 10 260) (bin [0, 1, 0, 0, 0, 0, 0, 0, 1, 1]) = .ok (.cw10Ref 259, []) ∧
      decode (.data 10 260) (bin [0, 1, 0, 0, 0, 0, 0, 1, 0, 0]) = .ok (.cw10Kwkwk 260, []) := by exact ⟨rfl, rfl, rfl⟩
/-- R82: EOS 256, RSTMARK 257. -/
theorem test_decode_cw11_markers :
    decode (.data 11 260) (bin [0, 0, 1, 0, 0, 0, 0, 0, 0, 0, 0]) = .ok (.cw11Eos, []) ∧
      decode (.data 11 260) (bin [0, 0, 1, 0, 0, 0, 0, 0, 0, 0, 1]) = .ok (.cw11Rstmark, []) := by exact ⟨rfl, rfl⟩
/-- R82: LIT 0x41, REF 259 below NEXT = 260, KWKWK 260 = NEXT. -/
theorem test_decode_cw11_data :
    decode (.data 11 260) (bin [0, 0, 0, 0, 1, 0, 0, 0, 0, 0, 1]) = .ok (.cw11Lit 65, []) ∧
      decode (.data 11 260) (bin [0, 0, 1, 0, 0, 0, 0, 0, 0, 1, 1]) = .ok (.cw11Ref 259, []) ∧
      decode (.data 11 260) (bin [0, 0, 1, 0, 0, 0, 0, 0, 1, 0, 0]) = .ok (.cw11Kwkwk 260, []) := by exact ⟨rfl, rfl, rfl⟩
/-- R82: EOS 256, RSTMARK 257. -/
theorem test_decode_cw12_markers :
    decode (.data 12 260) (bin [0, 0, 0, 1, 0, 0, 0, 0, 0, 0, 0, 0]) = .ok (.cw12Eos, []) ∧
      decode (.data 12 260) (bin [0, 0, 0, 1, 0, 0, 0, 0, 0, 0, 0, 1]) = .ok (.cw12Rstmark, []) := by exact ⟨rfl, rfl⟩
/-- R82: LIT 0x41, REF 259 below NEXT = 260, KWKWK 260 = NEXT. -/
theorem test_decode_cw12_data :
    decode (.data 12 260) (bin [0, 0, 0, 0, 0, 1, 0, 0, 0, 0, 0, 1]) = .ok (.cw12Lit 65, []) ∧
      decode (.data 12 260) (bin [0, 0, 0, 1, 0, 0, 0, 0, 0, 0, 1, 1]) = .ok (.cw12Ref 259, []) ∧
      decode (.data 12 260) (bin [0, 0, 0, 1, 0, 0, 0, 0, 0, 1, 0, 0]) = .ok (.cw12Kwkwk 260, []) := by exact ⟨rfl, rfl, rfl⟩
/-- R82: EOS 256, RSTMARK 257. -/
theorem test_decode_cw13_markers :
    decode (.data 13 260) (bin [0, 0, 0, 0, 1, 0, 0, 0, 0, 0, 0, 0, 0]) = .ok (.cw13Eos, []) ∧
      decode (.data 13 260) (bin [0, 0, 0, 0, 1, 0, 0, 0, 0, 0, 0, 0, 1]) = .ok (.cw13Rstmark, []) := by exact ⟨rfl, rfl⟩
/-- R82: LIT 0x41, REF 259 below NEXT = 260, KWKWK 260 = NEXT. -/
theorem test_decode_cw13_data :
    decode (.data 13 260) (bin [0, 0, 0, 0, 0, 0, 1, 0, 0, 0, 0, 0, 1]) = .ok (.cw13Lit 65, []) ∧
      decode (.data 13 260) (bin [0, 0, 0, 0, 1, 0, 0, 0, 0, 0, 0, 1, 1]) = .ok (.cw13Ref 259, []) ∧
      decode (.data 13 260) (bin [0, 0, 0, 0, 1, 0, 0, 0, 0, 0, 1, 0, 0]) = .ok (.cw13Kwkwk 260, []) := by exact ⟨rfl, rfl, rfl⟩
/-- R82: EOS 256, RSTMARK 257. -/
theorem test_decode_cw14_markers :
    decode (.data 14 260) (bin [0, 0, 0, 0, 0, 1, 0, 0, 0, 0, 0, 0, 0, 0]) = .ok (.cw14Eos, []) ∧
      decode (.data 14 260) (bin [0, 0, 0, 0, 0, 1, 0, 0, 0, 0, 0, 0, 0, 1]) = .ok (.cw14Rstmark, []) := by exact ⟨rfl, rfl⟩
/-- R82: LIT 0x41, REF 259 below NEXT = 260, KWKWK 260 = NEXT. -/
theorem test_decode_cw14_data :
    decode (.data 14 260) (bin [0, 0, 0, 0, 0, 0, 0, 1, 0, 0, 0, 0, 0, 1]) = .ok (.cw14Lit 65, []) ∧
      decode (.data 14 260) (bin [0, 0, 0, 0, 0, 1, 0, 0, 0, 0, 0, 0, 1, 1]) = .ok (.cw14Ref 259, []) ∧
      decode (.data 14 260) (bin [0, 0, 0, 0, 0, 1, 0, 0, 0, 0, 0, 1, 0, 0]) = .ok (.cw14Kwkwk 260, []) := by exact ⟨rfl, rfl, rfl⟩
/-- R82: EOS 256, RSTMARK 257. -/
theorem test_decode_cw15_markers :
    decode (.data 15 260) (bin [0, 0, 0, 0, 0, 0, 1, 0, 0, 0, 0, 0, 0, 0, 0]) = .ok (.cw15Eos, []) ∧
      decode (.data 15 260) (bin [0, 0, 0, 0, 0, 0, 1, 0, 0, 0, 0, 0, 0, 0, 1]) = .ok (.cw15Rstmark, []) := by exact ⟨rfl, rfl⟩
/-- R82: LIT 0x41, REF 259 below NEXT = 260, KWKWK 260 = NEXT. -/
theorem test_decode_cw15_data :
    decode (.data 15 260) (bin [0, 0, 0, 0, 0, 0, 0, 0, 1, 0, 0, 0, 0, 0, 1]) = .ok (.cw15Lit 65, []) ∧
      decode (.data 15 260) (bin [0, 0, 0, 0, 0, 0, 1, 0, 0, 0, 0, 0, 0, 1, 1]) = .ok (.cw15Ref 259, []) ∧
      decode (.data 15 260) (bin [0, 0, 0, 0, 0, 0, 1, 0, 0, 0, 0, 0, 1, 0, 0]) = .ok (.cw15Kwkwk 260, []) := by exact ⟨rfl, rfl, rfl⟩
/-- R82: EOS 256, RSTMARK 257. -/
theorem test_decode_cw16_markers :
    decode (.data 16 260) (bin [0, 0, 0, 0, 0, 0, 0, 1, 0, 0, 0, 0, 0, 0, 0, 0]) = .ok (.cw16Eos, []) ∧
      decode (.data 16 260) (bin [0, 0, 0, 0, 0, 0, 0, 1, 0, 0, 0, 0, 0, 0, 0, 1]) = .ok (.cw16Rstmark, []) := by exact ⟨rfl, rfl⟩
/-- R82: LIT 0x41, REF 259 below NEXT = 260, KWKWK 260 = NEXT. -/
theorem test_decode_cw16_data :
    decode (.data 16 260) (bin [0, 0, 0, 0, 0, 0, 0, 0, 0, 1, 0, 0, 0, 0, 0, 1]) = .ok (.cw16Lit 65, []) ∧
      decode (.data 16 260) (bin [0, 0, 0, 0, 0, 0, 0, 1, 0, 0, 0, 0, 0, 0, 1, 1]) = .ok (.cw16Ref 259, []) ∧
      decode (.data 16 260) (bin [0, 0, 0, 0, 0, 0, 0, 1, 0, 0, 0, 0, 0, 1, 0, 0]) = .ok (.cw16Kwkwk 260, []) := by exact ⟨rfl, rfl, rfl⟩
/-- R83. -/
theorem test_decode_mk16 :
    decode .marker (bin [0, 0, 0, 0, 0, 0, 0, 1, 0, 0, 0, 0, 0, 0, 0, 0]) = .ok (.mk16Eos, []) ∧
      decode .marker (bin [0, 0, 0, 0, 0, 0, 0, 1, 0, 0, 0, 0, 0, 0, 0, 1]) = .ok (.mk16Rstmark 257, []) ∧
      decode .marker (bin [1, 0, 1, 0, 0, 1, 0, 1, 1, 1, 0, 0, 0, 0, 1, 1]) = .ok (.mk16Rstmark 0xA5C3, []) := by exact ⟨rfl, rfl, rfl⟩
/-- A word cut short is rejected by name (R118). -/
theorem test_decode_tooShort : decode .marker (bin [0, 0, 0, 0, 0, 0, 0, 1]) = .error .tooShort := by rfl
/-- There is no codeword format of 17 bits (R82). -/
theorem test_decode_noFormat : decode (.data 17 260) (bin [0, 0]) = .error .noFormat := by rfl
/-- The command words of 95 section 10, G1. -/
theorem test_decodeCommand_codec :
    decodeCommand 0x00000000000 = .encStart 0 ∧ decodeCommand 0x00300000000 = .encStart 3 ∧
      decodeCommand 0x10000000000 = .encStep ∧ decodeCommand 0x20000000000 = .encRun ∧
      decodeCommand 0x40000000000 = .decStart ∧ decodeCommand 0x50000000000 = .decStep ∧
      decodeCommand 0x60000000000 = .decRun := by decide
/-- The command words of 95 section 10, G2. -/
theorem test_decodeCommand_channel :
    decodeCommand 0x80000000000 = .bcWinit ∧ decodeCommand 0x980DEADBEEF = .bcWrite 0xDEADBEEF 32 ∧
      decodeCommand 0xA0000000000 = .bcFlush ∧ decodeCommand 0xB0000000000 = .bcRinit ∧
      decodeCommand 0xC2400000000 = .bcRead 9 ∧ decodeCommand 0xD0000000000 = .bcIsempty := by decide
/-- The unassigned OPSEL values (R238). -/
theorem test_decodeCommand_unassigned :
    decodeCommand 0x30000000000 = .opsel3Unassigned ∧ decodeCommand 0x70000000000 = .opsel7Unassigned ∧
      decodeCommand 0xE0000000000 = .opselEUnassigned ∧ decodeCommand 0xF0000000000 = .opselFUnassigned := by decide
/-- Fields an operation does not name are ignored (R100). -/
theorem test_decodeCommand_ignores_unnamed : decodeCommand 0x1FFFFFFFFFF = .encStep := by decide
/-- Bits in stream order: V4's third byte is 0x28 (R64). -/
theorem test_bytesToBits : bytesToBits [0x28] = bin [0, 0, 1, 0, 1, 0, 0, 0] := by decide

/-! ### The bit channel (95 section 2) -/

/-- B4: `BC.WRITE(0x155, 9)` from a fresh packer. -/
theorem test_bcWrite_B4 :
    (issue .enc (.bcWrite 0x155 9) State.reset).map (fun s => (s.enc.snk, s.enc.acc)) = some ([0xAA], [true]) := by decide
/-- B12: the width is tested before the value. -/
theorem test_bcWrite_B12 :
    (issue .enc (.bcWrite 0 63) State.reset).map (fun s => (s.enc.regs.faultCode, s.enc.snk)) = some (1, []) := by decide
/-- B10. -/
theorem test_bcWrite_B10 :
    (issue .enc (.bcWrite 2 1) State.reset).map (fun s => (s.enc.regs.faultCode, s.enc.acc)) = some (2, []) := by decide
/-- B2: `BC.FLUSH` of one bit. -/
theorem test_bcFlush_B2 :
    (issue .enc .bcFlush (withEncoder { Enc.reset with acc := [true] })).map (fun s => (s.enc.snk, s.enc.acc)) =
      some ([0x80], []) := by decide
/-- B6: nothing to flush. -/
theorem test_bcFlush_B6 : (issue .enc .bcFlush State.reset).map (fun s => s.enc.snk) = some [] := by decide
/-- R111. -/
theorem test_bcWinit :
    (issue .enc .bcWinit (withEncoder { Enc.reset with acc := [true], snk := [1] })).map (fun s => (s.enc.snk, s.enc.acc)) =
      some ([], []) := by decide
/-- B13: the first `BC.READ(4)` of the byte A5. -/
theorem test_bcRead_B13 :
    (issue .dec (.bcRead 4) (withDecoder { Dec.reset with rem := bytesToBits [0xA5] })).map
      (fun s => (s.dec.rsp, s.dec.rem)) = some (some 0xA, bin [0, 1, 0, 1]) := by decide
/-- B14: nothing is consumed. -/
theorem test_bcRead_B14 :
    (issue .dec (.bcRead 9) (withDecoder { Dec.reset with rem := bytesToBits [0xA5] })).map
      (fun s => (s.dec.regs.faultCode, s.dec.rem.length)) = some (3, 8) := by decide
/-- B16. -/
theorem test_bcIsempty_B16 : (issue .dec .bcIsempty (withDecoder Dec.reset)).map (fun s => s.dec.rsp) = some (some 1) := by
  decide
/-- R116. -/
theorem test_bcRinit :
    (issue .dec .bcRinit (withDecoder { Dec.reset with src := [0x80] })).map (fun s => s.dec.rem) =
      some (bin [1, 0, 0, 0, 0, 0, 0, 0]) := by decide
/-- G2: the response of `BC.READ 9`. -/
theorem test_rspWord : rspWord (some 0x1FF) = 0x1000001FF := by decide

/-! ### The dictionary and the table (95 sections 3 and 4) -/

/-- `TRIE_1` of 95 section 3. -/
def trie1 : Cells Code := trieWrite (trieWrite [] 65 66 258) 258 65 259

/-- P3. -/
theorem test_lpm_P3 : lpmWalk trie1 (seedCode 65) 1 [66, 65, 66] = (259, 3) := by decide
/-- P4. -/
theorem test_lpm_P4 : lpmWalk trie1 (seedCode 65) 1 [66, 66] = (258, 2) := by decide
/-- P8: a duplicate insert changes nothing. -/
theorem test_insert_P8 : (pdInsert 65 66 260 { Enc.reset with trie := trie1 }).trie = trie1 := by decide
/-- T4. -/
theorem test_resolve_T4 : ctResolve 260 (decTbl true []) = .ok ⟨65, [66, 65]⟩ (decTbl true []) := by decide
/-- T5. -/
theorem test_resolve_T5 : ctResolve 260 (decTbl false []) = .raised ((decTbl false []).raise .invalidCodeword) := by decide
/-- T8. -/
theorem test_register_T8 :
    tblRead (ctRegister ⟨66, [65]⟩ (decTbl true [])).tbl 260 = some ⟨65, [66, 66]⟩ := by decide

/-! ### The width state machine and the policy (95 section 5) -/

/-- A3. -/
theorem test_advance_A3 :
    advance { Regs.reset with next := 512 } = (.register, { Regs.reset with next := 512, w := 10 }) := by decide
/-- A8. -/
theorem test_choose_A8 :
    chooseAction { Regs.reset with mode := .monitor, u := 712968, c := 981241 } =
      (.keepFrozen,
        { Regs.reset with mode := .monitor, u := 712968, c := 981241, u0 := 712968, c0 := 981241, latched := true }) := by
  decide
/-- A9. -/
theorem test_ratio_A9 :
    Regs.ratioReached { Regs.reset with u0 := 3563512, c0 := 981241, u := 5708616, c := 1729097 } = false := by decide
/-- A10. -/
theorem test_ratio_A10 :
    Regs.ratioReached { Regs.reset with u0 := 3563512, c0 := 981241, u := 5708624, c := 1729113 } = true := by decide
/-- A11: equality reaches the threshold. -/
theorem test_ratio_A11 :
    Regs.ratioReached { Regs.reset with u0 := 1600000, c0 := 1000000, u := 3200000, c := 2200000 } = true := by decide
/-- A12. -/
theorem test_ratio_A12 :
    Regs.ratioReached { Regs.reset with u0 := 1600000, c0 := 1000000, u := 3200000, c := 2199999 } = false := by decide

/-! ### The encoder (95 section 10) -/

/-- STATUS after reset. -/
theorem test_status_reset : State.reset.enc.status = 0x00204900 := by decide
/-- G1, command 1. -/
theorem test_encStart_G1 :
    (issue .enc (.encStart 0) State.reset).map (fun s => (s.enc.status, s.enc.acc)) = some (0x00204901, [false, false]) := by
  decide
/-- G4: `ENC.START 3`. -/
theorem test_encStart_G4 : (issue .enc (.encStart 3) State.reset).map (fun s => s.enc.status) = some 0x00204953 := by decide
/-- G1, command 2: `65@9`, "AB" registered as 258. -/
theorem test_encStep_G1 :
    (issue .enc .encStep (withEncoder (encOn [0x41, 0x42, 0x41]))).map (fun s => (s.enc.snk, s.enc.trie, s.enc.src)) =
      some ([0x08], [(256 * 65 + 66, 258)], [0x42, 0x41]) := by decide
/-- V1: `ENC.STEP` on an empty source writes EOS and pads. -/
theorem test_encStep_V1 :
    (issue .enc .encStep (withEncoder (encOn []))).map (fun s => (s.enc.snk, s.enc.regs.c, s.enc.regs.st)) =
      some ([0x20, 0x00], 11, .done) := by decide
/-- V2: `ENC.RUN` on "A". -/
theorem test_encRun_V2 :
    (issue .enc .encRun (withEncoder (encOn [0x41]))).map (fun s => (s.enc.snk, s.enc.regs.u, s.enc.regs.c)) =
      some ([0x08, 0x30, 0x00], 8, 20) := by decide
/-- G4: `ENC.STEP` before any `ENC.START`. -/
theorem test_encStep_G4 : (issue .enc .encStep State.reset).map (fun s => s.enc.status) = some 0x00204983 := by decide
/-- R173: a full dictionary under Reset: codeword, the marker `257@16`, a cleared dictionary. -/
theorem test_encStep_reset :
    (issue .enc .encStep (withEncoder (encFull .reset [1, 2]))).map
      (fun s => (s.enc.snk, s.enc.regs.w, s.enc.regs.next)) = some ([0x00, 0x01, 0x01, 0x01], 9, 258) := by decide

/-- R198, R240: `ENC.BYTE` whose codeword overflows C leaves CUR and LEN as they were. -/
theorem test_serialByte_overflow :
    serialByte 66 ⟨{ encOn [] with regs := { Regs.reset with st := .active, c := 0xFFFFFFFFFFFFFFFF } }, some 65, 1⟩ =
      .raised ⟨{ encOn [] with
        regs := { Regs.reset with st := .fault, faultCode := 7, c := 0xFFFFFFFFFFFFFFFF }
        acc := [false, false, true]
        snk := [0x08] }, some 65, 1⟩ := by decide
/-- R198: `ENC.BYTE` of 66 after 65 writes `65@9`, registers "AB" and begins with 66. -/
theorem test_serialByte_mismatch :
    (serialByte 66 ⟨encOn [], some 65, 1⟩).final.map (fun x => (x.enc.snk, x.enc.trie, x.cur, x.len)) =
      some ([0x08], [(256 * 65 + 66, 258)], some 66, 1) := by decide

/-! ### The decoder (95 sections 6 and 10) -/

/-- F1. -/
theorem test_decStart_F1 : (issue .dec .decStart (withDecoder Dec.reset)).map (fun s => s.dec.status) = some 0x00204933 := by
  decide
/-- F2. -/
theorem test_decStart_F2 :
    (issue .dec .decStart (withDecoder { Dec.reset with src := [0xC0] })).map (fun s => (s.dec.status, s.dec.regs.c)) =
      some (0x00204953, 2) := by decide
/-- G3, command 2: `65@9`. -/
theorem test_decStep_G3 :
    (issue .dec .decStep (withDecoder (decOn (bin [0, 0, 1, 0, 0, 0, 0, 0, 1])))).map
      (fun s => (s.dec.snk, s.dec.regs.u, s.dec.regs.c)) = some ([0x41], 8, 11) := by decide
/-- F6: 258 as the first codeword. -/
theorem test_decStep_F6 :
    (issue .dec .decStep (withDecoder (decOn (bin [1, 0, 0, 0, 0, 0, 0, 1, 0])))).map
      (fun s => (s.dec.regs.faultCode, s.dec.regs.c)) = some (6, 11) := by decide
/-- V7: `DEC.RUN` on "65 258 256", the shortest self-referential stream. -/
theorem test_decRun_V7 :
    (issue .dec .decRun (withDecoder (decOn ((bytesToBits [0x08, 0x30, 0x28, 0x00]).drop 2)))).map
      (fun s => (s.dec.snk, s.dec.regs.st, s.dec.regs.next)) = some ([0x41, 0x41, 0x41], .done, 259) := by decide
/-- F3: `DEC.RUN` on six bits. -/
theorem test_decRun_F3 :
    (issue .dec .decRun (withDecoder (decOn (bin [1, 0, 0, 0, 0, 0])))).map (fun s => (s.dec.regs.faultCode, s.dec.regs.c)) =
      some (3, 2) := by decide
/-- R217, R174: a full table under Reset: the marker slot is read before the codeword, whatever its value. -/
theorem test_decStep_marker :
    (issue .dec .decStep (withDecoder (decFull .reset (bin ([1, 1, 1, 1, 1, 1, 1, 1, 1, 1, 1, 1, 1, 1, 1, 1] ++
      [0, 0, 1, 0, 0, 0, 0, 0, 1]))))).map (fun s => (s.dec.snk, s.dec.regs.w, s.dec.regs.c)) =
      some ([0x41], 9, 981266) := by decide
/-- R217: a marker slot that holds 256 ends the run. -/
theorem test_decStep_markerEos :
    (issue .dec .decStep (withDecoder (decFull .reset (bin [0, 0, 0, 0, 0, 0, 0, 1, 0, 0, 0, 0, 0, 0, 0, 0])))).map
      (fun s => (s.dec.snk, s.dec.regs.st)) = some ([], .done) := by decide
/-- R81, R206: the header symbol of Monitor. -/
theorem test_hdrMonitor :
    (after (exec .hdrMonitor (withDecoder { Dec.reset with rem := bin [1, 0] }))).map (fun s => s.dec.regs.mode) =
      some .monitor := by decide
/-- R213. -/
theorem test_cw9Lit :
    (after (exec (.cw9Lit 66) (withDecoder (decTbl true (natBits 9 66))))).map (fun s => (s.dec.snk, tblRead s.dec.tbl 260)) =
      some ([0x42], some ⟨65, [66, 66]⟩) := by decide
/-- R214. -/
theorem test_cw12Ref :
    (after (exec (.cw12Ref 259) (withDecoder (decTbl true (natBits 12 259))))).map
      (fun s => (s.dec.snk, tblRead s.dec.tbl 260)) = some ([0x42, 0x41], some ⟨65, [66, 66]⟩) := by decide
/-- R216. -/
theorem test_cw16Kwkwk :
    (after (exec (.cw16Kwkwk 260) (withDecoder (decTbl true (natBits 16 260))))).map
      (fun s => (s.dec.snk, tblRead s.dec.tbl 260)) = some ([0x41, 0x42, 0x41], some ⟨65, [66, 65]⟩) := by decide
/-- R215. -/
theorem test_cw10Rstmark :
    (after (exec .cw10Rstmark (withDecoder (decTbl true (natBits 10 257))))).map (fun s => s.dec.regs.faultCode) = some 6 := by
  decide
/-- R212: the pending registration is dropped. -/
theorem test_cw11Eos :
    (after (exec .cw11Eos (withDecoder (decTbl true (natBits 11 256))))).map (fun s => (s.dec.regs.st, s.dec.regs.next)) =
      some (.done, 260) := by decide

/-! ### The command port and the host -/

/-- G4: an unassigned OPSEL. -/
theorem test_unassigned_G4 : (issue .enc .opsel3Unassigned State.reset).map (fun s => s.enc.status) = some 0x00204983 := by
  decide
/-- G4: `DEC.RUN` sent to ENC. -/
theorem test_wrong_unit_G4 : (issue .enc .decRun State.reset).map (fun s => s.enc.status) = some 0x00204983 := by decide
/-- R240: in FAULT a command is ignored. -/
theorem test_fault_kept :
    (issue .enc .opsel7Unassigned (withEncoder { Enc.reset with regs := faultRegs 5 })).map (fun s => s.enc.regs.faultCode) =
      some 5 := by decide
/-- R241, R255: hardware reset leaves FAULT; the step takes the host's action. -/
theorem test_hwReset :
    (after (step { withEncoder { Enc.reset with regs := faultRegs 5 } with port := [.hwReset .enc] })).map
      (fun s => (s.enc.status, s.port)) = some (0x00204900, []) := by decide
/-- A table word is met by the next step from reset: `ENC.START 0`. -/
theorem test_withFetchWord_command :
    (after (step (State.reset.withFetchWord 44 0x00000000000))).map (fun s => s.enc.status) = some 0x00204901 := by decide
/-- A table word is met by the next step from reset: HDR.MONITOR. -/
theorem test_withFetchWord_header :
    (after (step (State.reset.withFetchWord 2 2))).map (fun s => (s.dec.regs.mode, s.dec.regs.st)) =
      some (.monitor, .active) := by decide
/-- A table word is met by the next step from reset: CW9.KWKWK 259, the phrase "BB". -/
theorem test_withFetchWord_codeword :
    (after (step (State.reset.withFetchWord 9 259))).map (fun s => s.dec.snk) = some [0x42, 0x42] := by decide

/-! ### Witnesses: the hypotheses of each obligation are met -/

/-- The next state of an outcome, or the reset state where there is none. -/
def stepped (o : Host.Outcome State Fault Refusal) : State := (after o).getD State.reset

theorem next_stepped {o : Host.Outcome State Fault Refusal} (h : (after o).isSome = true) : o = .next (stepped o) := by
  cases o with
  | next s => rfl
  | fault f => cases h
  | refused r => cases h

/-- A machine with both units' registers as given. -/
def both (r : Regs) (port : List HostAct) : State :=
  { State.reset with enc := { Enc.reset with regs := r }, dec := { Dec.reset with regs := r }, port := port }

/-- A command to ENC. -/
def toEnc (i : Instr) : HostAct := .command .enc (encodeCommand i)

/-- A command to DEC. -/
def toDec (i : Instr) : HostAct := .command .dec (encodeCommand i)

theorem witness_HardwareResetRestoresTheUnit :
    (both (faultRegs 8) [.hwReset .enc]).port = [.hwReset .enc] ∧ (both (faultRegs 8) [.hwReset .dec]).port = [.hwReset .dec] :=
  ⟨rfl, rfl⟩

theorem witness_OnlyHardwareResetLeavesFault :
    ∃ s t : State, step s = .next t ∧ (∀ rest, s.port ≠ .hwReset .enc :: rest) ∧ (∀ rest, s.port ≠ .hwReset .dec :: rest) ∧
      s.enc.regs.st = .fault ∧ s.dec.regs.st = .fault :=
  ⟨both (faultRegs 8) [toEnc .encStep], _, next_stepped (by decide), by simp [both, toEnc], by simp [both, toEnc], rfl, rfl⟩

theorem witness_DoneIsLeftOnlyByResetOrFault :
    ∃ s t : State, step s = .next t ∧ (∀ rest, s.port ≠ .hwReset .enc :: rest) ∧ (∀ rest, s.port ≠ .hwReset .dec :: rest) ∧
      s.enc.regs.st = .done ∧ s.dec.regs.st = .done :=
  ⟨both { Regs.reset with st := .done } [toDec .decStep], _, next_stepped (by decide), by simp [both, toDec],
    by simp [both, toDec], rfl, rfl⟩

/-- Nothing issued; a step that addresses one unit; a new source for an IDLE and for an ACTIVE unit, of each kind. -/
theorem witness_IdlePortKeepsTheState :
    State.reset.port = [] ∧
      (∃ s t : State, step s = .next t ∧ (∀ a rest, s.port = a :: rest → a.unit ≠ .enc) ∧ s.port = [toDec .decStart]) ∧
      (∃ s t : State, step s = .next t ∧ (∀ a rest, s.port = a :: rest → a.unit ≠ .dec) ∧ s.port = [toEnc .encStep]) ∧
      (∃ s : State, s.port = .setSource .enc [65] :: [] ∧ s.enc.regs.st ≠ .active) ∧
      (∃ s : State, s.port = .setSource .enc [65] :: [] ∧ s.enc.regs.st = .active) ∧
      (∃ s : State, s.port = .setSource .dec [65] :: [] ∧ s.dec.regs.st ≠ .active ∧ s.dec.rem ≠ []) ∧
      ∃ s : State, s.port = .setSource .dec [65] :: [] ∧ s.dec.regs.st = .active :=
  ⟨rfl,
    ⟨both Regs.reset [toDec .decStart], _, next_stepped (by decide), by simp [both, toDec, HostAct.unit], rfl⟩,
    ⟨both Regs.reset [toEnc .encStep], _, next_stepped (by decide), by simp [both, toEnc, HostAct.unit], rfl⟩,
    ⟨both Regs.reset [.setSource .enc [65]], rfl, by decide⟩,
    ⟨both { Regs.reset with st := .active } [.setSource .enc [65]], rfl, rfl⟩,
    ⟨{ withDecoder { Dec.reset with rem := [true] } with port := [.setSource .dec [65]] }, rfl, by decide, by decide⟩,
    ⟨both { Regs.reset with st := .active } [.setSource .dec [65]], rfl, rfl⟩⟩

theorem witness_StepExecutesTheDecodedCommand :
    (both Regs.reset [toEnc .bcWinit]).port = .command .enc (encodeCommand .bcWinit) :: [] := rfl

/-- DEC.START's clause. -/
theorem witness_DecoderExecutesTheDecodedSymbols_header :
    ∃ (s : State) (i : Instr) (rest : List Bool), s.target = .dec ∧ s.dec.regs.st = .idle ∧ decode .header (bytesToBits s.dec.src) = .ok (i, rest) :=
  ⟨withDecoder { Dec.reset with src := [0x08, 0x30, 0x00] }, .hdrNone, _, rfl, rfl, rfl⟩

/-- DEC.STEP's clause without a dictionary reset. -/
theorem witness_DecoderExecutesTheDecodedSymbols_data :
    ∃ (s : State) (a : Action) (d : Dec) (i : Instr) (rest : List Bool), s.target = .dec ∧ s.dec.regs.st = .active ∧
      decHead s.dec.answered = (a, d) ∧ a ≠ .doReset ∧ decode (.data d.regs.w.toNat d.regs.next.toNat) d.rem = .ok (i, rest) :=
  ⟨withDecoder (decTbl false (natBits 9 260)), _, _, .cw9Kwkwk 260, _, rfl, rfl, rfl, by decide, rfl⟩

/-- DEC.STEP's clause with a dictionary reset: the marker and then a codeword. -/
theorem witness_DecoderExecutesTheDecodedSymbols_marker :
    ∃ (s : State) (d : Dec) (i j : Instr) (rest rest' : List Bool) (t : State), s.target = .dec ∧ s.dec.regs.st = .active ∧
      decHead s.dec.answered = (.doReset, d) ∧ decode .marker d.rem = .ok (i, rest) ∧ exec i (s.withDec d) = .next t ∧
      t.dec.regs.st = .active ∧ decode (.data t.dec.regs.w.toNat t.dec.regs.next.toNat) t.dec.rem = .ok (j, rest') :=
  ⟨withDecoder (decFull .reset (natBits 16 257 ++ natBits 9 65)), _, .mk16Rstmark 257, .cw9Lit 65, natBits 9 65, [], _, rfl, rfl,
    rfl, rfl, next_stepped rfl, rfl, rfl⟩

/-- DEC.STEP's clause with a dictionary reset: a marker slot that ends the stream. -/
theorem witness_DecoderExecutesTheDecodedSymbols_markerEos :
    ∃ (s : State) (d : Dec) (i : Instr) (rest : List Bool) (t : State), s.target = .dec ∧ s.dec.regs.st = .active ∧
      decHead s.dec.answered = (.doReset, d) ∧ decode .marker d.rem = .ok (i, rest) ∧ exec i (s.withDec d) = .next t ∧
      t.dec.regs.st ≠ .active :=
  ⟨withDecoder (decFull .reset (natBits 16 256)), _, .mk16Eos, [], _, rfl, rfl, rfl, rfl, next_stepped rfl, by decide⟩

theorem witness_FaultEntryKeepsTheFirstFault : Regs.reset.st ≠ .fault ∧ (faultRegs 1).st = .fault := by decide

theorem witness_DecodeOfEncodeIsTheInstruction :
    (WellFormed (.cw9Ref 258) ∧ Instr.fitsNext 259 (.cw9Ref 258) = true) ∧
      (WellFormed (.cw9Kwkwk 258) ∧ Instr.fitsNext 258 (.cw9Kwkwk 258) = true) ∧
      (WellFormed (.cw16Kwkwk 0xFFFF) ∧ Instr.fitsNext 0xFFFF (.cw16Kwkwk 0xFFFF) = true) ∧
      (WellFormed (.cw16Ref 0xFFFF) ∧ Instr.fitsNext 0x10000 (.cw16Ref 0xFFFF) = true) ∧
      (WellFormed (.bcWrite 0xFFFFFFFF 63) ∧ Instr.fitsNext 0 (.bcWrite 0xFFFFFFFF 63) = true) := by decide

theorem witness_EncodeOfDecodeIsTheSymbolBits :
    decode .header (bin [1, 1]) = .ok (.hdrIllegal, []) ∧
      decode .marker (natBits 16 0xFFFF) = .ok (.mk16Rstmark 0xFFFF, []) ∧
      decode (.data 16 0xFFFF) (natBits 16 0xFFFF) = .ok (.cw16Kwkwk 0xFFFF, []) ∧
      decode (.data 9 512) (natBits 9 511) = .ok (.cw9Ref 511, []) := ⟨rfl, rfl, rfl, rfl⟩

theorem witness_BcWinitClearsThePacker :
    ∃ s t : State, s.target = .enc ∧ s.enc.regs.st = .idle ∧ exec .bcWinit s = .next t ∧
      ∃ s' : State, s'.target = .enc ∧ s'.enc.regs.st ≠ .idle :=
  ⟨withEncoder { Enc.reset with acc := [true] }, _, rfl, rfl, next_stepped rfl, withEncoder (encOn []), rfl, by decide⟩

/-- Widths 1 and 32, a partial byte of seven bits, the largest 32-bit value. -/
theorem witness_BcWriteAppendsTheBits :
    ∃ s : State, s.target = .enc ∧ s.enc.regs.st = .idle ∧ s.enc.acc.length < 8 ∧
      (1 ≤ (1 : BitVec 6).toNat ∧ (1 : BitVec 6).toNat ≤ 32 ∧ (1 : BitVec 32).toNat < 2 ^ (1 : BitVec 6).toNat) ∧
      (1 ≤ (32 : BitVec 6).toNat ∧ (32 : BitVec 6).toNat ≤ 32 ∧ (0xFFFFFFFF : BitVec 32).toNat < 2 ^ (32 : BitVec 6).toNat) :=
  ⟨withEncoder { Enc.reset with acc := List.replicate 7 true }, by decide⟩

theorem witness_BcWriteFaultsMoveNothing :
    State.reset.target = .enc ∧ State.reset.enc.regs.st = .idle ∧ (0 : BitVec 6).toNat < 1 ∧ 32 < (33 : BitVec 6).toNat ∧
      (1 ≤ (1 : BitVec 6).toNat ∧ (1 : BitVec 6).toNat ≤ 32 ∧ 2 ^ (1 : BitVec 6).toNat ≤ (2 : BitVec 32).toNat) ∧
      2 ^ (31 : BitVec 6).toNat ≤ (0x80000000 : BitVec 32).toNat := by decide

theorem witness_BcFlushPadsToAByte :
    ∃ s s' : State, (s.target = .enc ∧ s.enc.regs.st = .idle ∧ s.enc.acc.length = 7) ∧
      (s'.target = .enc ∧ s'.enc.regs.st = .idle ∧ s'.enc.acc.length = 0) :=
  ⟨withEncoder { Enc.reset with acc := List.replicate 7 true }, State.reset, by decide⟩

theorem witness_BcRinitLoadsAndIsemptyReports :
    (withDecoder { Dec.reset with src := [0xA5] }).target = .dec ∧
      (withDecoder { Dec.reset with src := [0xA5] }).dec.regs.st = .idle := by decide

theorem witness_BcReadTakesTheFirstBits :
    ∃ s : State, s.target = .dec ∧ s.dec.regs.st = .idle ∧
      (1 ≤ (1 : BitVec 6).toNat ∧ (1 : BitVec 6).toNat ≤ 32 ∧ (1 : BitVec 6).toNat ≤ s.dec.rem.length) ∧
      (1 ≤ (31 : BitVec 6).toNat ∧ (31 : BitVec 6).toNat ≤ 32 ∧ (31 : BitVec 6).toNat ≤ s.dec.rem.length) ∧
      (0 : BitVec 6).toNat < 1 ∧ 32 < (33 : BitVec 6).toNat ∧
      (1 ≤ (32 : BitVec 6).toNat ∧ (32 : BitVec 6).toNat ≤ 32 ∧ s.dec.rem.length < (32 : BitVec 6).toNat) :=
  ⟨withDecoder { Dec.reset with rem := List.replicate 31 true }, by decide⟩

theorem witness_PackerEquation :
    ∃ (ps : List (Nat × Nat)) (e e' : Enc), e.acc = [] ∧ e.snk = [] ∧ bcWrites ps e = .ok () e' ∧ ps.length = 3 :=
  ⟨[(1, 1), (0x1FF, 9), (0xDEADBEEF, 32)], Enc.reset, _, rfl, rfl, rfl, rfl⟩

theorem witness_UnpackerEquation :
    ∃ (ps : List (Nat × Nat)) (e e' : Enc) (d : Dec), e.acc = [] ∧ e.snk = [] ∧ bcWrites ps e = .ok () e' ∧
      d.src = (bcFlush e').snk ∧ ps.length = 3 :=
  ⟨[(1, 1), (0x1FF, 9), (0xDEADBEEF, 32)], Enc.reset, _, { Dec.reset with src := _ }, rfl, rfl, rfl, rfl, rfl⟩

theorem witness_LongestPrefixIsMatched : ∃ (e : Enc) (b : Byte) (bs : List Byte), e.src = b :: bs ∧ dictCode e.trie ⟨b, bs⟩ = some 259 :=
  ⟨{ Enc.reset with src := [65, 66, 65], trie := trie1 }, 65, [66, 65], by decide⟩

/-- The third clause's and the second's hypotheses. -/
theorem witness_InsertGivesThePhraseItsCode :
    trieRead trie1 65 66 = some 258 ∧ dictCode trie1 ⟨66, []⟩ = some 66 ∧ trieRead trie1 66 65 = none ∧
      dictCode trie1 ⟨65, [66, 65]⟩ = some 259 := by decide

theorem witness_RegisterWritesSlotNext :
    (258 ≤ 258 ∧ 258 ≤ 65535 ∧ 258 ≤ 65535 ∧ 65535 ≤ 65535) ∧ Cells.Wf tblDefault (decTbl true []).tbl ∧ 259 ≠ (decTbl true []).regs.next.toNat := by decide

theorem witness_AdvanceFollowsTheStateMachine :
    (∃ r : Regs, r.next.toNat = 511 ∧ r.next.toNat < 2 ^ r.w.toNat) ∧
      (∃ r : Regs, r.next.toNat = 2 ^ r.w.toNat ∧ r.w.toNat < 16 ∧ r.w.toNat = 15) ∧
      (∃ r : Regs, r.next.toNat = 65536 ∧ r.w.toNat = 16) :=
  ⟨⟨{ Regs.reset with next := 511 }, by decide⟩, ⟨{ Regs.reset with next := 32768, w := 15 }, by decide⟩,
    ⟨{ Regs.reset with next := 65536, w := 16 }, by decide⟩⟩

theorem witness_PolicyAnswers :
    Regs.reset.mode = .none ∧ (encFull .reset []).regs.mode = .reset ∧
      ((encFull .monitor []).regs.mode = .monitor ∧ (encFull .monitor []).regs.latched = false ∧
        0 < (encFull .monitor []).regs.u.toNat ∧ 0 < (encFull .monitor []).regs.c.toNat) ∧
      ∃ r : Regs, r.mode = .monitor ∧ r.latched = true :=
  ⟨rfl, rfl, by decide, { Regs.reset with mode := .monitor, latched := true }, rfl, rfl⟩

theorem witness_RatioTestIsTheExactFraction : ∃ r : Regs, 0 < r.c0.toNat ∧ 0 < r.u.toNat ∧ 0 < r.c.toNat :=
  ⟨{ Regs.reset with u0 := 1600000, c0 := 1000000, u := 3200000, c := 2200000 }, by decide⟩

theorem witness_EncStartBeginsAStreamOrRefusesModeThree : State.reset.target = .enc ∧ State.reset.enc.regs.st = .idle := by
  decide

/-! A chain of phrases "AA", "AAA", ...: a dictionary of any size that meets the invariant. -/

/-- The node that entry `i` of the chain hangs on. -/
def chainNode (i : Nat) : Nat := if i = 0 then 65 else 257 + i

/-- The chain of `n` registered phrases. -/
def chain (n : Nat) : Cells Code := (List.range n).map fun i => (256 * chainNode i + 65, BitVec.ofNat 17 (258 + i))

theorem chainNode_lt {i j : Nat} (h : i < j) : chainNode i < chainNode j := by
  unfold chainNode; split <;> split <;> omega

theorem chain_wf (n : Nat) : Cells.Wf trieDefault (chain n) := by
  refine ⟨?_, fun e _ => by simp [trieDefault]⟩
  rw [chain, List.map_map, List.pairwise_map]
  refine List.pairwise_lt_range.imp fun h => ?_
  have := chainNode_lt h
  simp only [Function.comp]
  omega

theorem chain_inv {n : Nat} (h : n ≤ 65278) : TrieInv (chain n) (n + 258) := by
  have hv : ∀ i, i < n → (BitVec.ofNat 17 (258 + i)).toNat = 258 + i := fun i hi => by
    rw [BitVec.toNat_ofNat]; omega
  refine ⟨fun e he => ?_, ?_, by simp [chain]⟩
  · obtain ⟨i, hi, rfl⟩ := List.mem_map.mp he
    rw [List.mem_range] at hi
    have hv := hv i hi
    have hn : chainNode i < 256 ∨ 258 ≤ chainNode i := by unfold chainNode; split <;> omega
    have hn' : chainNode i < 258 + i := by unfold chainNode; split <;> omega
    refine ⟨?_, ?_, ?_, ?_⟩ <;> simp only <;> omega
  · rw [chain, List.map_map]
    refine List.Nodup.map_on (fun a ha b hb hab => ?_) List.nodup_range
    rw [List.mem_range] at ha hb
    have hab := congrArg BitVec.toNat hab
    simp only [Function.comp, hv a ha, hv b hb] at hab
    omega

theorem chain_find (n k : Nat) (h : k % 256 ≠ 65) : Cells.find (chain n) k = none := by
  unfold chain
  induction List.range n with
  | nil => rfl
  | cons i is ih =>
    rw [List.map_cons, Cells.find, if_neg, ih]
    simp only
    omega

/-- ENC with a dictionary of `n` phrases at width `w` and `k` bytes in the sink, its partial byte and sink in step with C. -/
def encChain (n k : Nat) (w : BitVec 5) (m : Mode) (src : List Byte) : Enc :=
  { Enc.reset with
    regs :=
      { Regs.reset with
        st := .active
        mode := m
        w := w
        next := BitVec.ofNat 17 (n + 258)
        u := 8
        c := BitVec.ofNat 64 (8 * k + 2) }
    trie := chain n
    acc := [false, false]
    src := src
    snk := List.replicate k 0 }

/-- What makes `encChain` meet the invariant. -/
abbrev ChainFits (n k : Nat) (w : BitVec 5) : Prop :=
  n ≤ 65278 ∧ 8 * k + 2 < 2 ^ 64 ∧ 9 ≤ w.toNat ∧ w.toNat ≤ 16 ∧ n + 258 ≤ 2 ^ w.toNat

theorem encChain_c {n k : Nat} {w : BitVec 5} (m : Mode) (src : List Byte) (h : 8 * k + 2 < 2 ^ 64) :
    (encChain n k w m src).regs.c.toNat = 8 * k + 2 := by
  simp only [encChain, BitVec.toNat_ofNat]
  omega

theorem encChain_inv {n k : Nat} {w : BitVec 5} (m : Mode) (src : List Byte) (h : ChainFits n k w) :
    (encChain n k w m src).Inv := by
  obtain ⟨hn, hk, h9, h16, hw⟩ := h
  have hn' : (encChain n k w m src).regs.next.toNat = n + 258 := by
    simp only [encChain, BitVec.toNat_ofNat]; omega
  refine ⟨by simp [encChain], chain_wf n, ⟨by simp [encChain, Regs.reset], by simp [encChain, Regs.reset]⟩,
    fun _ => ⟨⟨h9, h16, ?_, ?_, ?_, ?_⟩, ?_, ?_⟩⟩
  · rw [hn']; omega
  · rw [hn']; exact hw
  · rw [encChain_c m src hk]; omega
  · simp [encChain, Regs.reset]
  · rw [hn']; exact chain_inv hn
  · rw [encChain_c m src hk]; simp [encChain]

theorem encChain_lpm (n k : Nat) (w : BitVec 5) (m : Mode) :
    pdLpm (encChain n k w m [66, 66]) = .ok (66, 1) (encChain n k w m [66, 66]) := by
  have : trieRead (chain n) (seedCode 66) 66 = none := by
    rw [trieRead, Cells.read, chain_find _ _ (by decide)]; rfl
  simp only [pdLpm, encChain, lpmWalk, pdChild, this]
  rfl

/-- The input's end. -/
theorem witness_EncStepEmitsTheLongestMatch_end :
    ∃ (e : Enc) (m : Code × Nat), e.regs.st = .active ∧ e.Inv ∧ e.src = [65] ∧ pdLpm e = .ok m e ∧ e.src[m.2]? = none :=
  ⟨encOn [65], (65, 1), rfl, by decide, rfl, rfl, rfl⟩

/-- A byte follows: the first registration; a full dictionary under None and under Reset; a codeword that overflows C; a marker that
does. -/
theorem witness_EncStepEmitsTheLongestMatch :
    ∀ r : Mode × Nat × Nat × BitVec 5,
      r ∈ [(Mode.none, 0, 0, 9), (Mode.none, 65278, 0, 16), (Mode.reset, 65278, 0, 16), (Mode.none, 0, 2 ^ 61 - 1, 9),
        (Mode.reset, 65278, 2 ^ 61 - 3, 16)] →
      ∃ (e : Enc) (m : Code × Nat), e.regs.st = .active ∧ e.Inv ∧ e.src = [66, 66] ∧ pdLpm e = .ok m e ∧
        e.src[m.2]? = some 66 ∧ e.regs.mode = r.1 ∧ e.regs.next.toNat = r.2.1 + 258 ∧ e.regs.w = r.2.2.2 ∧
        e.regs.c.toNat = 8 * r.2.2.1 + 2 := by
  intro r hr
  have h : ChainFits r.2.1 r.2.2.1 r.2.2.2 := by
    simp only [List.mem_cons, List.not_mem_nil, or_false] at hr
    rcases hr with rfl | rfl | rfl | rfl | rfl <;> decide
  exact ⟨encChain r.2.1 r.2.2.1 r.2.2.2 r.1 [66, 66], (66, 1), rfl, encChain_inv _ _ h, rfl, encChain_lpm _ _ _ _, rfl, rfl,
    by simp only [encChain, BitVec.toNat_ofNat]; omega, rfl, encChain_c _ _ h.2.1⟩

/-- The overflow cases of those states are the ones they are meant for; and a U that overflows. -/
theorem witness_EncStepEmitsTheLongestMatch_overflow :
    2 ^ 64 ≤ 8 * (2 ^ 61 - 1) + 2 + 9 ∧ ¬2 ^ 64 ≤ 8 * (2 ^ 61 - 3) + 2 + 16 ∧ 2 ^ 64 ≤ 8 * (2 ^ 61 - 3) + 2 + 16 + 16 ∧
      ∃ (e : Enc) (m : Code × Nat), e.regs.st = .active ∧ e.Inv ∧ e.src = [65] ∧ pdLpm e = .ok m e ∧
        ¬2 ^ 64 ≤ e.regs.c.toNat + e.regs.w.toNat ∧ 2 ^ 64 ≤ e.regs.u.toNat + 8 * m.2 :=
  ⟨by norm_num, by norm_num, by norm_num,
    { encOn [65] with regs := { (encOn [65]).regs with u := 0xFFFFFFFFFFFFFFF8 } }, (65, 1), rfl, by decide, rfl, rfl, by decide,
    by decide⟩

/-- The width in force; (W2) the one that the full 9-bit dictionary escalates to; at 16 bits no more; a C that overflows. -/
theorem witness_EncStepAtTheEndWritesEos :
    ∀ r : Nat × Nat × BitVec 5, r ∈ [(0, 0, 9), (254, 0, 9), (65278, 0, 16), (254, 2 ^ 61 - 1, 9)] →
      ∃ e : Enc, e.regs.st = .active ∧ e.Inv ∧ e.src = [] ∧ e.regs.next.toNat = r.1 + 258 ∧ e.regs.w = r.2.2 ∧
        e.regs.c.toNat = 8 * r.2.1 + 2 := by
  intro r hr
  have h : ChainFits r.1 r.2.1 r.2.2 := by
    simp only [List.mem_cons, List.not_mem_nil, or_false] at hr
    rcases hr with rfl | rfl | rfl | rfl <;> decide
  exact ⟨encChain r.1 r.2.1 r.2.2 .none [], rfl, encChain_inv _ _ h, rfl, by simp only [encChain, BitVec.toNat_ofNat]; omega, rfl,
    encChain_c _ _ h.2.1⟩

theorem witness_EncRunEndsTheStream :
    ∃ s : State, s.target = .enc ∧ s.enc.regs.st = .active ∧ s.enc.Inv ∧ s.enc.src = [65, 66] ∧
      s.enc.regs.u.toNat + 8 * s.enc.src.length < 2 ^ 64 ∧ s.enc.regs.c.toNat + 32 * s.enc.src.length + 16 < 2 ^ 64 :=
  ⟨withEncoder (encOn [65, 66]), by decide⟩

theorem witness_EncRunIsRepeatedStep :
    (∃ s s1 : State, s.target = .enc ∧ s.enc.regs.st = .active ∧ exec .encStep s = .next s1 ∧ s1.enc.regs.st = .active) ∧
      ∃ s s1 : State, s.target = .enc ∧ s.enc.regs.st = .active ∧ exec .encStep s = .next s1 ∧ s1.enc.regs.st ≠ .active :=
  ⟨⟨withEncoder (encOn [65, 66]), _, rfl, rfl, next_stepped rfl, by decide⟩,
    ⟨withEncoder (encOn []), _, rfl, rfl, next_stepped rfl, by decide⟩⟩

theorem witness_ByteSerialFormWritesTheSameStream : (encOn [65, 66]).regs.st = .active := rfl

theorem witness_HeaderSymbolsStartTheStream :
    ∃ s : State, s.dec.regs.st = .idle ∧ 2 ≤ s.dec.rem.length ∧ s.dec.regs.c.toNat + 2 < 2 ^ 64 :=
  ⟨withDecoder { Dec.reset with rem := [true, true] }, by decide⟩

theorem witness_DecStartReadsTheHeader :
    ∀ m : Mode, ∃ s : State, s.target = .dec ∧ s.dec.regs.st = .idle ∧
      (bytesToBits s.dec.src).take 2 = natBits 2 m.bits.toNat := by
  intro m
  cases m
  · exact ⟨withDecoder { Dec.reset with src := [0x20, 0x00] }, by decide⟩
  · exact ⟨withDecoder { Dec.reset with src := [0x60, 0x00] }, by decide⟩
  · exact ⟨withDecoder { Dec.reset with src := [0xA0, 0x00] }, by decide⟩

theorem witness_DecStartFaultsOnABadHeader :
    (∃ s : State, s.target = .dec ∧ s.dec.regs.st = .idle ∧ s.dec.src = []) ∧
      ∃ s : State, s.target = .dec ∧ s.dec.regs.st = .idle ∧ (bytesToBits s.dec.src).take 2 = [true, true] :=
  ⟨⟨withDecoder Dec.reset, by decide⟩, ⟨withDecoder { Dec.reset with src := [0xC0] }, by decide⟩⟩

/-- The bytes 0 and 255, just enough bits. -/
theorem witness_LiteralOutputsItsByte :
    (∃ d : Dec, d.Ready (CwFormat.width .cw9) ∧ d.Countable (Phrase.single 0)) ∧
      ∃ d : Dec, d.Ready (CwFormat.width .cw16) ∧ d.Countable (Phrase.single 255) :=
  ⟨⟨decOn (natBits 9 0), by decide⟩, ⟨decOn (natBits 16 255), by decide⟩⟩

/-- The first registered code and the last one below NEXT. -/
theorem witness_ReferenceOutputsItsSlot :
    ∀ code ∈ [(258 : BitVec 9), 259], ∃ (d : Dec) (p : Phrase), d.Ready (CwFormat.width .cw9) ∧ 258 ≤ code.toNat ∧
      code.toNat < d.regs.next.toNat ∧ tblRead d.tbl code.toNat = some p ∧ d.Countable p := by
  intro code hc
  simp only [List.mem_cons, List.not_mem_nil, or_false] at hc
  rcases hc with rfl | rfl
  · exact ⟨decTbl true (natBits 9 258), ⟨65, [66]⟩, by decide⟩
  · exact ⟨decTbl true (natBits 9 259), ⟨66, [65]⟩, by decide⟩

theorem witness_SelfReferenceOutputsPrevAndItsFirstByte :
    ∃ (code : BitVec (CwFormat.width .cw10)) (d : Dec), d.Ready (CwFormat.width .cw10) ∧ code.toNat = d.regs.next.toNat ∧
      d.pending = true ∧ Cells.Wf tblDefault d.tbl ∧ d.Countable (d.prev.snoc d.prev.first) :=
  ⟨260, decTbl true (natBits 10 260), by decide⟩

theorem witness_EosEndsTheStream : ∃ d : Dec, d.Ready (CwFormat.width .cw9) := ⟨decOn (natBits 9 256), by decide⟩

theorem witness_MarkerInDataIsInvalid : ∃ d : Dec, d.Ready (CwFormat.width .cw16) := ⟨decOn (natBits 16 257), by decide⟩

/-- The slot's bits are there; the values next to 256 are the row's, 256 is not. -/
theorem witness_MarkerSlotResetsOrEnds :
    (decFull .reset (natBits 16 256)).Ready 16 ∧ WellFormed (.mk16Rstmark 255) ∧ WellFormed (.mk16Rstmark 257) ∧
      ¬WellFormed (.mk16Rstmark 256) := by decide

/-- Not started; one bit too few; the last counter value that overflows. -/
theorem witness_SymbolsTrapOnShortStreamAndOverflow :
    ((∃ f : CwFormat, 9 = f.width ∧ ∃ c, Instr.cw9Eos = f.instr c) ∧ Instr.slot 0 .mk16Eos = .marker) ∧
      (∃ s : State, s.dec.regs.st ≠ .active) ∧
      (∃ s : State, s.dec.regs.st = .active ∧ s.dec.rem.length < 9 ∧ s.dec.rem.length = 8) ∧
      ∃ s : State, s.dec.regs.st = .active ∧ 9 ≤ s.dec.rem.length ∧ s.dec.regs.c.toNat + 9 = 2 ^ 64 :=
  ⟨⟨⟨.cw9, rfl, .eos, rfl⟩, rfl⟩, ⟨State.reset, by decide⟩, ⟨withDecoder (decOn (List.replicate 8 false)), by decide⟩,
    ⟨withDecoder { decOn (natBits 9 256) with regs := { Regs.reset with st := .active, c := 0xFFFFFFFFFFFFFFF7 } }, by decide⟩⟩

/-- A code equal to NEXT with nothing pending, and one above NEXT with a registration pending. -/
theorem witness_SymbolsTrapOnShortStreamAndOverflow_illegal :
    (∃ (code : BitVec 9) (d : Dec), d.Ready (CwFormat.width .cw9) ∧ code.toNat = d.regs.next.toNat ∧
      ¬(code.toNat = d.regs.next.toNat ∧ d.pending = true)) ∧
    ∃ (code : BitVec 9) (d : Dec), d.Ready (CwFormat.width .cw9) ∧ code.toNat = d.regs.next.toNat + 1 ∧
      ¬(code.toNat = d.regs.next.toNat ∧ d.pending = true) ∧ d.pending = true :=
  ⟨⟨260, decTbl false (natBits 9 260), by decide⟩, ⟨261, decTbl true (natBits 9 261), by decide⟩⟩

/-- DEC of T1 with U as given. -/
def decTblU (u : Count) (rem : List Bool) : Dec := { decTbl true rem with regs := { (decTbl true rem).regs with u := u } }

/-- U that overflows by the least: a LIT, a REF of two bytes, a KWKWK of three. -/
theorem witness_SymbolsTrapOnShortStreamAndOverflow_countU :
    (∃ d : Dec, d.Ready (CwFormat.width .cw9) ∧ ¬d.Countable (Phrase.single 65)) ∧
    (∃ (code : BitVec 9) (d : Dec) (p : Phrase), d.Ready (CwFormat.width .cw9) ∧ 258 ≤ code.toNat ∧
      code.toNat < d.regs.next.toNat ∧ tblRead d.tbl code.toNat = some p ∧ ¬d.Countable p) ∧
    ∃ (code : BitVec 9) (d : Dec), d.Ready (CwFormat.width .cw9) ∧ code.toNat = d.regs.next.toNat ∧ d.pending = true ∧
      ¬d.Countable (d.prev.snoc d.prev.first) :=
  ⟨⟨decTblU 0xFFFFFFFFFFFFFFF8 (natBits 9 65), by decide⟩, ⟨258, decTblU 0xFFFFFFFFFFFFFFF0 (natBits 9 258), ⟨65, [66]⟩, by decide⟩,
    ⟨260, decTblU 0xFFFFFFFFFFFFFFE8 (natBits 9 260), by decide⟩⟩

theorem witness_DecStepOutputsTheResolvedPhrase :
    ∃ (s : State) (a : Action) (d : Dec) (p : Phrase), s.target = .dec ∧ s.dec.regs.st = .active ∧
      decHead s.dec.answered = (a, d) ∧ a ≠ .doReset ∧ 9 ≤ d.regs.w.toNat ∧ d.regs.w.toNat ≤ 16 ∧ d.Ready d.regs.w.toNat ∧
      bitsToNat (d.rem.take d.regs.w.toNat) ≠ 256 ∧ ctResolve (bitsToNat (d.rem.take d.regs.w.toNat)) d = .ok p d ∧
      d.Countable p :=
  ⟨withDecoder (decTbl false (natBits 9 260)), _, _, ⟨65, [66, 65]⟩, rfl, rfl, rfl, by decide, by decide, by decide, by decide,
    by decide, by decide, by decide⟩

theorem witness_DecStepAndRunEndAtEos :
    ∃ (s : State) (a : Action) (d : Dec), s.target = .dec ∧ s.dec.regs.st = .active ∧
      decHead s.dec.answered = (a, d) ∧ a ≠ .doReset ∧ 9 ≤ d.regs.w.toNat ∧ d.regs.w.toNat ≤ 16 ∧ d.Ready d.regs.w.toNat ∧
      bitsToNat (d.rem.take d.regs.w.toNat) = 256 :=
  ⟨withDecoder (decTbl false (natBits 9 256)), _, _, rfl, rfl, rfl, by decide, by decide, by decide, by decide, by decide⟩

theorem witness_DecRunIsRepeatedStep :
    (∃ s s1 : State, s.target = .dec ∧ s.dec.regs.st = .active ∧ exec .decStep s = .next s1 ∧ s1.dec.regs.st = .active) ∧
      (∃ s s1 : State, s.target = .dec ∧ s.dec.regs.st = .active ∧ exec .decStep s = .next s1 ∧ s1.dec.regs.st ≠ .active) ∧
      ∃ s t : State, s.target = .dec ∧ s.dec.regs.st = .active ∧ exec .decRun s = .next t :=
  ⟨⟨withDecoder (decOn (natBits 9 65)), _, rfl, rfl, next_stepped rfl, by decide⟩,
    ⟨withDecoder (decOn (natBits 9 256)), _, rfl, rfl, next_stepped rfl, by decide⟩,
    ⟨withDecoder (decOn (natBits 9 65)), _, rfl, rfl, next_stepped rfl⟩⟩

theorem witness_DecStepIsItsPseudocode :
    (∃ s : State, s.target = .dec ∧ s.dec.regs.w.toNat = 9) ∧ ∃ s : State, s.target = .dec ∧ s.dec.regs.w.toNat = 16 :=
  ⟨⟨withDecoder (decOn (natBits 9 65)), by decide⟩, ⟨withDecoder (decFull .reset (natBits 16 257)), by decide⟩⟩

theorem witness_UnassignedOpselIsAProtocolError :
    (∃ s : State, s.target = .enc ∧ s.enc.regs.st ≠ .fault) ∧ ∃ s : State, s.target = .dec ∧ s.dec.regs.st ≠ .fault :=
  ⟨⟨State.reset, by decide⟩, ⟨withDecoder Dec.reset, by decide⟩⟩

theorem witness_IllegalCommandIsAProtocolError :
    (State.reset.target = .enc ∧ State.reset.enc.regs.st ≠ .fault ∧
      (Instr.isEncCommand .encStep = true ∧ State.reset.enc.regs.st ≠ Instr.legalIn .encStep) ∧
      Instr.isDecCommand .decRun = true) ∧
    ((withDecoder Dec.reset).target = .dec ∧ (withDecoder Dec.reset).dec.regs.st ≠ .fault ∧
      (Instr.isDecCommand .decStep = true ∧ (withDecoder Dec.reset).dec.regs.st ≠ Instr.legalIn .decStep) ∧
      Instr.isEncCommand .bcFlush = true) := by decide

theorem witness_FaultedUnitIgnoresCommands :
    ∃ s s' : State, Instr.slot 0 .encRun = .command ∧ Instr.slot 0 .cw9Eos ≠ .command ∧ s.target = .enc ∧
      s.enc.regs.st = .fault ∧ s'.target = .dec ∧ s'.dec.regs.st = .fault :=
  ⟨both (faultRegs 8) [], { both (faultRegs 8) [] with target := .dec }, by decide⟩

theorem witness_UnitsShareNoState :
    (∃ s s' t : State, s.port = [toEnc (.encStart 1)] ∧ s'.port = [toEnc (.encStart 1)] ∧ s.enc = s'.enc ∧ s.dec ≠ s'.dec ∧
      step s = .next t) ∧
    ∃ s s' t : State, s.port = [toDec .decStep] ∧ s'.port = [toDec .decStep] ∧ s.dec = s'.dec ∧ s.enc ≠ s'.enc ∧
      step s = .next t :=
  ⟨⟨{ State.reset with port := [toEnc (.encStart 1)] }, { withDecoder (decOn []) with port := [toEnc (.encStart 1)] }, _, rfl,
      rfl, rfl, by decide, next_stepped (by decide)⟩,
    ⟨{ State.reset with port := [toDec .decStep] }, { withEncoder (encOn []) with port := [toDec .decStep] }, _, rfl, rfl, rfl,
      by decide, next_stepped (by decide)⟩⟩

theorem witness_ModeIsFixedInAStream :
    ∃ s t : State, step s = .next t ∧ (∀ rest, s.port ≠ .hwReset .enc :: rest) ∧ (∀ rest, s.port ≠ .hwReset .dec :: rest) ∧
      s.enc.regs.st = .active ∧ s.dec.regs.st = .active :=
  ⟨both { Regs.reset with st := .active } [toEnc (.encStart 2)], _, next_stepped (by decide), by simp [both, toEnc],
    by simp [both, toEnc], rfl, rfl⟩

theorem witness_SinksOnlyGrow :
    ∃ s t : State, (∀ m, Instr.encRun ≠ .encStart m) ∧ Instr.encRun ≠ .decStart ∧ Instr.encRun ≠ .bcWinit ∧
      exec .encRun s = .next t ∧ t.enc.snk ≠ s.enc.snk :=
  ⟨withEncoder (encOn [65]), _, by simp, by simp, by simp, next_stepped rfl, by decide⟩

/-- DEC with "AB" and "BA" registered meets the invariant. -/
theorem decTbl_inv : Dec.Inv { decTbl false (List.replicate 3 true) with snk := [65, 66, 65, 66], src := [0, 0, 0, 0] } := by
  refine ⟨by decide, by decide, fun h => (by cases h), fun _ => ⟨by decide, ⟨by decide, fun e he => ?_⟩, by decide, by decide,
    fun _ => ⟨by decide, .inr ⟨258, by decide, by decide, by decide⟩⟩⟩⟩
  simp only [decTbl, List.mem_cons, List.not_mem_nil, or_false] at he
  rcases he with rfl | rfl
  · exact ⟨⟨65, []⟩, 66, rfl, .inl rfl⟩
  · exact ⟨⟨66, []⟩, 65, rfl, .inl rfl⟩

/-- A machine with both units in a stream. -/
def running (port : List HostAct) : State :=
  { enc := encOn [65, 66]
    dec := { decTbl false (List.replicate 3 true) with snk := [65, 66, 65, 66], src := [0, 0, 0, 0] }
    port := port
    target := .enc }

theorem running_inv (port : List HostAct) : (running port).Inv :=
  ⟨(by decide : (encOn [65, 66]).Inv), decTbl_inv⟩

theorem witness_WidthRisesByOneOrRestarts :
    (∃ s t : State, s.Inv ∧ s.target = .enc ∧ s.enc.regs.st = .active ∧ exec .encStep s = .next t) ∧
      ∃ s t : State, s.Inv ∧ s.target = .dec ∧ s.dec.regs.st = .active ∧ exec .decStep s = .next t :=
  ⟨⟨running [], _, running_inv [], rfl, rfl, next_stepped rfl⟩,
    ⟨{ running [] with target := .dec }, _, running_inv [], rfl, rfl, next_stepped rfl⟩⟩

theorem witness_StepKeepsTheInvariant : ∃ s t : State, s.Inv ∧ step s = .next t ∧ t.enc.trie ≠ s.enc.trie :=
  ⟨running [toEnc .encStep], _, running_inv _, next_stepped (by decide), by decide⟩

theorem witness_NoStepStopsInTheInvariant :
    ∃ s : State, s.Inv ∧ (∀ bytes rest, s.port = .setSource .enc bytes :: rest → s.enc.regs.st ≠ .active) ∧
      (∀ bytes rest, s.port = .setSource .dec bytes :: rest → s.dec.regs.st ≠ .active) ∧ s.port = [toDec .decRun] :=
  ⟨running [toDec .decRun], running_inv _, by simp [running, toDec], by simp [running, toDec], rfl⟩

theorem witness_UnspecifiedContentsNeverMatter : ∃ a b : State, a.Agree b ∧ a.enc.trie ≠ b.enc.trie ∧ a.dec.prev ≠ b.dec.prev :=
  ⟨State.reset, { State.reset with enc := { Enc.reset with trie := trie1 }, dec := { Dec.reset with prev := ⟨65, []⟩ } },
    ⟨⟨rfl, fun h => (by cases h)⟩, ⟨rfl, fun h => (by cases h)⟩, rfl, rfl⟩, by decide, by decide⟩

/-- Two running decoders whose slots 256 and 65536 differ. -/
theorem witness_UnspecifiedContentsNeverMatter_slots :
    ∃ a b : Dec, a.Agree b ∧ a.regs.st = .active ∧ tblRead a.tbl 256 ≠ tblRead b.tbl 256 ∧
      tblRead a.tbl 65536 ≠ tblRead b.tbl 65536 :=
  ⟨{ decOn [] with tbl := [(256, ⟨1, []⟩)] }, { decOn [] with tbl := [(65536, ⟨2, []⟩)] },
    ⟨rfl, fun _ => ⟨.inr ⟨by decide, by decide, fun i h1 _ h3 => by simp [tblRead, Cells.read, Cells.find, h1, h3]⟩, fun h => (by cases h)⟩⟩,
    rfl, by decide, by decide⟩

/-- "AB" under Reset: before the second codeword (`k = 1`) and before EOS (`k = 2`). -/
theorem witness_UnitsAgreeAtEverySymbolBoundary :
    ∀ k ∈ [1, 2], ∃ (m : Mode) (e0 e1 e2 e : Enc) (r0 r1 : State),
      encStart m.bits e0 = .ok () e1 ∧ encRun e1 = .ok () e2 ∧ e2.regs.st = .done ∧ r0.dec.regs.st = .idle ∧
        r0.dec.src = e2.snk ∧ decStart r0 = .next r1 ∧ encLoop k e1 = .ok () e ∧ e.regs.st = .active ∧
        e.src = [65, 66].drop k := by
  intro k hk
  simp only [List.mem_cons, List.not_mem_nil, or_false] at hk
  rcases hk with rfl | rfl <;>
    exact ⟨.reset, { Enc.reset with src := [65, 66] }, _, _, _, withDecoder { Dec.reset with src := _ }, _, rfl, rfl, rfl, rfl, rfl,
      next_stepped rfl, rfl, rfl, rfl⟩

/-- A full dictionary under Reset with a byte that follows the match: the next step writes a marker.  (A run from ENC.START gets there
after 65279 codewords, as L2 of 95 section 9 does; it is too long to evaluate here.) -/
theorem witness_UnitsAgreeAtEverySymbolBoundary_marker :
    (encChain 65278 0 16 .reset [66, 66]).Inv ∧ (encChain 65278 0 16 .reset [66, 66]).atMarker.isSome = true := by
  refine ⟨encChain_inv _ _ (by decide), ?_⟩
  simp only [Enc.atMarker, encChain_lpm, Run.bind]
  rfl

/-- "A" under Monitor. -/
theorem witness_RoundTrip :
    ∃ (m : Mode) (s s1 s2 r : State), s.target = .enc ∧ s.enc.regs.st = .idle ∧ exec (.encStart m.bits) s = .next s1 ∧
      exec .encRun s1 = .next s2 ∧ s2.enc.regs.st = .done ∧ r.target = .dec ∧ r.dec.regs.st = .idle ∧
      r.dec.src = s2.enc.snk ∧ s.enc.src = [65] :=
  ⟨.monitor, withEncoder { Enc.reset with src := [65] }, _, _, withDecoder { Dec.reset with src := _ }, rfl, rfl,
    next_stepped rfl, next_stepped rfl, by decide, rfl, rfl, rfl, rfl⟩

end Sys2Proof.Tests
end

section
/-! PROOF. How an operation ends; the command port, unit by unit: every command is an operation on the state of the unit it is sent to
(10_state.md R20, R21; 30_encoding.md R100; 45_decoder.md R206, R210, R220). -/

namespace Sys2Proof.Machine

/-! ### How an operation ends -/

section
variable {σ α β : Type}

/-- The operation ends, going on or raising, in a state with `P`; where it gets stuck, `T` holds. -/
def Run.EndsIn (P : σ → Prop) (T : Prop) : Run σ α → Prop
  | .ok _ s => P s
  | .raised s => P s
  | .stuck _ => T

@[simp] theorem Run.endsIn_ok {P : σ → Prop} {T : Prop} {a : α} {s : σ} : (Run.ok a s).EndsIn P T ↔ P s := Iff.rfl
@[simp] theorem Run.endsIn_raised {P : σ → Prop} {T : Prop} {s : σ} : (Run.raised s : Run σ α).EndsIn P T ↔ P s := Iff.rfl
@[simp] theorem Run.endsIn_stuck {P : σ → Prop} {T : Prop} {f : Fault} : (Run.stuck f : Run σ α).EndsIn P T ↔ T := Iff.rfl

theorem Run.EndsIn.mono {P Q : σ → Prop} {T : Prop} {r : Run σ α} (h : r.EndsIn P T) (hPQ : ∀ s, P s → Q s) : r.EndsIn Q T := by
  cases r with
  | ok a s => exact hPQ s h
  | raised s => exact hPQ s h
  | stuck f => exact h

/-- Two operations, on unit states related by `R`, end alike: with one answer in related states, or stuck on one fault. -/
def Run.Alike (R : σ → σ → Prop) (r r' : Run σ α) : Prop :=
  match r, r' with
  | .ok a s, .ok a' s' => a = a' ∧ R s s'
  | .raised s, .raised s' => R s s'
  | .stuck f, .stuck f' => f = f'
  | _, _ => False

/-- A sequence of operations that end alike ends alike. -/
theorem Run.Alike.bind {R : σ → σ → Prop} {r r' : Run σ α} {k k' : α → σ → Run σ β} (h : r.Alike R r')
    (hk : ∀ a s s', R s s' → (k a s).Alike R (k' a s')) : (r.bind k).Alike R (r'.bind k') := by
  cases r <;> cases r' <;> simp_all [Run.Alike]

theorem Run.Alike.mono {R S : σ → σ → Prop} {r r' : Run σ α} (h : r.Alike R r') (hRS : ∀ s s', R s s' → S s s') :
    r.Alike S r' := by
  cases r <;> cases r' <;> simp_all [Run.Alike]

/-- An operation ends as itself. -/
theorem Run.Alike.refl {R : σ → σ → Prop} (hR : ∀ s, R s s) (r : Run σ α) : r.Alike R r := by
  cases r <;> simp [Run.Alike, hR]

end

/-! ### DEC's operations as operations on DEC alone -/

/-- A symbol's bits taken and counted; the answer is their value (R117, R171, R210). -/
def symRead (w : Nat) (d : Dec) : Run Dec Nat :=
  (bcRead w d).bind fun x d => (d.countC w).bind fun _ d => .ok x d

/-- What DEC does on a codeword of value `x`, its bits taken (R149, R210, R212). -/
def codeEffect (x : Nat) (d : Dec) : Run Dec Unit :=
  if x = Config.codeEos then .ok () d.ended else (ctResolve x d).bind symTail

/-- The codeword of DEC.STEP (R82, R210). -/
def Dec.codeword (d : Dec) : Run Dec Unit :=
  if 9 ≤ d.regs.w.toNat ∧ d.regs.w.toNat ≤ 16 then (symRead d.regs.w.toNat d).bind codeEffect else .stuck .noFormat

/-- What DEC does on a marker slot of value `x`, its bits taken (R174, R217). -/
def markerEffect (x : Nat) (d : Dec) : Dec :=
  if x = Config.codeEos then d.ended else { restartDec d with pending := false }

/-- The marker slot of DEC.STEP (R174, R217). -/
def Dec.marker (d : Dec) : Run Dec Unit := (symRead 16 d).bind fun x d => .ok () (markerEffect x d)

/-- `DEC.STEP()` after its state test (R210). -/
def Dec.step (d : Dec) : Run Dec Unit :=
  match decHead d with
  | (.doReset, d) => d.marker.bind fun _ d => if d.regs.st = .active then d.codeword else .ok () d
  | (_, d) => d.codeword

/-- `while ST = ACTIVE: DEC.STEP()`, at most `n` times (R220). -/
def Dec.loop : Nat → Dec → Run Dec Unit
  | 0, d => .ok () d
  | n + 1, d => if d.regs.st = .active then d.step.bind fun _ d => Dec.loop n d else .ok () d

/-- A decoder whose stream of mode `m` has begun, the header taken (R206). -/
def Dec.started (m : Mode) (d : Dec) : Dec :=
  { ctSeed d with regs := { d.regs.restart with mode := m, st := .active }, prevValid := false }

/-- What DEC does on a header of value `x`, its bits taken (R206). -/
def headerEffect (x : Nat) (d : Dec) : Run Dec Unit :=
  match Mode.ofBits (BitVec.ofNat 2 x) with
  | some m => .ok () (d.started m)
  | none => .raised (d.raise .invalidMode)

/-- `DEC.START()` after its state test (R206). -/
def Dec.start (d : Dec) : Run Dec Unit := (symRead 2 (decReady d)).bind headerEffect

theorem bitsToNat_take_lt {w : Nat} {bits : List Bool} (h : w ≤ bits.length) : bitsToNat (bits.take w) < 2 ^ w := by
  have := bitsToNat_lt (bits.take w)
  rwa [List.length_take_of_le h] at this

/-- Everything taking and counting the bits of a symbol can do (R117, R171, R172). -/
theorem symRead_cases {w : Nat} (h1 : 1 ≤ w) (h2 : w ≤ 32) (d : Dec) :
    (d.rem.length < w ∧ symRead w d = .raised (d.raise .endOfStream)) ∨
      (w ≤ d.rem.length ∧ 2 ^ 64 ≤ d.regs.c.toNat + w ∧
        symRead w d = .raised ({ d with rem := d.rem.drop w }.raise .counterOverflow)) ∨
      (w ≤ d.rem.length ∧ d.regs.c.toNat + w < 2 ^ 64 ∧ symRead w d = .ok (bitsToNat (d.rem.take w)) (d.taken w)) := by
  unfold symRead
  by_cases hl : d.rem.length < w
  · exact .inl ⟨hl, by rw [bcRead_of_lt h1 h2 hl]; rfl⟩
  · have hl : w ≤ d.rem.length := by omega
    rw [bcRead_of_le h1 h2 hl, Run.bind_ok]
    by_cases hc : d.regs.c.toNat + w < 2 ^ 64
    · refine .inr (.inr ⟨hl, hc, ?_⟩)
      rw [Dec.countC_of_lt (d := { d with rem := d.rem.drop w }) hc, count_eq_add]
      rfl
    · refine .inr (.inl ⟨hl, by omega, ?_⟩)
      rw [Dec.countC_of_le (d := { d with rem := d.rem.drop w }) (by simpa using hc)]
      rfl

/-- Taking a symbol's bits is reading them, whatever their value. -/
theorem symTake_eq_symRead (w : Nat) (d : Dec) : symTake w d = (symRead w d).bind fun _ d => .ok () d := by
  simp only [symTake, symRead, Run.bind_assoc, Run.bind_ok]
  cases bcRead w d with
  | ok x d => simp only [Run.bind_ok]; cases d.countC w <;> rfl
  | raised d => rfl
  | stuck f => rfl

/-- In a started stream a symbol whose own effect is known at the bits there are is those bits read, then that effect. -/
theorem symData_eq {w : Nat} (h1 : 1 ≤ w) (h2 : w ≤ 32) {d : Dec} (hs : d.regs.st = .active) {op : Dec → Run Dec Unit}
    {eff : Nat → Dec → Run Dec Unit} (h : w ≤ d.rem.length → op (d.taken w) = eff (bitsToNat (d.rem.take w)) (d.taken w)) :
    symData w op d = (symRead w d).bind eff := by
  rw [symData, Dec.require_of_eq hs, symTake_eq_symRead]
  rcases symRead_cases h1 h2 d with ⟨_, e⟩ | ⟨_, _, e⟩ | ⟨hl, _, e⟩ <;> rw [e]
  · rfl
  · rfl
  · exact h hl

/-- A codeword decoded at the register NEXT acts as its value says: the decoder's classes are those of CT.RESOLVE (R82, R149). -/
theorem exec_classify (f : CwFormat) (s : State) (hs : s.dec.regs.st = .active) (hl : f.width ≤ s.dec.rem.length) :
    exec (f.instr (classify s.dec.regs.next.toNat (BitVec.ofNat f.width (bitsToNat (s.dec.rem.take f.width))))) s =
      ((symRead f.width s.dec).bind codeEffect).outcome s.withDec := by
  obtain ⟨hw9, hw16⟩ := CwFormat.width_bounds f
  have hx := bitsToNat_take_lt hl
  generalize hxe : bitsToNat (s.dec.rem.take f.width) = x at hx ⊢
  have hxn : (BitVec.ofNat f.width x).toNat = x := by rw [BitVec.toNat_ofNat, Nat.mod_eq_of_lt hx]
  have sym : ∀ op : Dec → Run Dec Unit, op (s.dec.taken f.width) = codeEffect x (s.dec.taken f.width) →
      decSymbol (symData f.width op) s = ((symRead f.width s.dec).bind codeEffect).outcome s.withDec := fun op hop => by
    rw [decSymbol, symData_eq (eff := codeEffect) (by omega) (by omega) hs (fun _ => by rw [hop, hxe])]
  have hnext : (s.dec.taken f.width).regs.next = s.dec.regs.next := rfl
  have htbl : (s.dec.taken f.width).tbl = s.dec.tbl := rfl
  unfold classify
  rw [hxn]
  split
  · next h =>
    exact (exec_eos f s).trans (sym _ (by rw [codeEffect, if_pos h]; rfl))
  · next h256 =>
    split
    · next h =>
      refine (exec_rstmark f s).trans (sym _ ?_)
      rw [codeEffect, if_neg h256, ctResolve, if_neg (by simp [h, Config.codeRst]), if_pos h]
      rfl
    · next h257 =>
      split
      · next h =>
        refine (exec_lit f _ s).trans (sym _ ?_)
        rw [codeEffect, if_neg h256, ctResolve, if_pos h]
        rfl
      · next hlit =>
        split
        · next h =>
          refine (exec_ref f _ s).trans (sym _ ?_)
          rw [codeEffect, if_neg h256, ctResolve, if_neg hlit, if_neg h257, hnext, htbl, hxn, if_pos h, if_pos h]
          cases tblRead s.dec.tbl x <;> rfl
        · next h =>
          refine (exec_kwkwk f _ s).trans (sym _ ?_)
          rw [codeEffect, if_neg h256, ctResolve, if_neg hlit, if_neg h257, hnext, hxn, if_neg h]
          split <;> rfl

/-- The codeword that DEC meets is an operation on DEC alone (R210). -/
theorem decData_eq (s : State) (hs : s.dec.regs.st = .active) : decData s = s.dec.codeword.outcome s.withDec := by
  unfold decData Dec.codeword
  split
  · next hw =>
    obtain ⟨f, -, hfw⟩ := CwFormat.ofWidth_of_bounds hw.1 hw.2
    rw [← hfw]
    by_cases hl : f.width ≤ s.dec.rem.length
    · rw [meetSymbol_of_decode (by simp) (decode_data_of_le hl)]
      exact exec_classify f s hs hl
    · rcases symRead_cases (w := f.width) (by omega) (by omega) s.dec with ⟨hlt, e⟩ | ⟨h, _⟩ | ⟨h, _⟩
      · rw [meetSymbol, decode_data_of_lt hlt, e]; rfl
      · exact absurd h hl
      · exact absurd h hl
  · next hw =>
    have hnone : CwFormat.ofWidth s.dec.regs.w.toNat = none := by
      rw [Option.eq_none_iff_forall_ne_some]
      intro f hf
      rw [CwFormat.ofWidth_eq_some] at hf
      exact hw (hf ▸ CwFormat.width_bounds f)
    simp only [meetSymbol, decode, hnone, Run.outcome_stuck]

/-- The marker slot that DEC meets is an operation on DEC alone (R174). -/
theorem meetSymbol_marker (s : State) (hs : s.dec.regs.st = .active) :
    meetSymbol .marker s = s.dec.marker.outcome s.withDec := by
  unfold Dec.marker
  by_cases hl : 16 ≤ s.dec.rem.length
  · rw [meetSymbol_of_decode (by simp) (decode_marker_of_le hl)]
    have sym : ∀ op : Dec → Run Dec Unit,
        op (s.dec.taken 16) = .ok () (markerEffect (bitsToNat (s.dec.rem.take 16)) (s.dec.taken 16)) →
        decSymbol (symData 16 op) s = ((symRead 16 s.dec).bind fun x d => .ok () (markerEffect x d)).outcome s.withDec :=
      fun op hop => by
        rw [decSymbol, symData_eq (eff := fun x d => .ok () (markerEffect x d)) (by omega) (by omega) hs (fun _ => hop)]
    simp only [decodeMarker]
    split
    · next h => exact sym _ (by rw [markerEffect, if_pos h]; rfl)
    · next h => exact sym _ (by rw [markerEffect, if_neg h])
  · rcases symRead_cases (w := 16) (by omega) (by omega) s.dec with ⟨hlt, e⟩ | ⟨h, _⟩ | ⟨h, _⟩
    · rw [meetSymbol, decode_marker_of_lt hlt, e]; rfl
    · exact absurd h hl
    · exact absurd h hl

/-- The header that DEC meets is an operation on DEC alone (R206). -/
theorem meetSymbol_header (s : State) (hs : s.dec.regs.st = .idle) :
    meetSymbol .header s = ((symRead 2 s.dec).bind headerEffect).outcome s.withDec := by
  rcases symRead_cases (w := 2) (by omega) (by omega) s.dec with ⟨hlt, e⟩ | h
  · rw [meetSymbol, decode_header_of_lt hlt, e]; rfl
  · have hl : 2 ≤ s.dec.rem.length := by rcases h with h | h <;> exact h.1
    rw [meetSymbol_of_decode (by simp) (decode_header_of_le hl)]
    have hx := bitsToNat_take_lt hl
    have sym : ∀ op : Dec → Run Dec Unit,
        op (s.dec.taken 2) = headerEffect (bitsToNat (s.dec.rem.take 2)) (s.dec.taken 2) →
        decSymbol (Dec.require .idle fun d => (symTake 2 d).bind fun _ d => op d) s =
          ((symRead 2 s.dec).bind headerEffect).outcome s.withDec := fun op hop => by
      rw [decSymbol, Dec.require_of_eq hs, symTake_eq_symRead]
      rcases h with ⟨_, _, e⟩ | ⟨_, _, e⟩ <;> rw [e]
      · rfl
      · rw [Run.bind_ok, Run.bind_ok, Run.bind_ok, hop]
    generalize bitsToNat (s.dec.rem.take 2) = x at hx sym ⊢
    simp only [decodeHeader]
    interval_cases x
    · exact sym _ rfl
    · exact sym _ rfl
    · exact sym _ rfl
    · exact sym _ rfl

/-! ### What DEC's operations can do -/

/-- MODE, ST and FAULT_CODE are as they were. -/
def Regs.SameStatus (r q : Regs) : Prop := q.mode = r.mode ∧ q.st = r.st ∧ q.faultCode = r.faultCode

/-- A decoder that stopped in FAULT in the course of an operation on `d`: what was written before the `raise` left MODE, ST, FAULT_CODE
and the table as they were (R240). -/
def Dec.Stopped (d t : Dec) : Prop :=
  ∃ (x : Dec) (f : FaultCause), t = x.raise f ∧ d.regs.SameStatus x.regs ∧ x.tbl = d.tbl

/-- A decoder that has stopped is in FAULT. -/
theorem Dec.Stopped.st {d t : Dec} (h : d.Stopped t) : t.regs.st = .fault := by
  obtain ⟨x, f, rfl, -, -⟩ := h; simp

/-- Reading a symbol's bits raises, or takes the bits (R117, R172). -/
theorem symRead_ends {w : Nat} (h1 : 1 ≤ w) (h2 : w ≤ 32) (d : Dec) :
    (∃ t, d.Stopped t ∧ symRead w d = .raised t) ∨
      (w ≤ d.rem.length ∧ d.regs.c.toNat + w < 2 ^ 64 ∧ symRead w d = .ok (bitsToNat (d.rem.take w)) (d.taken w)) := by
  rcases symRead_cases h1 h2 d with ⟨_, e⟩ | ⟨_, _, e⟩ | h
  · exact .inl ⟨_, ⟨d, _, rfl, ⟨rfl, rfl, rfl⟩, rfl⟩, e⟩
  · exact .inl ⟨_, ⟨{ d with rem := d.rem.drop w }, _, rfl, ⟨rfl, rfl, rfl⟩, rfl⟩, e⟩
  · exact .inr h

/-- Everything the marker slot can do (R174, R217). -/
theorem Dec.marker_cases (d : Dec) :
    (∃ t, d.Stopped t ∧ d.marker = .raised t) ∨
      (16 ≤ d.rem.length ∧ d.regs.c.toNat + 16 < 2 ^ 64 ∧
        d.marker = .ok () (markerEffect (bitsToNat (d.rem.take 16)) (d.taken 16))) := by
  unfold Dec.marker
  rcases symRead_ends (w := 16) (by omega) (by omega) d with ⟨t, ht, e⟩ | ⟨h, h', e⟩ <;> rw [e]
  · exact .inl ⟨t, ht, rfl⟩
  · exact .inr ⟨h, h', rfl⟩

/-- Everything a codeword's value can do: end the stream; put out the phrase that CT.RESOLVE answers; raise; get stuck on an empty
slot below NEXT (R149, R210, R212). -/
theorem codeEffect_cases (x : Nat) (d : Dec) :
    (x = 256 ∧ codeEffect x d = .ok () d.ended) ∨
      (x ≠ 256 ∧ ∃ p, ctResolve x d = .ok p d ∧ d.Countable p ∧ codeEffect x d = .ok () (d.output p)) ∨
      (∃ t, d.Stopped t ∧ codeEffect x d = .raised t) ∨
      (258 ≤ x ∧ x < d.regs.next.toNat ∧ tblRead d.tbl x = none ∧ codeEffect x d = .stuck .emptySlot) := by
  unfold codeEffect Config.codeEos
  split
  · next hx => exact .inl ⟨hx, rfl⟩
  · next hx =>
    refine .inr ?_
    have tail (p : Phrase) (e : ctResolve x d = .ok p d) :
        (x ≠ 256 ∧ ∃ p, ctResolve x d = .ok p d ∧ d.Countable p ∧ (ctResolve x d).bind symTail = .ok () (d.output p)) ∨
          (∃ t, d.Stopped t ∧ (ctResolve x d).bind symTail = .raised t) := by
      rcases symTail_cases p d with ⟨hu, e'⟩ | ⟨_, e'⟩
      · exact .inl ⟨hx, p, e, hu, by rw [e, Run.bind_ok, e']⟩
      · exact .inr ⟨_, ⟨snkPutAll p.toList d, _, rfl, ⟨rfl, rfl, rfl⟩, rfl⟩, by rw [e, Run.bind_ok, e']⟩
    rcases ctResolve_cases x d with ⟨_, e⟩ | ⟨_, _, _, p, _, e⟩ | ⟨hx', hx'', hxn, hnone, e⟩ | ⟨_, _, _, _, e⟩ | ⟨_, e⟩
    · exact (tail _ e).imp_right .inl
    · exact (tail _ e).imp_right .inl
    · exact .inr (.inr ⟨by omega, hxn, hnone, by rw [e]; rfl⟩)
    · exact (tail _ e).imp_right .inl
    · exact .inr (.inl ⟨_, ⟨d, _, rfl, ⟨rfl, rfl, rfl⟩, rfl⟩, by rw [e]; rfl⟩)

/-- Everything the codeword of DEC.STEP can do: get stuck on an illegal width, raise, or take W bits and act on their value (R210). -/
theorem Dec.codeword_cases (d : Dec) :
    (¬(9 ≤ d.regs.w.toNat ∧ d.regs.w.toNat ≤ 16) ∧ d.codeword = .stuck .noFormat) ∨
      (∃ t, d.Stopped t ∧ d.codeword = .raised t) ∨
      (9 ≤ d.regs.w.toNat ∧ d.regs.w.toNat ≤ 16 ∧ d.regs.w.toNat ≤ d.rem.length ∧
        d.regs.c.toNat + d.regs.w.toNat < 2 ^ 64 ∧
        d.codeword = codeEffect (bitsToNat (d.rem.take d.regs.w.toNat)) (d.taken d.regs.w.toNat)) := by
  unfold Dec.codeword
  split
  · next hw =>
    rcases symRead_ends (w := d.regs.w.toNat) (by omega) (by omega) d with ⟨t, ht, e⟩ | ⟨hl, hc, e⟩ <;> rw [e]
    · exact .inr (.inl ⟨t, ht, rfl⟩)
    · exact .inr (.inr ⟨hw.1, hw.2, hl, hc, rfl⟩)
  · next hw => exact .inl ⟨hw, rfl⟩

/-- The head of DEC.STEP writes the registers as `ADVANCE` does, when a data codeword came before, and PENDING (R210, R211). -/
theorem decHead_cases (d : Dec) :
    (d.prevValid = false ∧ decHead d = (.keepFrozen, { d with pending := false })) ∨
      (d.prevValid = true ∧ decHead d =
        ((advance d.regs).1, { d.withRegs (advance d.regs).2 with pending := decide ((advance d.regs).1 = .register) })) := by
  unfold decHead
  cases h : d.prevValid
  · exact .inl ⟨rfl, rfl⟩
  · refine .inr ⟨rfl, ?_⟩
    obtain ⟨a, r⟩ := advance d.regs
    cases a <;> rfl

/-- The head of DEC.STEP keeps ST. -/
theorem decHead_st (d : Dec) : (decHead d).2.regs.st = d.regs.st := by
  rcases decHead_cases d with ⟨_, h⟩ | ⟨_, h⟩ <;> rw [h]
  exact advance_st d.regs

/-- The head of DEC.STEP takes no bits. -/
theorem decHead_rem (d : Dec) : (decHead d).2.rem = d.rem := by
  rcases decHead_cases d with ⟨_, h⟩ | ⟨_, h⟩
  · rw [h]
  · rw [h]; rfl

/-- A decoder whose dictionary a marker slot has cleared, the slot taken (R174). -/
def Dec.restarted (d : Dec) : Dec := { restartDec (d.taken 16) with pending := false }

/-- Everything DEC.STEP on a started unit can do: after its head meet a codeword, or, on the answer DoReset, a marker slot: raise there,
end the stream, or clear the dictionary and then meet a codeword (R210, R217). -/
theorem Dec.step_cases {d : Dec} (hd : d.regs.st = .active) :
    ((decHead d).1 ≠ .doReset ∧ d.step = (decHead d).2.codeword) ∨
      ((decHead d).1 = .doReset ∧ ∃ t, (decHead d).2.Stopped t ∧ d.step = .raised t) ∨
      ((decHead d).1 = .doReset ∧ 16 ≤ d.rem.length ∧ (decHead d).2.regs.c.toNat + 16 < 2 ^ 64 ∧
        ((bitsToNat (d.rem.take 16) = 256 ∧ d.step = .ok () ((decHead d).2.taken 16).ended) ∨
          (bitsToNat (d.rem.take 16) ≠ 256 ∧ d.step = (decHead d).2.restarted.codeword))) := by
  have hst := (decHead_st d).trans hd
  have hrem := decHead_rem d
  unfold Dec.step
  generalize decHead d = h at hst hrem ⊢
  obtain ⟨a, x⟩ := h
  cases a
  · exact .inl ⟨by simp, rfl⟩
  · exact .inl ⟨by simp, rfl⟩
  · refine .inr ?_
    rcases x.marker_cases with ⟨t, ht, e⟩ | ⟨hl, hc, e⟩ <;> simp only [e]
    · exact .inl ⟨trivial, t, ht, rfl⟩
    · refine .inr ⟨trivial, hrem ▸ hl, hc, ?_⟩
      rw [← hrem, markerEffect, Config.codeEos]
      by_cases hv : bitsToNat (x.rem.take 16) = 256
      · rw [if_pos hv]; exact .inl ⟨hv, rfl⟩
      · rw [if_neg hv]; exact .inr ⟨hv, if_pos hst⟩

/-- DEC.STEP is an operation on DEC alone (R20, R21, R210). -/
theorem decStep_eq (s : State) : decStep s = (Dec.require .active Dec.step s.dec).outcome s.withDec := by
  unfold decStep
  split
  · next hs =>
    rw [Dec.require_of_eq hs, Dec.step]
    have hst := decHead_st s.dec
    rw [hs] at hst
    generalize decHead s.dec = h at hst ⊢
    obtain ⟨a, d⟩ := h
    cases a
    · exact decData_eq (s.withDec d) hst
    · exact decData_eq (s.withDec d) hst
    · simp only [meetSymbol_marker (s.withDec d) hst, State.withDec_dec]
      rcases d.marker_cases with ⟨t, ht, e⟩ | ⟨_, _, e⟩
      · simp [e, ht.st]
      · generalize markerEffect _ _ = d' at e
        have hd : (s.withDec d').dec = d' := rfl
        simp only [e, Run.outcome_ok, Run.bind_ok, State.withDec_withDec]
        by_cases h : d'.regs.st = .active
        · rw [if_pos (by rwa [hd]), if_pos h]
          exact decData_eq (s.withDec d') h
        · rw [if_neg (by rwa [hd]), if_neg h]
          rfl
  · next hs => rw [Dec.require_of_ne hs]; rfl

/-! ### Every command is an operation on one unit -/

/-- Where a codeword raises, the unit is in FAULT. -/
theorem Dec.codeword_raised {d t : Dec} (h : d.codeword = .raised t) : t.regs.st = .fault := by
  rcases d.codeword_cases with ⟨_, e⟩ | ⟨t', ht, e⟩ | ⟨_, _, _, _, e⟩ <;> rw [e] at h
  · cases h
  · cases h; exact ht.st
  · rcases codeEffect_cases _ (d.taken d.regs.w.toNat) with ⟨_, e⟩ | ⟨_, p, _, _, e⟩ | ⟨t', ht, e⟩ | ⟨_, _, _, e⟩ <;>
      rw [e] at h <;> cases h
    exact ht.st

/-- Where DEC.STEP raises, the unit is in FAULT. -/
theorem Dec.step_raised {d t : Dec} (hd : d.regs.st = .active) (h : d.step = .raised t) : t.regs.st = .fault := by
  rcases Dec.step_cases hd with ⟨_, e⟩ | ⟨_, t', ht, e⟩ | ⟨_, _, _, ⟨_, e⟩ | ⟨_, e⟩⟩ <;> rw [e] at h
  · exact Dec.codeword_raised h
  · cases h; exact ht.st
  · cases h
  · exact Dec.codeword_raised h

/-- The loop of DEC.RUN is an operation on DEC alone (R220). -/
theorem decLoop_eq (n : Nat) (s : State) : decLoop n s = (Dec.loop n s.dec).outcome s.withDec := by
  induction n generalizing s with
  | zero => rfl
  | succ n ih =>
    unfold decLoop Dec.loop
    split
    · next hs =>
      rw [decStep_eq, Dec.require_of_eq hs]
      cases h : s.dec.step with
      | ok a d => exact ih (s.withDec d)
      | raised d =>
        have hd := Dec.step_raised hs h
        refine (ih (s.withDec d)).trans ?_
        cases n <;> simp [Dec.loop, hd]
      | stuck f => rfl
    · rfl

/-- DEC.START is an operation on DEC alone (R206). -/
theorem decStart_eq (s : State) : decStart s = (Dec.require .idle Dec.start s.dec).outcome s.withDec := by
  unfold decStart
  split
  · next hs => rw [Dec.require_of_eq hs]; exact meetSymbol_header (s.withDec (decReady s.dec)) hs
  · next hs => rw [Dec.require_of_ne hs]; rfl

/-- DEC.RUN is an operation on DEC alone (R220). -/
theorem decRun_eq (s : State) :
    decRun s = (Dec.require .active (fun d => Dec.loop (d.rem.length + 1) d) s.dec).outcome s.withDec := by
  unfold decRun
  split
  · next hs => rw [Dec.require_of_eq hs, decLoop_eq]
  · next hs => rw [Dec.require_of_ne hs]; rfl

/-- What an instruction given to ENC's port does to ENC: ENC's own commands, else a ProtocolError (R100, R238). -/
def encOp (i : Instr) (e : Enc) : Run Enc Unit :=
  match i with
  | .encStart m => Enc.require .idle (encStart m) e
  | .encStep => encStep e
  | .encRun => Enc.require .active encRun e
  | .bcWinit => Enc.require .idle (fun e => .ok () (bcWinit e)) e
  | .bcWrite v w => Enc.require .idle (bcWrite v.toNat w.toNat) e
  | .bcFlush => Enc.require .idle (fun e => .ok () (bcFlush e)) e
  | _ => .raised (e.raise .protocolError)

/-- What an instruction given to DEC's port does to DEC: DEC's own commands, else a ProtocolError (R100, R238). -/
def decOp (i : Instr) (d : Dec) : Run Dec Unit :=
  match i with
  | .decStart => Dec.require .idle Dec.start d
  | .decStep => Dec.require .active Dec.step d
  | .decRun => Dec.require .active (fun d => Dec.loop (d.rem.length + 1) d) d
  | .bcRinit => Dec.require .idle (fun d => .ok () (bcRinit d)) d
  | .bcRead w => Dec.require .idle (fun d =>
      (bcRead w.toNat d).bind fun v d => .ok () { d with rsp := some (BitVec.ofNat 32 v) }) d
  | .bcIsempty => Dec.require .idle (fun d => .ok () { d with rsp := some (if bcIsempty d then 1 else 0) }) d
  | _ => .raised (d.raise .protocolError)

/-- Everything an instruction given to ENC's port can be: a ProtocolError, a step or a run of a started unit, a start or a use of the
packer in IDLE (R238). -/
theorem encOp_cases (i : Instr) (e : Enc) :
    encOp i e = .raised (e.raise .protocolError) ∨
      (e.regs.st = .active ∧ (encOp i e = encStep e ∨ encOp i e = encRun e)) ∨
      (e.regs.st = .idle ∧ ((∃ m, encOp i e = encStart m e) ∨ encOp i e = .ok () (bcWinit e) ∨
        (∃ v w, encOp i e = bcWrite v w e) ∨ encOp i e = .ok () (bcFlush e))) := by
  have require (want : UnitState) (op : Enc → Run Enc Unit) :
      Enc.require want op e = .raised (e.raise .protocolError) ∨ (e.regs.st = want ∧ Enc.require want op e = op e) := by
    by_cases h : e.regs.st = want
    · exact .inr ⟨h, Enc.require_of_eq h op⟩
    · exact .inl (Enc.require_of_ne h op)
  cases i
  case encStep =>
    exact (require .active fun e => if e.src = [] then encFinish e else encSymbol e).imp_right fun ⟨hs, _⟩ =>
      .inl ⟨hs, .inl rfl⟩
  case encRun => exact (require .active encRun).imp_right fun ⟨hs, h⟩ => .inl ⟨hs, .inr h⟩
  case encStart m => exact (require .idle (encStart m)).imp_right fun ⟨hs, h⟩ => .inr ⟨hs, .inl ⟨m, h⟩⟩
  case bcWinit => exact (require .idle fun e => .ok () (bcWinit e)).imp_right fun ⟨hs, h⟩ => .inr ⟨hs, .inr (.inl h)⟩
  case bcWrite v w =>
    exact (require .idle (bcWrite v.toNat w.toNat)).imp_right fun ⟨hs, h⟩ => .inr ⟨hs, .inr (.inr (.inl ⟨_, _, h⟩))⟩
  case bcFlush =>
    exact (require .idle fun e => .ok () (bcFlush e)).imp_right
        fun ⟨hs, h⟩ => .inr ⟨hs, .inr (.inr (.inr h))⟩
  all_goals exact .inl rfl

/-- Everything an instruction given to DEC's port can be: a ProtocolError, a step or a run of a started unit, a start or a use of the
unpacker in IDLE (R238). -/
theorem decOp_cases (i : Instr) (d : Dec) :
    decOp i d = .raised (d.raise .protocolError) ∨
      (d.regs.st = .active ∧ (decOp i d = d.step ∨ decOp i d = Dec.loop (d.rem.length + 1) d)) ∨
      (d.regs.st = .idle ∧ (decOp i d = d.start ∨ decOp i d = .ok () (bcRinit d) ∨
        (∃ w, decOp i d = (bcRead w d).bind fun v d => .ok () { d with rsp := some (BitVec.ofNat 32 v) }) ∨
        decOp i d = .ok () { d with rsp := some (if bcIsempty d then 1 else 0) })) := by
  have require (want : UnitState) (op : Dec → Run Dec Unit) :
      Dec.require want op d = .raised (d.raise .protocolError) ∨ (d.regs.st = want ∧ Dec.require want op d = op d) := by
    by_cases h : d.regs.st = want
    · exact .inr ⟨h, Dec.require_of_eq h op⟩
    · exact .inl (Dec.require_of_ne h op)
  cases i
  case decStart => exact (require .idle Dec.start).imp_right fun ⟨hs, h⟩ => .inr ⟨hs, .inl h⟩
  case decStep => exact (require .active Dec.step).imp_right fun ⟨hs, h⟩ => .inl ⟨hs, .inl h⟩
  case decRun =>
    exact (require .active fun d => Dec.loop (d.rem.length + 1) d).imp_right fun ⟨hs, h⟩ => .inl ⟨hs, .inr h⟩
  case bcRinit => exact (require .idle fun d => .ok () (bcRinit d)).imp_right fun ⟨hs, h⟩ => .inr ⟨hs, .inr (.inl h)⟩
  case bcRead w =>
    exact (require .idle fun d =>
      (bcRead w.toNat d).bind fun v d => .ok () { d with rsp := some (BitVec.ofNat 32 v) }).imp_right
        fun ⟨hs, h⟩ => .inr ⟨hs, .inr (.inr (.inl ⟨w.toNat, h⟩))⟩
  case bcIsempty =>
    exact (require .idle fun d => .ok () { d with rsp := some (if bcIsempty d then 1 else 0) }).imp_right
        fun ⟨hs, h⟩ => .inr ⟨hs, .inr (.inr (.inr h))⟩
  all_goals exact .inl rfl

/-- A command given to ENC runs on ENC alone, with the answer cleared (R20, R21, R100). -/
theorem exec_of_enc {i : Instr} {s : State} (hi : i.slot 0 = .command) (ht : s.target = .enc) :
    exec i s = (encOp i s.enc.answered).outcome s.withEnc := by
  have wrong (op : State → Host.Outcome State Fault Refusal) :
      command .dec op s = (Run.raised (s.enc.answered.raise .protocolError) : Run Enc Unit).outcome s.withEnc := by
    simp [command, ht, State.clearRsp_of_enc ht, State.protocolError, Enc.answered]
  have none : unassigned s = (Run.raised (s.enc.answered.raise .protocolError) : Run Enc Unit).outcome s.withEnc := by
    simp [unassigned, State.clearRsp_of_enc ht, State.protocolError, ht, Enc.answered]
  cases i
  case encStart | encStep | encRun | bcWinit | bcWrite | bcFlush => exact encCommand_of_enc ht _
  case decStart | decStep | decRun => exact wrong _
  case bcRinit | bcRead | bcIsempty => exact decCommand_of_enc ht _
  case opsel3Unassigned | opsel7Unassigned | opselEUnassigned | opselFUnassigned => exact none
  all_goals cases hi

/-- A command given to DEC runs on DEC alone, with the answer cleared (R20, R21, R100). -/
theorem exec_of_dec {i : Instr} {s : State} (hi : i.slot 0 = .command) (ht : s.target = .dec) :
    exec i s = (decOp i s.dec.answered).outcome s.withDec := by
  have none : unassigned s = (Run.raised (s.dec.answered.raise .protocolError) : Run Dec Unit).outcome s.withDec := by
    simp [unassigned, State.clearRsp_of_dec ht, State.protocolError, ht, Dec.answered]
  have own (op : State → Host.Outcome State Fault Refusal) : command .dec op s = op (s.withDec s.dec.answered) := by
    simp [command, ht, State.clearRsp_of_dec ht, Dec.answered]
  cases i
  case decStart => exact (own _).trans (decStart_eq _)
  case decStep => exact (own _).trans (decStep_eq _)
  case decRun => exact (own _).trans (decRun_eq _)
  case bcRinit | bcRead | bcIsempty => exact decCommand_of_dec ht _
  case encStart | encStep | encRun | bcWinit | bcWrite | bcFlush => exact encCommand_of_dec ht _
  case opsel3Unassigned | opsel7Unassigned | opselEUnassigned | opselFUnassigned => exact none
  all_goals cases hi

/-- Every command word decodes to a command (R100). -/
theorem decodeCommand_slot (cmd : BitVec 44) : (decodeCommand cmd).slot 0 = .command := by
  unfold decodeCommand; split <;> rfl

/-- Everything a step can be, unit by unit: nothing, a command that runs on its unit alone, a hardware reset, a source replaced. -/
theorem step_unit_cases (s : State) :
    (s.port = [] ∧ step s = .next s) ∨
      (∃ cmd rest, s.port = .command .enc cmd :: rest ∧
        step s = (encOp (decodeCommand cmd) s.enc.answered).outcome (s.accept .enc rest).withEnc) ∨
      (∃ cmd rest, s.port = .command .dec cmd :: rest ∧
        step s = (decOp (decodeCommand cmd) s.dec.answered).outcome (s.accept .dec rest).withDec) ∨
      (∃ u rest, s.port = .hwReset u :: rest ∧ step s = hostReset u { s with port := rest }) ∨
      (∃ u bytes rest, s.port = .setSource u bytes :: rest ∧ step s = hostSetSource u bytes { s with port := rest }) := by
  rcases step_cases s with h | ⟨u, cmd, rest, hp, h⟩ | h | h
  · exact .inl h
  · cases u
    · exact .inr (.inl ⟨cmd, rest, hp, h.trans (exec_of_enc (decodeCommand_slot cmd) rfl)⟩)
    · exact .inr (.inr (.inl ⟨cmd, rest, hp, h.trans (exec_of_dec (decodeCommand_slot cmd) rfl)⟩))
  · exact .inr (.inr (.inr (.inl h)))
  · exact .inr (.inr (.inr (.inr h)))

end Sys2Proof.Machine
end

section
/-! PROOF. The short statements of the state's family: reset, STATUS, what the ports do (10_state.md). -/

namespace Sys2Proof.Machine

/-- Settles O1, by evaluating the reset state. -/
theorem resetStateIsTheSpecs : Obligations.ResetStateIsTheSpecs := by
  unfold Obligations.ResetStateIsTheSpecs
  decide

/-- Settles O55: no unit is started, and the spaces are empty. -/
theorem resetMeetsTheInvariant : Obligations.ResetMeetsTheInvariant := by
  have idle : Regs.reset.st ≠ .active := by decide
  exact ⟨⟨by decide, State.reset_wf.1, by decide, fun h => absurd h idle⟩,
    State.reset_wf.2, by decide, Bool.noConfusion, fun h => absurd h idle⟩

/-- Fields set side by side, each read at the place where those below it end (R39). -/
theorem appended_fields (m : BitVec 2) (n : BitVec 17) (w : BitVec 5) (c : BitVec 4) (p l : BitVec 1) (st : BitVec 2) :
    let x := m ++ n ++ w ++ c ++ p ++ l ++ st
    x.extractLsb' 0 2 = st ∧ x.extractLsb' 2 1 = l ∧ x.extractLsb' 3 1 = p ∧ x.extractLsb' 4 4 = c ∧
      x.extractLsb' 8 5 = w ∧ x.extractLsb' 13 17 = n ∧ x.extractLsb' 30 2 = m := by
  simp (disch := decide) only [BitVec.extractLsb'_append_eq_of_add_le, BitVec.extractLsb'_append_eq_of_le,
    BitVec.extractLsb'_eq_self, Nat.reduceSub, and_self]

/-- Settles O9: STATUS is its fields set side by side. -/
theorem statusWordFields : Obligations.StatusWordFields :=
  ⟨fun _ _ => appended_fields _ _ _ _ _ _ _, fun _ => rfl, fun _ => rfl, rfl, rfl, rfl, rfl, rfl, rfl, rfl⟩

/-- Settles O7: DEC.START and DEC.STEP meet the symbol at the front of UP.REM, and meeting it is executing it. -/
theorem decoderExecutesTheDecodedSymbols : Obligations.DecoderExecutesTheDecodedSymbols := by
  intro s ht
  have own (op : State → Host.Outcome State Fault Refusal) : command .dec op s = op (s.withDec s.dec.answered) := by
    simp [command, ht, State.clearRsp_of_dec ht, Dec.answered]
  have header : Slot.header ≠ .command := by decide
  have marker : Slot.marker ≠ .command := by decide
  have data (w n : Nat) : Slot.data w n ≠ .command := by simp
  have step (hst : s.dec.regs.st = .active) : exec .decStep s = match decHead s.dec.answered with
      | (.doReset, d) =>
        match meetSymbol .marker (s.withDec d) with
        | .next s => if s.dec.regs.st = .active then decData s else .next s
        | other => other
      | (_, d) => decData (s.withDec d) :=
    (own decStep).trans (if_pos hst)
  refine ⟨fun i rest hst hdec => ?_, fun a d i rest hst hhead ha hdec => ?_, fun d i rest t hst hhead hdec hexec => ?_⟩
  · have start : exec .decStart s = meetSymbol .header (s.withDec (decReady s.dec.answered)) :=
      (own decStart).trans (if_pos hst)
    exact start.trans (meetSymbol_of_decode (s := s.withDec (decReady s.dec.answered)) (r := (i, rest)) header hdec)
  · have meet : decData (s.withDec d) = exec i (s.withDec d) :=
      meetSymbol_of_decode (s := s.withDec d) (r := (i, rest)) (data _ _) hdec
    rw [step hst, hhead]
    cases a
    · exact meet
    · exact meet
    · exact absurd rfl ha
  · have meet : meetSymbol .marker (s.withDec d) = .next t := 
      (meetSymbol_of_decode (s := s.withDec d) (r := (i, rest)) marker hdec).trans hexec
    have step : exec .decStep s = if t.dec.regs.st = .active then decData t else .next t := by
      rw [step hst, hhead]
      simp only [meet]
    refine ⟨fun h => by rw [step, if_neg h], fun j rest' h hdec' => ?_⟩
    rw [step, if_pos h]
    exact meetSymbol_of_decode (r := (j, rest')) (data _ _) hdec'

/-- Settles O51: a command runs on its own unit's state and puts the result back. -/
theorem unitsShareNoState : Obligations.UnitsShareNoState := by
  intro s s' cmd rest rest' t
  constructor
  all_goals
    intro hs hs' heq hstep
    rw [step, hs] at hstep
    rw [step, hs']
  · simp only [exec_of_enc (decodeCommand_slot cmd) (s := s.accept .enc rest) rfl] at hstep
    simp only [exec_of_enc (decodeCommand_slot cmd) (s := s'.accept .enc rest') rfl]
    obtain ⟨e, he, rfl⟩ := Run.outcome_eq_next.1 hstep
    exact ⟨rfl, rfl, (s'.accept .enc rest').withEnc e, Run.outcome_eq_next.2 ⟨e, heq ▸ he, rfl⟩, rfl⟩
  · simp only [exec_of_dec (decodeCommand_slot cmd) (s := s.accept .dec rest) rfl] at hstep
    simp only [exec_of_dec (decodeCommand_slot cmd) (s := s'.accept .dec rest') rfl]
    obtain ⟨d, hd, rfl⟩ := Run.outcome_eq_next.1 hstep
    exact ⟨rfl, rfl, (s'.accept .dec rest').withDec d, Run.outcome_eq_next.2 ⟨d, heq ▸ hd, rfl⟩, rfl⟩

end Sys2Proof.Machine
end

section
/-! PROOF. What ENC's operations can do (44_encoder.md R186 to R197), and what every operation keeps of MODE and FAULT_CODE. -/

namespace Sys2Proof.Machine

/-! ### ENC after its operations -/

/-- ENC after a data codeword for `l` bytes: written at width W and counted (R190). -/
def Enc.emitted (c : Code) (l : Nat) (e : Enc) : Enc :=
  (putBits e (natBits e.regs.w.toNat c.toNat)).withRegs
    { e.regs with c := e.regs.c + BitVec.ofNat 64 e.regs.w.toNat, u := e.regs.u + BitVec.ofNat 64 (8 * l) }

/-- ENC after a marker: written at width W and counted, the dictionary cleared (R173). -/
def Enc.marked (e : Enc) : Enc :=
  { (putBits e (natBits e.regs.w.toNat Config.codeRst)).withRegs
    { e.regs.restart with c := e.regs.c + BitVec.ofNat 64 e.regs.w.toNat } with trie := [] }

/-- ENC after EOS at the width W: written and counted, flushed, the stream ended (R195). -/
def Enc.closed (e : Enc) : Enc :=
  (bcFlush (putBits e (natBits e.regs.w.toNat Config.codeEos))).withRegs
    { e.regs with c := e.regs.c + BitVec.ofNat 64 e.regs.w.toNat, st := .done }

@[simp] theorem Enc.emitted_regs (c : Code) (l : Nat) (e : Enc) : (e.emitted c l).regs =
    { e.regs with c := e.regs.c + BitVec.ofNat 64 e.regs.w.toNat, u := e.regs.u + BitVec.ofNat 64 (8 * l) } := rfl
@[simp] theorem Enc.emitted_trie (c : Code) (l : Nat) (e : Enc) : (e.emitted c l).trie = e.trie := putBits_trie _ _
@[simp] theorem Enc.emitted_src (c : Code) (l : Nat) (e : Enc) : (e.emitted c l).src = e.src := putBits_src _ _

/-! ### What ENC's operations can do -/

/-- An encoder that stopped in FAULT in the course of an operation on `e`: what was written before the `raise` left MODE, ST, FAULT_CODE
and the trie as they were, and the partial byte partial (R240). -/
def Enc.Stopped (e t : Enc) : Prop :=
  ∃ (x : Enc) (f : FaultCause), t = x.raise f ∧ e.regs.SameStatus x.regs ∧ x.trie = e.trie ∧
    (e.acc.length < 8 → x.acc.length < 8)

/-- What stops after a codeword was emitted has stopped. -/
theorem Enc.Stopped.of_emitted {c : Code} {l : Nat} {e t : Enc} {r : Regs} (hr : e.regs.SameStatus r)
    (h : ((e.emitted c l).withRegs r).Stopped t) : e.Stopped t := by
  obtain ⟨x, f, ht, ⟨h1, h2, h3⟩, htrie, hacc⟩ := h
  exact ⟨x, f, ht, ⟨h1.trans hr.1, h2.trans hr.2.1, h3.trans hr.2.2⟩, htrie.trans (Enc.emitted_trie c l e),
    fun h => hacc (putBits_written h _).2⟩

/-- A write and its count raise, or are both done (R112, R171). -/
theorem bcWrite_countC_cases (v : Nat) (e : Enc) :
    let w := e.regs.w.toNat
    (∃ t, e.Stopped t ∧ ((bcWrite v w e).bind fun _ e => e.countC e.regs.w.toNat) = .raised t) ∨
      (1 ≤ w ∧ v < 2 ^ w ∧ e.regs.c.toNat + w < 2 ^ 64 ∧ ((bcWrite v w e).bind fun _ e => e.countC e.regs.w.toNat) =
        .ok () ((putBits e (natBits w v)).withRegs { e.regs with c := e.regs.c + BitVec.ofNat 64 w })) := by
  intro w
  rcases bcWrite_cases v w e with ⟨_, h⟩ | ⟨_, _, _, h⟩ | ⟨h1, _, hv, h⟩ <;> rw [h]
  · exact .inl ⟨_, ⟨e, _, rfl, ⟨rfl, rfl, rfl⟩, rfl, id⟩, rfl⟩
  · exact .inl ⟨_, ⟨e, _, rfl, ⟨rfl, rfl, rfl⟩, rfl, id⟩, rfl⟩
  · rw [Run.bind_ok, putBits_regs]
    by_cases hc : e.regs.c.toNat + w < 2 ^ 64
    · refine .inr ⟨h1, hv, hc, ?_⟩
      rw [Enc.countC_of_lt (by rwa [putBits_regs]), putBits_regs, count_eq_add]
    · refine .inl ⟨_, ⟨putBits e (natBits w v), _, rfl, ?_, putBits_trie _ _, fun h => (putBits_written h _).2⟩,
        Enc.countC_of_le (by rw [putBits_regs]; omega)⟩
      rw [putBits_regs]
      exact ⟨rfl, rfl, rfl⟩

/-- Everything a data codeword can do: raise, or be written and counted (R190). -/
theorem encEmit_cases (c : Code) (l : Nat) (e : Enc) :
    (∃ t, e.Stopped t ∧ encEmit c l e = .raised t) ∨
      (1 ≤ e.regs.w.toNat ∧ c.toNat < 2 ^ e.regs.w.toNat ∧ e.regs.c.toNat + e.regs.w.toNat < 2 ^ 64 ∧
        e.regs.u.toNat + 8 * l < 2 ^ 64 ∧ encEmit c l e = .ok () (e.emitted c l)) := by
  rw [encEmit, ← Run.bind_assoc]
  rcases bcWrite_countC_cases c.toNat e with ⟨t, ht, h⟩ | ⟨h1, hv, hc, h⟩ <;> rw [h]
  · exact .inl ⟨t, ht, rfl⟩
  · rw [Run.bind_ok]
    by_cases hu : e.regs.u.toNat + 8 * l < 2 ^ 64
    · refine .inr ⟨h1, hv, hc, hu, (Enc.countU_of_lt ?_).trans ?_⟩
      · exact hu
      · rw [Enc.withRegs_regs, count_eq_add]; rfl
    · refine .inl ⟨_, ⟨_, _, rfl, ?_, ?_, ?_⟩, Enc.countU_of_le ?_⟩
      · exact ⟨rfl, rfl, rfl⟩
      · exact putBits_trie _ _
      · exact fun h => (putBits_written h _).2
      · exact Nat.le_of_not_lt hu

/-- Everything a marker can do: raise, or be written and clear the dictionary (R173). -/
theorem doResetEnc_cases (e : Enc) :
    (∃ t, e.Stopped t ∧ doResetEnc e = .raised t) ∨
      (e.regs.c.toNat + e.regs.w.toNat < 2 ^ 64 ∧ doResetEnc e = .ok () e.marked) := by
  have hd : doResetEnc e = ((bcWrite Config.codeRst e.regs.w.toNat e).bind fun _ e => e.countC e.regs.w.toNat).bind
      fun _ e => .ok () ((pdSeed e).withRegs e.regs.restart) := (Run.bind_assoc _ _ _).symm
  rw [hd]
  rcases bcWrite_countC_cases Config.codeRst e with ⟨t, ht, h⟩ | ⟨_, _, hc, h⟩ <;> rw [h]
  · exact .inl ⟨t, ht, rfl⟩
  · exact .inr ⟨hc, rfl⟩

/-- Everything `ENC.FINISH` can do: raise, or end the stream (R195). -/
theorem encFinish_cases (e : Enc) :
    (∃ t, e.Stopped t ∧ encFinish e = .raised t) ∨ encFinish e = .ok () (encEosWidth e).closed := by
  obtain ⟨w, hw⟩ := encEosWidth_frame e
  have hf : encFinish e = ((bcWrite Config.codeEos (encEosWidth e).regs.w.toNat (encEosWidth e)).bind
      fun _ e => e.countC e.regs.w.toNat).bind
      fun _ e => .ok () ((bcFlush e).withRegs { (bcFlush e).regs with st := .done }) := (Run.bind_assoc _ _ _).symm
  rw [hf]
  rcases bcWrite_countC_cases Config.codeEos (encEosWidth e) with ⟨t, ht, h⟩ | ⟨_, _, hc, h⟩ <;> rw [h]
  · obtain ⟨x, f, ht, hs, htrie, hacc⟩ := ht
    rw [hw] at hs htrie hacc
    exact .inl ⟨t, ⟨x, f, ht, hs, htrie, hacc⟩, rfl⟩
  · refine .inr ?_
    have flush (e : Enc) (r : Regs) : bcFlush (e.withRegs r) = (bcFlush e).withRegs r := by
      unfold bcFlush; split <;> simp_all [Enc.withRegs]
    rw [Run.bind_ok, flush]
    rfl

/-- Everything the three-way branch of ENC.STEP can do (R190). -/
theorem encAdvance_cases (c : Code) (b : Byte) (e : Enc) :
    ((advance e.regs).1 = .register ∧ encAdvance c b e =
        .ok () ((pdInsert c b e.regs.next e).withRegs { (advance e.regs).2 with next := e.regs.next + 1 })) ∨
      ((advance e.regs).1 = .keepFrozen ∧ encAdvance c b e = .ok () (e.withRegs (advance e.regs).2)) ∨
      ((advance e.regs).1 = .doReset ∧
        ((∃ t, (e.withRegs (advance e.regs).2).Stopped t ∧ encAdvance c b e = .raised t) ∨
          ((e.withRegs (advance e.regs).2).regs.c.toNat + (advance e.regs).2.w.toNat < 2 ^ 64 ∧
            encAdvance c b e = .ok () (e.withRegs (advance e.regs).2).marked))) := by
  have hn := advance_next e.regs
  unfold encAdvance
  generalize advance e.regs = ar at hn ⊢
  obtain ⟨a, r⟩ := ar
  cases a
  · exact .inl ⟨rfl, by rw [← hn]⟩
  · exact .inr (.inl ⟨rfl, rfl⟩)
  · exact .inr (.inr ⟨rfl, doResetEnc_cases _⟩)

/-- `ADVANCE` keeps MODE, ST and FAULT_CODE. -/
theorem advance_sameStatus (r : Regs) : r.SameStatus (advance r).2 := ⟨advance_mode r, advance_st r, advance_faultCode r⟩

/-- Everything ENC.STEP with input left can do: raise, or emit the longest match, `ADVANCE` when a byte follows it, and consume it
(R190). -/
theorem encSymbol_cases {e : Enc} {b : Byte} {bs : List Byte} (hsrc : e.src = b :: bs) :
    let m := lpmWalk e.trie (seedCode b) 1 bs
    (∃ t, e.Stopped t ∧ encSymbol e = .raised t) ∨
      (encEmit m.1 m.2 e = .ok () (e.emitted m.1 m.2) ∧ 1 ≤ e.regs.w.toNat ∧ m.1.toNat < 2 ^ e.regs.w.toNat ∧
        e.regs.c.toNat + e.regs.w.toNat < 2 ^ 64 ∧ e.regs.u.toNat + 8 * m.2 < 2 ^ 64 ∧
        ∃ t, encSymbol e = .ok () (srcTake m.2 t) ∧
          ((e.src[m.2]? = none ∧ t = e.emitted m.1 m.2) ∨
            ∃ x, e.src[m.2]? = some x ∧ encAdvance m.1 x (e.emitted m.1 m.2) = .ok () t)) := by
  intro m
  have hlpm : pdLpm e = .ok m e := by rw [pdLpm, hsrc]
  rw [encSymbol, hlpm, Run.bind_ok]
  rcases encEmit_cases m.1 m.2 e with ⟨t, ht, h⟩ | ⟨h1, hv, hc, hu, h⟩ <;> rw [h]
  · exact .inl ⟨t, ht, rfl⟩
  · simp only [Run.bind_ok, srcPeek, Enc.emitted_src]
    cases hx : e.src[m.2]? with
    | none => exact .inr ⟨trivial, h1, hv, hc, hu, _, rfl, .inl ⟨rfl, rfl⟩⟩
    | some x =>
      rcases encAdvance_cases m.1 x (e.emitted m.1 m.2) with ⟨_, h⟩ | ⟨_, h⟩ | ⟨_, ⟨t, ht, h⟩ | ⟨_, h⟩⟩
      · exact .inr ⟨trivial, h1, hv, hc, hu, _, by simp only [h, Run.bind_ok], .inr ⟨x, rfl, h⟩⟩
      · exact .inr ⟨trivial, h1, hv, hc, hu, _, by simp only [h, Run.bind_ok], .inr ⟨x, rfl, h⟩⟩
      · exact .inl ⟨t, ht.of_emitted (advance_sameStatus (e.emitted m.1 m.2).regs), by simp only [h, Run.bind_raised]⟩
      · exact .inr ⟨trivial, h1, hv, hc, hu, _, by simp only [h, Run.bind_ok], .inr ⟨x, rfl, h⟩⟩

/-! ### MODE and FAULT_CODE -/

/-- `q` comes after `r` in one stream: MODE is kept, and so is the rule of FAULT_CODE (R22, R29). -/
def Regs.Follows (r q : Regs) : Prop := q.mode = r.mode ∧ (r.FaultInv → q.FaultInv)

theorem Regs.Follows.refl (r : Regs) : r.Follows r := ⟨rfl, id⟩

theorem Regs.Follows.trans {r q p : Regs} (h : r.Follows q) (h' : q.Follows p) : r.Follows p :=
  ⟨h'.1.trans h.1, h'.2 ∘ h.2⟩

theorem Regs.SameStatus.follows {r q : Regs} (h : r.SameStatus q) : r.Follows q := by
  obtain ⟨hm, hs, hf⟩ := h
  exact ⟨hm, fun h => by unfold Regs.FaultInv; rwa [hs, hf]⟩

/-- The code of a fault is 1 to 8 (R230). -/
theorem FaultCause.code_bounds (f : FaultCause) : f.code ≠ 0 ∧ f.code.toNat ≤ 8 := by cases f <;> decide

/-- Fault entry keeps MODE and the rule of FAULT_CODE (R240). -/
theorem Regs.raise_follows (f : FaultCause) (r : Regs) : r.Follows (r.raise f) := by
  refine ⟨Regs.raise_mode r f, fun h => ?_⟩
  unfold Regs.raise
  split
  · exact h
  · have hf := f.code_bounds
    exact ⟨by simpa using hf.1, hf.2⟩

/-- A started unit that ends its stream keeps MODE and the rule of FAULT_CODE (R212). -/
theorem Regs.ended_follows {r : Regs} (h : r.st = .active) : r.Follows { r with st := .done } := by
  refine ⟨rfl, fun ⟨h0, h8⟩ => ⟨?_, h8⟩⟩
  simpa [h] using h0

theorem Enc.Stopped.st {e t : Enc} (h : e.Stopped t) : t.regs.st = .fault := by
  obtain ⟨x, f, rfl, -⟩ := h; simp

theorem Enc.Stopped.follows {e t : Enc} (h : e.Stopped t) : e.regs.Follows t.regs := by
  obtain ⟨x, f, rfl, hs, -⟩ := h
  exact hs.follows.trans (Regs.raise_follows f x.regs)

theorem Dec.Stopped.follows {d t : Dec} (h : d.Stopped t) : d.regs.Follows t.regs := by
  obtain ⟨x, f, rfl, hs, -⟩ := h
  exact hs.follows.trans (Regs.raise_follows f x.regs)

/-- ENC.STEP with input left keeps MODE, and ST where it completes. -/
theorem encSymbol_follows {e : Enc} {b : Byte} {bs : List Byte} (hsrc : e.src = b :: bs) :
    (encSymbol e).EndsIn (fun t => e.regs.Follows t.regs) False := by
  rcases encSymbol_cases hsrc with ⟨t, ht, h⟩ | ⟨_, _, _, _, _, t, h, ht⟩ <;> rw [h]
  · exact ht.follows
  · have hadv := advance_sameStatus (e.emitted (lpmWalk e.trie (seedCode b) 1 bs).1 (lpmWalk e.trie (seedCode b) 1 bs).2).regs
    rcases ht with ⟨_, rfl⟩ | ⟨x, _, h⟩
    · exact Regs.SameStatus.follows ⟨rfl, rfl, rfl⟩
    · refine Regs.SameStatus.follows ?_
      rcases encAdvance_cases _ x (e.emitted _ _) with ⟨_, h'⟩ | ⟨_, h'⟩ | ⟨_, ⟨t, _, h'⟩ | ⟨_, h'⟩⟩ <;> rw [h'] at h <;> cases h
      · exact hadv
      · exact hadv
      · exact hadv

/-- ENC.STEP on a started unit keeps MODE and the rule of FAULT_CODE. -/
theorem encStep_follows {e : Enc} (he : e.regs.st = .active) :
    (encStep e).EndsIn (fun t => e.regs.Follows t.regs) False := by
  rw [encStep, Enc.require_of_eq he]
  cases hsrc : e.src with
  | nil =>
    rw [if_pos rfl]
    rcases encFinish_cases e with ⟨t, ht, h⟩ | h <;> rw [h]
    · exact ht.follows
    · obtain ⟨w, hw⟩ := encEosWidth_frame e
      rw [hw]
      exact Regs.ended_follows he
  | cons b bs =>
    rw [if_neg (by simp)]
    exact encSymbol_follows hsrc

/-- What every ENC.STEP of a run keeps, ENC.RUN keeps (R197). -/
theorem encLoop_endsIn {P : Enc → Prop} {T : Prop} (hP : ∀ e, P e → e.regs.st = .active → (encStep e).EndsIn P T) (n : Nat) {e : Enc}
    (he : P e) : (encLoop n e).EndsIn P T := by
  induction n generalizing e with
  | zero => exact he
  | succ n ih =>
    unfold encLoop
    split
    · next hs =>
      have := hP e he hs
      cases h : encStep e with
      | ok _ t => rw [h] at this; exact ih this
      | raised t => rw [h] at this; exact this
      | stuck f => rw [h] at this; exact this
    · exact he

/-- What every DEC.STEP of a run keeps, DEC.RUN keeps (R220). -/
theorem Dec.loop_endsIn {P : Dec → Prop} {T : Prop} (hP : ∀ d, P d → d.regs.st = .active → d.step.EndsIn P T) (n : Nat) {d : Dec}
    (hd : P d) : (Dec.loop n d).EndsIn P T := by
  induction n generalizing d with
  | zero => exact hd
  | succ n ih =>
    unfold Dec.loop
    split
    · next hs =>
      have := hP d hd hs
      cases h : d.step with
      | ok _ t => rw [h] at this; exact ih this
      | raised t => rw [h] at this; exact this
      | stuck f => rw [h] at this; exact this
    · exact hd

/-- The codeword of DEC.STEP keeps MODE and the rule of FAULT_CODE. -/
theorem Dec.codeword_follows {d : Dec} (hd : d.regs.st = .active) : d.codeword.EndsIn (fun t => d.regs.Follows t.regs) True := by
  rcases d.codeword_cases with ⟨_, h⟩ | ⟨t, ht, h⟩ | ⟨_, _, _, _, h⟩ <;> rw [h]
  · trivial
  · exact ht.follows
  · have taken : d.regs.Follows (d.taken d.regs.w.toNat).regs := Regs.SameStatus.follows ⟨rfl, rfl, rfl⟩
    rcases codeEffect_cases _ (d.taken d.regs.w.toNat) with ⟨_, h⟩ | ⟨_, p, _, _, h⟩ | ⟨t, ht, h⟩ | ⟨_, _, _, h⟩ <;> rw [h]
    · exact taken.trans (Regs.ended_follows hd)
    · exact Regs.SameStatus.follows ⟨rfl, rfl, rfl⟩
    · exact taken.trans ht.follows
    · trivial

/-- The head of DEC.STEP keeps MODE, ST and FAULT_CODE. -/
theorem decHead_sameStatus (d : Dec) : d.regs.SameStatus (decHead d).2.regs := by
  rcases decHead_cases d with ⟨_, h⟩ | ⟨_, h⟩ <;> rw [h]
  · exact ⟨rfl, rfl, rfl⟩
  · exact advance_sameStatus d.regs

/-- DEC.STEP on a started unit keeps MODE and the rule of FAULT_CODE. -/
theorem Dec.step_follows {d : Dec} (hd : d.regs.st = .active) : d.step.EndsIn (fun t => d.regs.Follows t.regs) True := by
  have hs := decHead_sameStatus d
  have hst := hs.2.1.trans hd
  rcases Dec.step_cases hd with ⟨_, h⟩ | ⟨_, t, ht, h⟩ | ⟨_, _, _, ⟨_, h⟩ | ⟨_, h⟩⟩ <;> rw [h]
  · exact (Dec.codeword_follows hst).mono fun t ht => hs.follows.trans ht
  · exact hs.follows.trans ht.follows
  · exact hs.follows.trans (Regs.ended_follows (r := ((decHead d).2.taken 16).regs) hst)
  · exact (Dec.codeword_follows (d := (decHead d).2.restarted) hst).mono fun t ht => hs.follows.trans ht

/-- Any command keeps the MODE of a started ENC, and the rule of FAULT_CODE. -/
theorem encOp_follows {e : Enc} (he : e.regs.st = .active) (i : Instr) :
    (encOp i e).EndsIn (fun t => e.regs.Follows t.regs) False := by
  rcases encOp_cases i e with h | ⟨_, h | h⟩ | ⟨hs, _⟩
  · rw [h]; exact Regs.raise_follows _ _
  · rw [h]; exact encStep_follows he
  · rw [h]
    exact encLoop_endsIn (P := fun t => e.regs.Follows t.regs)
      (fun t ht hs => (encStep_follows hs).mono fun _ h => ht.trans h) _ (Regs.Follows.refl _)
  · simp [he] at hs

/-- Any command keeps the MODE of a started DEC, and the rule of FAULT_CODE. -/
theorem decOp_follows {d : Dec} (hd : d.regs.st = .active) (i : Instr) :
    (decOp i d).EndsIn (fun t => d.regs.Follows t.regs) True := by
  rcases decOp_cases i d with h | ⟨_, h | h⟩ | ⟨hs, _⟩
  · rw [h]; exact Regs.raise_follows _ _
  · rw [h]; exact Dec.step_follows hd
  · rw [h]
    exact Dec.loop_endsIn (P := fun t => d.regs.Follows t.regs)
      (fun t ht hs => (Dec.step_follows hs).mono fun _ h => ht.trans h) _ (Regs.Follows.refl _)
  · simp [hd] at hs

/-- An operation's next state is the unit it ended in, put back. -/
theorem Run.EndsIn.of_next {σ α : Type} {P : σ → Prop} {T : Prop} {r : Run σ α} {put : σ → State} {t : State} (h : r.EndsIn P T)
    (ht : r.outcome put = .next t) : ∃ x, P x ∧ put x = t := by
  obtain ⟨x, ⟨a, rfl⟩ | rfl, hx⟩ := Run.outcome_eq_next.1 ht <;> exact ⟨x, h, hx⟩

/-- Settles O52: a command follows on in the stream, an untouched unit is as it was, and a new source leaves the registers. -/
theorem modeIsFixedInAStream : Obligations.ModeIsFixedInAStream := by
  intro s t hstep
  rcases step_unit_cases s with
    ⟨_, h⟩ | ⟨cmd, rest, hp, h⟩ | ⟨cmd, rest, hp, h⟩ | ⟨u, rest, hp, h⟩ | ⟨u, bytes, rest, hp, h⟩ <;> rw [h] at hstep
  · cases hstep
    exact ⟨fun _ _ => rfl, fun _ _ => rfl⟩
  · refine ⟨fun _ he => ?_, fun _ _ => ?_⟩
    · obtain ⟨x, hx, rfl⟩ := (encOp_follows (e := s.enc.answered) he _).of_next hstep
      exact hx.1
    · obtain ⟨x, -, rfl⟩ := Run.outcome_eq_next.1 hstep
      rfl
  · refine ⟨fun _ _ => ?_, fun _ hd => ?_⟩
    · obtain ⟨x, -, rfl⟩ := Run.outcome_eq_next.1 hstep
      rfl
    · obtain ⟨x, hx, rfl⟩ := (decOp_follows (d := s.dec.answered) hd _).of_next hstep
      exact hx.1
  · cases u <;> cases hstep
    · exact ⟨fun hn => absurd hp (hn rest), fun _ _ => rfl⟩
    · exact ⟨fun _ _ => rfl, fun hn => absurd hp (hn rest)⟩
  · cases u <;> simp only [hostSetSource] at hstep <;> split at hstep <;> cases hstep <;>
      exact ⟨fun _ _ => rfl, fun _ _ => rfl⟩

end Sys2Proof.Machine
end

section
/-! PROOF. The dictionary of ENC and the table of DEC under their invariants (10_state.md R40; 20_memory.md R61, R62; 41_prefix_dictionary.md
R130 to R135; 42_codeword_table.md R145 to R150). -/

namespace Sys2Proof.Machine

/-! ### Listing one more address -/

/-- Listing an address that was not listed adds its one entry. -/
theorem Cells.insert_perm {α : Type} {m : Cells α} {k : Nat} (h : Cells.find m k = none) (v : α) :
    (Cells.insert m k v).Perm ((k, v) :: m) := by
  induction m with
  | nil => exact .refl _
  | cons e m ih =>
    rw [Cells.find_cons] at h
    unfold Cells.insert
    split
    · exact .refl _
    · split
      · next hk => simp [hk] at h
      · next hk =>
        rw [if_neg hk] at h
        exact ((ih h).cons e).trans (.swap _ _ _)

/-- An address above all listed ones is listed last. -/
theorem Cells.insert_of_gt {α : Type} {m : Cells α} {k : Nat} (h : ∀ j ∈ m.keys, j < k) (v : α) :
    Cells.insert m k v = m ++ [(k, v)] := by
  induction m with
  | nil => rfl
  | cons e m ih =>
    simp only [Cells.keys, List.map_cons, List.mem_cons, forall_eq_or_imp] at h
    unfold Cells.insert
    rw [if_neg (by omega), if_neg (by omega), ih h.2]
    rfl

/-! ### The trie -/

theorem trieAddr_div (c : Code) (b : Byte) : trieAddr c b / 256 = c.toNat := by
  unfold trieAddr; have := b.isLt; omega

theorem trieRead_eq_find (t : Cells Code) (c : Code) (b : Byte) : trieRead t c b = Cells.find t (trieAddr c b) := by
  rw [trieRead, Cells.read_eq, trieDefault, Option.or_none]

theorem seedCode_toNat (b : Byte) : (seedCode b).toNat = b.toNat := by
  have := b.isLt
  rw [seedCode, BitVec.toNat_setWidth, Nat.mod_eq_of_lt (by omega)]

theorem seedCode_lt (b : Byte) : (seedCode b).toNat < 256 := by
  rw [seedCode_toNat]; exact b.isLt

/-- A code that a dictionary of `N` codes can give a phrase: a seed's or a registered one (R31). -/
def IsNode (N : Nat) (c : Code) : Prop := (c.toNat < 256 ∨ 258 ≤ c.toNat) ∧ c.toNat < N

theorem seedCode_isNode {N : Nat} (hN : 256 ≤ N) (b : Byte) : IsNode N (seedCode b) :=
  ⟨.inl (seedCode_lt b), by have := seedCode_lt b; omega⟩

/-- A child has a registered code above its parent's (R40). -/
theorem TrieInv.read {t : Cells Code} {N : Nat} (h : TrieInv t N) {c n : Code} {b : Byte} (hr : trieRead t c b = some n) :
    IsNode N c ∧ c.toNat < n.toNat ∧ 258 ≤ n.toNat ∧ n.toNat < N := by
  rw [trieRead_eq_find] at hr
  have := h.1 _ (Cells.mem_of_find hr)
  simp only [trieAddr_div] at this
  exact ⟨⟨this.1, by omega⟩, this.2⟩

/-- No node has a code from NEXT on, so nothing is a child of one. -/
theorem TrieInv.read_of_le {t : Cells Code} {N : Nat} (h : TrieInv t N) {c : Code} (hc : N ≤ c.toNat) (b : Byte) :
    trieRead t c b = none := by
  cases hr : trieRead t c b with
  | none => rfl
  | some n => have := h.read hr; omega

/-- Each code stands in one cell (R61). -/
theorem TrieInv.cell_unique {t : Cells Code} {N : Nat} (h : TrieInv t N) {c c' n : Code} {b b' : Byte}
    (hr : trieRead t c b = some n) (hr' : trieRead t c' b' = some n) : c = c' ∧ b = b' := by
  rw [trieRead_eq_find] at hr hr'
  have := List.inj_on_of_nodup_map h.2.1 (Cells.mem_of_find hr) (Cells.mem_of_find hr') rfl
  exact trieAddr_inj.1 (congrArg Prod.fst this)

theorem trieInv_nil : TrieInv [] 258 := ⟨by simp, by simp, rfl⟩

/-- Registering a missing extension of a node at NEXT keeps the invariant, with NEXT one higher (R40, R135). -/
theorem TrieInv.insert {t : Cells Code} {n c : Code} (h : TrieInv t n.toNat) (hc : IsNode n.toNat c) {b : Byte}
    (hr : trieRead t c b = none) : TrieInv (trieWrite t c b n) (n.toNat + 1) := by
  have hp : (trieWrite t c b n).Perm ((trieAddr c b, n) :: t) := by
    rw [show trieWrite t c b n = Cells.insert t (trieAddr c b) n by simp [trieWrite, Cells.write, trieDefault]]
    exact Cells.insert_perm (by rwa [trieRead_eq_find] at hr) n
  obtain ⟨hcells, hnodup, hlen⟩ := h
  refine ⟨fun e he => ?_, ?_, ?_⟩
  · rcases List.mem_cons.1 (hp.subset he) with rfl | he
    · simp only [trieAddr_div]
      exact ⟨hc.1, hc.2, by omega, Nat.lt_succ_self _⟩
    · have := hcells e he
      exact ⟨this.1, this.2.1, this.2.2.1, by omega⟩
  · refine ((hp.map Prod.snd).nodup_iff).2 (List.nodup_cons.2 ⟨fun hm => ?_, hnodup⟩)
    obtain ⟨e, he, hen⟩ := List.mem_map.1 hm
    have := (hcells e he).2.2.2
    rw [hen] at this
    exact lt_irrefl _ this
  · rw [hp.length_eq, List.length_cons]; omega

/-! ### The walk of PD.LPM -/

/-- The walk of `PD.LPM` ends at a node (R134). -/
theorem TrieInv.lpmWalk_isNode {t : Cells Code} {N : Nat} (h : TrieInv t N) {c : Code} (hc : IsNode N c) (l : Nat)
    (bs : List Byte) : IsNode N (lpmWalk t c l bs).1 := by
  rcases lpmWalk_code t c l bs with e | ⟨k, b, e⟩
  · rwa [e]
  · obtain ⟨_, _, h258, hN⟩ := h.read e
    exact ⟨.inr h258, hN⟩

/-- The walk of `PD.LPM` stops where the next byte has no child (R134). -/
theorem lpmWalk_stop (t : Cells Code) (c : Code) (l : Nat) (bs : List Byte) {x : Byte}
    (hx : bs[(lpmWalk t c l bs).2 - l]? = some x) : trieRead t (lpmWalk t c l bs).1 x = none := by
  induction bs generalizing c l with
  | nil => simp at hx
  | cons b bs ih =>
    unfold lpmWalk at hx ⊢
    cases hr : pdChild t c b with
    | none =>
      simp only [hr, Nat.sub_self, List.getElem?_cons_zero, Option.some.injEq] at hx
      subst hx
      exact hr
    | some n =>
      simp only [hr] at hx ⊢
      have := (lpmWalk_length t n (l + 1) bs).1
      refine ih n (l + 1) ?_
      rwa [show (lpmWalk t n (l + 1) bs).2 - l = (lpmWalk t n (l + 1) bs).2 - (l + 1) + 1 by omega,
        List.getElem?_cons_succ] at hx

/-- The walk of `PD.LPM` reaches its node along the bytes it matched (R134). -/
theorem lpmWalk_reached (t : Cells Code) (c : Code) (l : Nat) (bs : List Byte) :
    trieWalk t c (bs.take ((lpmWalk t c l bs).2 - l)) = some (lpmWalk t c l bs).1 := by
  induction bs generalizing c l with
  | nil => simp [lpmWalk, trieWalk]
  | cons b bs ih =>
    unfold lpmWalk
    cases hr : pdChild t c b with
    | none => simp [trieWalk]
    | some n =>
      have := (lpmWalk_length t n (l + 1) bs).1
      simp only
      rw [show (lpmWalk t n (l + 1) bs).2 - l = (lpmWalk t n (l + 1) bs).2 - (l + 1) + 1 by omega, List.take_succ_cons,
        trieWalk, hr]
      exact ih n (l + 1)

/-! ### The phrases of the dictionary -/

/-- A walk along one more byte is one child further. -/
theorem trieWalk_snoc (t : Cells Code) (c : Code) (xs : List Byte) (b : Byte) :
    trieWalk t c (xs ++ [b]) = (trieWalk t c xs).bind fun m => trieRead t m b := by
  induction xs generalizing c with
  | nil => simp only [List.nil_append, trieWalk, pdChild, Option.bind_some]; cases trieRead t c b <;> rfl
  | cons x xs ih =>
    simp only [List.cons_append, trieWalk]
    cases pdChild t c x with
    | none => rfl
    | some n => exact ih n

/-- The code of a seed's phrase is the seed. -/
theorem dictCode_single (t : Cells Code) (b : Byte) : dictCode t (Phrase.single b) = some (seedCode b) := rfl

/-- The code of an extension is the child of the phrase's code. -/
theorem dictCode_snoc (t : Cells Code) (p : Phrase) (b : Byte) :
    dictCode t (p.snoc b) = (dictCode t p).bind fun m => trieRead t m b := trieWalk_snoc _ _ _ _

/-- A phrase is one byte, or an extension of a phrase. -/
theorem Phrase.cases_snoc (p : Phrase) : p = Phrase.single p.first ∨ ∃ (q : Phrase) (b : Byte), p = q.snoc b := by
  obtain ⟨f, r⟩ := p
  rcases List.eq_nil_or_concat r with rfl | ⟨ys, b, rfl⟩
  · exact .inl rfl
  · exact .inr ⟨⟨f, ys⟩, b, by simp [Phrase.snoc]⟩

/-- Induction on a phrase by its last byte. -/
theorem Phrase.snoc_induction {P : Phrase → Prop} (single : ∀ b, P (Phrase.single b)) (snoc : ∀ p b, P p → P (p.snoc b))
    (p : Phrase) : P p := by
  obtain ⟨f, r⟩ := p
  induction r using List.reverseRecOn with
  | nil => exact single f
  | append_singleton ys b ih => exact snoc ⟨f, ys⟩ b ih

theorem Phrase.snoc_inj {p q : Phrase} {b c : Byte} : p.snoc b = q.snoc c ↔ p = q ∧ b = c := by
  obtain ⟨f, r⟩ := p
  obtain ⟨f', r'⟩ := q
  simp only [Phrase.snoc, Phrase.mk.injEq, List.append_singleton_inj, and_assoc]

/-- The code of a phrase is a node; only an extension has a registered code. -/
theorem TrieInv.dictCode_isNode {t : Cells Code} {N : Nat} (h : TrieInv t N) (hN : 256 ≤ N) {p : Phrase} {n : Code}
    (hp : dictCode t p = some n) : IsNode N n := by
  rcases Phrase.cases_snoc p with hs | ⟨q, b, rfl⟩
  · rw [hs, dictCode_single, Option.some.injEq] at hp
    exact hp ▸ seedCode_isNode hN _
  · rw [dictCode_snoc, Option.bind_eq_some_iff] at hp
    obtain ⟨m, _, hm⟩ := hp
    obtain ⟨_, _, h258, hlt⟩ := h.read hm
    exact ⟨.inr h258, hlt⟩

/-- No two phrases have one code (R40). -/
theorem TrieInv.dictCode_inj {t : Cells Code} {N : Nat} (h : TrieInv t N) {p q : Phrase} {n : Code}
    (hp : dictCode t p = some n) (hq : dictCode t q = some n) : p = q := by
  have seed_ne {p : Phrase} {a b : Byte} (hp : dictCode t (p.snoc a) = some (seedCode b)) : False := by
    rw [dictCode_snoc, Option.bind_eq_some_iff] at hp
    obtain ⟨m, _, hm⟩ := hp
    have := (h.read hm).2.2.1
    have := seedCode_lt b
    omega
  induction p using Phrase.snoc_induction generalizing q n with
  | single b =>
    rw [dictCode_single, Option.some.injEq] at hp
    subst hp
    rcases Phrase.cases_snoc q with hs | ⟨q', a, rfl⟩
    · rw [hs, dictCode_single, Option.some.injEq] at hq
      have := congrArg BitVec.toNat hq
      rw [seedCode_toNat, seedCode_toNat] at this
      rw [hs, BitVec.eq_of_toNat_eq this]
    · exact (seed_ne hq).elim
  | snoc p b ih =>
    rcases Phrase.cases_snoc q with hs | ⟨q', a, rfl⟩
    · rw [hs, dictCode_single, Option.some.injEq] at hq
      exact (seed_ne (hq ▸ hp)).elim
    · rw [dictCode_snoc, Option.bind_eq_some_iff] at hp hq
      obtain ⟨m, hm, hmb⟩ := hp
      obtain ⟨m', hm', hmb'⟩ := hq
      obtain ⟨rfl, rfl⟩ := h.cell_unique hmb hmb'
      rw [ih hm hm']

/-- Registering a missing extension of node `c` at NEXT gives the extension of the node's phrase the code NEXT, and no other phrase
gains or loses a code (R131, R135). -/
theorem TrieInv.dictCode_insert {t : Cells Code} {N c : Code} (h : TrieInv t N.toNat) (hc : IsNode N.toNat c) {b : Byte}
    (hr : trieRead t c b = none) (q : Phrase) (n : Code) :
    dictCode (trieWrite t c b N) q = some n ↔
      dictCode t q = some n ∨ (n = N ∧ ∃ p, q = p.snoc b ∧ dictCode t p = some c) := by
  induction q using Phrase.snoc_induction generalizing n with
  | single a =>
    have (p : Phrase) : Phrase.single a ≠ p.snoc b := by simp [Phrase.single, Phrase.snoc]
    simp [dictCode_single, this]
  | snoc q a ih =>
    simp only [dictCode_snoc, Option.bind_eq_some_iff, ih, trieRead_trieWrite, Phrase.snoc_inj]
    constructor
    · rintro ⟨m, hm | ⟨rfl, -⟩, hn⟩
      · split at hn
        · next hmc =>
          obtain ⟨rfl, rfl⟩ := hmc
          exact .inr ⟨(Option.some.inj hn).symm, q, ⟨rfl, rfl⟩, hm⟩
        · exact .inl ⟨m, hm, hn⟩
      · have hne : m ≠ c := fun e => absurd hc.2 (by simp [e])
        rw [if_neg (fun e => hne e.1), h.read_of_le le_rfl] at hn
        cases hn
    · rintro (⟨m, hm, hn⟩ | ⟨rfl, p, ⟨rfl, rfl⟩, hp⟩)
      · refine ⟨m, .inl hm, ?_⟩
        rw [if_neg]
        · exact hn
        · rintro ⟨rfl, rfl⟩
          rw [hr] at hn
          cases hn
      · exact ⟨c, .inl hp, if_pos ⟨rfl, rfl⟩⟩

/-! ### The table -/

theorem tblInv_nil : TblInv [] 258 := ⟨by decide, by simp⟩

theorem TblInv.mem_keys {t : Cells Phrase} {N : Nat} (h : TblInv t N) {i : Nat} : i ∈ t.keys ↔ 258 ≤ i ∧ i < N := by
  rw [Cells.keys, h.1, List.mem_range'_1]; omega

/-- A registered slot holds an extension of a known phrase (R40). -/
theorem TblInv.read {t : Cells Phrase} {N : Nat} (h : TblInv t N) {i : Nat} (h1 : 258 ≤ i) (h2 : i < N) :
    ∃ p b, tblRead t i = some (Phrase.snoc p b) ∧ Known t i p := by
  have hsorted : t.keys.Pairwise (· < ·) := by rw [Cells.keys, h.1]; exact List.pairwise_lt_range'
  obtain ⟨⟨j, q⟩, he, rfl⟩ := List.mem_map.1 (h.mem_keys.2 ⟨h1, h2⟩)
  obtain ⟨p, b, hq, hk⟩ := h.2 _ he
  refine ⟨p, b, ?_, hk⟩
  rw [tblRead, Cells.read_eq, Cells.find_of_mem hsorted he, ← hq]
  rfl

/-- A slot below 256 holds its seed (R147). -/
theorem TblInv.read_seed {t : Cells Phrase} {N : Nat} (h : TblInv t N) {i : Nat} (hi : i < 256) :
    tblRead t i = some (Phrase.single (BitVec.ofNat 8 i)) := by
  have : Cells.find t i = none := by
    by_contra hne
    obtain ⟨v, hv⟩ := Option.ne_none_iff_exists'.1 hne
    have := h.mem_keys.1 (List.mem_map_of_mem (Cells.mem_of_find hv))
    omega
  rw [tblRead, Cells.read_eq, this, tblDefault, if_pos hi]
  rfl

/-- A known phrase stays known when the slots below its bound keep their contents. -/
theorem Known.mono {t t' : Cells Phrase} {n m : Nat} {p : Phrase} (h : Known t n p) (hnm : n ≤ m)
    (hread : ∀ j, 258 ≤ j → j < n → tblRead t' j = tblRead t j) : Known t' m p := by
  rcases h with h | ⟨j, h1, h2, h3⟩
  · exact .inl h
  · exact .inr ⟨j, h1, by omega, (hread j h1 h2).trans h3⟩

/-- Registering an extension of a known phrase at NEXT keeps the invariant, with NEXT one higher (R40, R150). -/
theorem TblInv.register {t : Cells Phrase} {N : Nat} (hwf : Cells.Wf tblDefault t) (h : TblInv t N) (hN : 258 ≤ N) {p : Phrase}
    (hp : Known t N p) (b : Byte) : TblInv (tblWrite t N (p.snoc b)) (N + 1) := by
  have hd : tblDefault N ≠ some (p.snoc b) := by simp [tblDefault, show ¬N < 256 by omega]
  have ht : tblWrite t N (p.snoc b) = t ++ [(N, p.snoc b)] := by
    rw [tblWrite, Cells.write, if_neg hd]
    exact Cells.insert_of_gt (fun j hj => (h.mem_keys.1 hj).2) _
  have hread (j : Nat) (hj : j < N) : tblRead (tblWrite t N (p.snoc b)) j = tblRead t j := by
    rw [tblRead_tblWrite hwf, if_neg (by omega)]
  refine ⟨?_, fun e he => ?_⟩
  · rw [ht, List.map_append, h.1, show N + 1 - 258 = N - 258 + 1 by omega, List.range'_1_concat,
      show 258 + (N - 258) = N by omega]
    rfl
  · rw [ht, List.mem_append, List.mem_singleton] at he
    rcases he with he | rfl
    · obtain ⟨q, a, hq, hk⟩ := h.2 e he
      have := (h.mem_keys.1 (List.mem_map_of_mem he)).2
      exact ⟨q, a, hq, hk.mono le_rfl fun j _ hj => hread j (by omega)⟩
    · exact ⟨p, b, rfl, hp.mono le_rfl fun j _ hj => hread j hj⟩

end Sys2Proof.Machine
end

section
/-! PROOF. Every operation of ENC and of DEC keeps its unit's invariant and none gets stuck (10_state.md R40, R29; 20_memory.md R61, R62;
43_width_policy.md R170, R171). -/

namespace Sys2Proof.Machine

section
variable {σ α : Type}

theorem Run.EndsIn.and {P Q : σ → Prop} {T U : Prop} {r : Run σ α} (h : r.EndsIn P T) (h' : r.EndsIn Q U) :
    r.EndsIn (fun s => P s ∧ Q s) T := by
  cases r with
  | ok a s => exact ⟨h, h'⟩
  | raised s => exact ⟨h, h'⟩
  | stuck f => exact h

/-- An operation that never gets stuck has a next state. -/
theorem Run.EndsIn.next {P : σ → Prop} {r : Run σ α} (h : r.EndsIn P False) (put : σ → State) :
    ∃ s, P s ∧ r.outcome put = .next (put s) := by
  cases r with
  | ok a s => exact ⟨s, h, rfl⟩
  | raised s => exact ⟨s, h, rfl⟩
  | stuck f => exact h.elim

end

/-! ### The registers of a started unit -/

theorem count_add_toNat {c : Count} {n : Nat} (h : c.toNat + n < 2 ^ 64) : (c + BitVec.ofNat 64 n).toNat = c.toNat + n := by
  rw [← count_eq_add, BitVec.toNat_ofNat, Nat.mod_eq_of_lt h]

/-- A width at which a code is not the last one leaves room for it in NEXT. -/
theorem next_add_toNat {r : Regs} (h : r.ActiveInv) (hn : r.next.toNat < 2 ^ r.w.toNat) :
    (r.next + 1).toNat = r.next.toNat + 1 := by
  have : 2 ^ r.w.toNat ≤ 2 ^ 16 := Nat.pow_le_pow_right (by omega) h.2.1
  rw [BitVec.toNat_add, show (1 : Code).toNat = 1 from rfl, Nat.mod_eq_of_lt (by omega)]

/-- The latch of the first policy call takes counts that are not zero (R163, R167). -/
theorem Regs.ActiveInv.latch {r : Regs} (h : r.ActiveInv) (hm : r.mode = .monitor) (hu : 0 < r.u.toNat) : r.latch.ActiveInv := by
  obtain ⟨hw9, hw16, hn, hnw, hc, hl⟩ := h
  unfold Regs.latch
  split
  · exact ⟨hw9, hw16, hn, hnw, hc, hl⟩
  · exact ⟨hw9, hw16, hn, hnw, hc, fun _ => ⟨hm, hu, by change 0 < r.c.toNat; omega⟩⟩

/-- `ADVANCE` keeps the registers' invariant, answers Register only where NEXT has room, and DoReset only at 16 bits (R160, R161). -/
theorem Regs.ActiveInv.advance {r : Regs} (h : r.ActiveInv) (hu : 0 < r.u.toNat) :
    (advance r).2.ActiveInv ∧ ((advance r).1 = .register → r.next.toNat < 2 ^ (advance r).2.w.toNat) ∧
      ((advance r).1 = .doReset → (advance r).2.w = 16) := by
  have h' := h
  obtain ⟨hw9, hw16, hn, hnw, hc, hl⟩ := h
  rcases advance_cases r with ⟨hlt, e⟩ | ⟨hle, hw, e⟩ | ⟨hle, hw, e⟩
  · rw [e]
    exact ⟨h', fun _ => hlt, fun e => by cases e⟩
  · have hw1 : (r.w + 1).toNat = r.w.toNat + 1 := by
      rw [BitVec.toNat_add, show (1 : BitVec 5).toNat = 1 from rfl, Nat.mod_eq_of_lt (by omega)]
    have hpow : 2 ^ (r.w.toNat + 1) = 2 * 2 ^ r.w.toNat := by rw [pow_succ, mul_comm]
    have hpos : 0 < 2 ^ r.w.toNat := by positivity
    rw [e]
    refine ⟨⟨?_, ?_, hn, ?_, hc, hl⟩, fun _ => ?_, fun e => by cases e⟩ <;> simp only [hw1] <;> omega
  · have hw' : r.w = 16 := BitVec.eq_of_toNat_eq (by change _ = 16; omega)
    have lw : r.latch.w = r.w := by obtain ⟨_, _, e⟩ := r.latch_frame; rw [e]
    rw [e]
    rcases chooseAction_cases r with ⟨_, e⟩ | ⟨_, e⟩ | ⟨hm, _, e⟩ | ⟨hm, _, e⟩ <;> rw [e]
    · exact ⟨h', by simp, by simp⟩
    · exact ⟨h', by simp, fun _ => hw'⟩
    · exact ⟨h'.latch hm hu, by simp, fun _ => lw.trans hw'⟩
    · exact ⟨h'.latch hm hu, by simp, by simp⟩

/-- The registers' invariant at the width and the code that a dictionary starts with. -/
theorem Regs.activeInv_of_restarted {r : Regs} (hw : r.w = 9) (hn : r.next = 258) (hc : 2 ≤ r.c.toNat)
    (hl : r.latched = true → r.mode = .monitor ∧ 0 < r.u0.toNat ∧ 0 < r.c0.toNat) : r.ActiveInv := by
  rw [Regs.ActiveInv, hw, hn]
  exact ⟨by decide, by decide, by decide, by decide, hc, hl⟩

/-- A dictionary reset keeps the registers' invariant (R173, R174). -/
theorem Regs.ActiveInv.restart {r : Regs} (h : r.ActiveInv) : r.restart.ActiveInv := by
  obtain ⟨_, _, _, _, hc, hl⟩ := h
  exact Regs.activeInv_of_restarted rfl rfl hc hl

/-- Counts only grow. -/
theorem Regs.ActiveInv.count {r : Regs} (h : r.ActiveInv) (u : Count) {n : Nat} (hc : r.c.toNat + n < 2 ^ 64) :
    { r with u := u, c := r.c + BitVec.ofNat 64 n }.ActiveInv := by
  obtain ⟨hw9, hw16, hn, hnw, hc2, hl⟩ := h
  refine ⟨hw9, hw16, hn, hnw, ?_, hl⟩
  simp only [count_add_toNat hc]
  omega

/-! ### ENC -/

theorem written_length (e : Enc) : (written e).length = 8 * e.snk.length + e.acc.length := by simp [written]

/-- ENC in a started stream (R40): the clauses of its invariant but that of FAULT_CODE. -/
structure Enc.Running (e : Enc) : Prop where
  st : e.regs.st = .active
  acc : e.acc.length < 8
  wf : Cells.Wf trieDefault e.trie
  regs : e.regs.ActiveInv
  trie : TrieInv e.trie e.regs.next.toNat
  pos : e.regs.c.toNat = (written e).length

/-- The invariant of ENC: the clauses that hold in any state, and those of a started stream. -/
theorem Enc.inv_iff {e : Enc} :
    e.Inv ↔ e.acc.length < 8 ∧ Cells.Wf trieDefault e.trie ∧ e.regs.FaultInv ∧ (e.regs.st = .active → e.Running) := by
  constructor
  · rintro ⟨hacc, hwf, hf, hrun⟩
    refine ⟨hacc, hwf, hf, fun hs => ?_⟩
    obtain ⟨hregs, htrie, hpos⟩ := hrun hs
    exact ⟨hs, hacc, hwf, hregs, htrie, hpos.trans (written_length e).symm⟩
  · rintro ⟨hacc, hwf, hf, hrun⟩
    refine ⟨hacc, hwf, hf, fun hs => ?_⟩
    have h := hrun hs
    exact ⟨h.regs, h.trie, h.pos.trans (written_length e)⟩

/-- A data codeword keeps a running ENC running (R190). -/
theorem Enc.Running.emitted {e : Enc} (h : e.Running) (c : Code) (l : Nat) (hc : e.regs.c.toNat + e.regs.w.toNat < 2 ^ 64) :
    (e.emitted c l).Running where
  st := h.st
  acc := (putBits_written h.acc _).2
  wf := by rw [Enc.emitted_trie]; exact h.wf
  regs := h.regs.count _ hc
  trie := by rw [Enc.emitted_trie]; exact h.trie
  pos := by
    have hw : written (e.emitted c l) = written e ++ natBits e.regs.w.toNat c.toNat := (putBits_written h.acc _).1
    rw [hw, List.length_append, natBits_length, ← h.pos]
    exact count_add_toNat hc

/-- A marker keeps a running ENC running, with an empty dictionary (R173). -/
theorem Enc.Running.marked {e : Enc} (h : e.Running) (hc : e.regs.c.toNat + e.regs.w.toNat < 2 ^ 64) : e.marked.Running where
  st := h.st
  acc := (putBits_written h.acc _).2
  wf := Cells.nil_wf _
  regs := h.regs.restart.count _ hc
  trie := trieInv_nil
  pos := by
    have hw : written e.marked = written e ++ natBits e.regs.w.toNat Config.codeRst := (putBits_written h.acc _).1
    rw [hw, List.length_append, natBits_length, ← h.pos]
    exact count_add_toNat hc

/-- The three-way branch of ENC.STEP keeps a running ENC running, when the match ended at node `c`, which has no child at the byte that
follows (R190). -/
theorem Enc.Running.advanced {e t : Enc} (h : e.Running) (hu : 0 < e.regs.u.toNat) {c : Code} {x : Byte}
    (hc : IsNode e.regs.next.toNat c) (hx : trieRead e.trie c x = none) (ht : encAdvance c x e = .ok () t) : t.Running := by
  obtain ⟨hregs, hroom, hw⟩ := h.regs.advance hu
  have kept : (e.withRegs (advance e.regs).2).Running :=
    { st := (advance_st e.regs).trans h.st
      acc := h.acc
      wf := h.wf
      regs := hregs
      trie := by simpa using h.trie
      pos := by rw [Enc.withRegs_regs, advance_c]; exact h.pos }
  rcases encAdvance_cases c x e with ⟨ha, e'⟩ | ⟨_, e'⟩ | ⟨_, ⟨_, _, e'⟩ | ⟨hcc, e'⟩⟩ <;> rw [e'] at ht <;> cases ht
  · have hn := hroom ha
    rw [← advance_next] at hn
    have hnext := next_add_toNat hregs hn
    rw [advance_next] at hnext hn
    rcases pdInsert_cases c x e.regs.next e with ⟨⟨k, hk⟩, _⟩ | ⟨_, hi⟩
    · rw [hx] at hk; cases hk
    · rw [hi]
      exact
        { st := kept.st
          acc := h.acc
          wf := trieWrite_wf h.wf _ _ _
          regs := by
            obtain ⟨hw9, hw16, hn258, _, hc2, hl⟩ := hregs
            rw [advance_next] at hn258
            exact ⟨hw9, hw16, by change _ ≤ (e.regs.next + 1).toNat; omega, 
              by change (e.regs.next + 1).toNat ≤ 2 ^ (advance e.regs).2.w.toNat; omega, hc2, hl⟩
          trie := by
            change TrieInv _ (e.regs.next + 1).toNat
            rw [hnext]
            exact h.trie.insert hc hx
          pos := kept.pos }
  · exact kept
  · exact kept.marked hcc

/-- The longest match of a running ENC with input: its node, that no longer phrase matches, and its length (R134). -/
theorem Enc.Running.lpm {e : Enc} (h : e.Running) {b : Byte} {bs : List Byte} (hsrc : e.src = b :: bs) :
    let m := lpmWalk e.trie (seedCode b) 1 bs
    IsNode e.regs.next.toNat m.1 ∧ 1 ≤ m.2 ∧ m.2 ≤ e.src.length ∧
      dictCode e.trie ⟨b, bs.take (m.2 - 1)⟩ = some m.1 ∧ ∀ x, e.src[m.2]? = some x → trieRead e.trie m.1 x = none := by
  intro m
  have hn := h.regs.2.2.1
  obtain ⟨hl1, hl2⟩ : 1 ≤ m.2 ∧ m.2 ≤ 1 + bs.length := lpmWalk_length e.trie (seedCode b) 1 bs
  refine ⟨h.trie.lpmWalk_isNode (seedCode_isNode (by omega) b) 1 bs, hl1, by rw [hsrc, List.length_cons]; omega,
    lpmWalk_reached e.trie (seedCode b) 1 bs, fun x hx => lpmWalk_stop e.trie (seedCode b) 1 bs ?_⟩
  rw [hsrc] at hx
  change (b :: bs)[m.2]? = some x at hx
  rwa [show m.2 = m.2 - 1 + 1 by omega, List.getElem?_cons_succ] at hx

/-- ENC.STEP with input left, completed, keeps a running ENC running (R190). -/
theorem Enc.Running.symbol {e t : Enc} (h : e.Running) {b : Byte} {bs : List Byte} (hsrc : e.src = b :: bs)
    (ht : encSymbol e = .ok () t) : t.Running := by
  obtain ⟨hnode, hl1, _, _, hstop⟩ := h.lpm hsrc
  rcases encSymbol_cases hsrc with ⟨_, _, e'⟩ | ⟨_, _, _, hc, hu, t', e', ht'⟩ <;> rw [e'] at ht <;> cases ht
  have run := h.emitted (lpmWalk e.trie (seedCode b) 1 bs).1 (lpmWalk e.trie (seedCode b) 1 bs).2 hc
  suffices t'.Running from ⟨this.st, this.acc, this.wf, this.regs, this.trie, this.pos⟩
  rcases ht' with ⟨_, rfl⟩ | ⟨x, hx, hadv⟩
  · exact run
  · refine run.advanced ?_ hnode ?_ hadv
    · rw [Enc.emitted_regs, count_add_toNat hu]; omega
    · rw [Enc.emitted_trie]; exact hstop x hx

/-- An encoder that has stopped meets the invariant. -/
theorem Enc.Inv.stopped {e t : Enc} (h : e.Inv) (ht : e.Stopped t) : t.Inv := by
  obtain ⟨hacc, hwf, hf, -⟩ := Enc.inv_iff.1 h
  have hst := ht.st
  refine Enc.inv_iff.2 ⟨?_, ?_, ht.follows.2 hf, fun hs => by rw [hst] at hs; cases hs⟩ <;>
    obtain ⟨x, f, rfl, _, htrie, hacc'⟩ := ht
  · exact hacc' hacc
  · rw [Enc.raise_trie, htrie]; exact hwf

/-- ENC.STEP keeps the invariant of ENC. -/
theorem encStep_inv {e : Enc} (h : e.Inv) (he : e.regs.st = .active) : (encStep e).EndsIn Enc.Inv False := by
  have hfollows := encStep_follows he
  obtain ⟨hacc, hwf, hf, hrun⟩ := Enc.inv_iff.1 h
  have run := hrun he
  rw [encStep, Enc.require_of_eq he] at hfollows ⊢
  cases hsrc : e.src with
  | nil =>
    rw [hsrc, if_pos rfl] at hfollows
    rw [if_pos rfl]
    rcases encFinish_cases e with ⟨t, ht, e'⟩ | e' <;> rw [e'] at hfollows ⊢
    · exact h.stopped ht
    · obtain ⟨w, hw⟩ := encEosWidth_frame e
      refine Enc.inv_iff.2 ⟨?_, ?_, hfollows.2 hf, fun hs => by cases hs⟩
      · simp [Enc.closed]
      · rw [hw]; simpa [Enc.closed] using hwf
  | cons b bs =>
    rw [hsrc, if_neg (by simp)] at hfollows
    rw [if_neg (by simp)]
    rcases encSymbol_cases hsrc with ⟨t, ht, e'⟩ | ⟨_, _, _, _, _, t, e', _⟩
    · rw [e']; exact h.stopped ht
    · have := run.symbol hsrc e'
      rw [e'] at hfollows ⊢
      exact Enc.inv_iff.2 ⟨this.acc, this.wf, hfollows.2 hf, fun _ => this⟩

/-- ENC right after ENC.START in mode `m` (R186). -/
def Enc.started (m : Mode) (e : Enc) : Enc :=
  { e with
    regs := { e.regs.clearCounts.restart with mode := m, c := 2, st := .active }
    trie := []
    acc := natBits 2 m.bits.toNat
    snk := [] }

/-- The bits of a legal mode are its encoding (R22). -/
theorem Mode.ofBits_eq_some {v : BitVec 2} {m : Mode} (h : Mode.ofBits v = some m) : v = m.bits := by
  revert v m; decide

theorem Mode.ofBits_bits (m : Mode) : Mode.ofBits m.bits = some m := by cases m <;> rfl

/-- ENC.START with a legal mode begins the stream (R186). -/
theorem encStart_bits (m : Mode) (e : Enc) : encStart m.bits e = .ok () (e.started m) := by
  cases m <;> rfl

/-- Everything ENC.START can do after its state test (R186, R235). -/
theorem encStart_cases (v : BitVec 2) (e : Enc) :
    encStart v e = .raised (e.raise .invalidMode) ∨ ∃ m, encStart v e = .ok () (e.started m) := by
  cases hv : Mode.ofBits v with
  | none => exact .inl (by simp only [encStart, hv])
  | some m => rw [Mode.ofBits_eq_some hv]; exact .inr ⟨m, encStart_bits m e⟩

/-- A started ENC runs. -/
theorem Enc.started_running (m : Mode) (e : Enc) : (e.started m).Running where
  st := rfl
  acc := by simp [Enc.started]
  wf := Cells.nil_wf _
  regs := Regs.activeInv_of_restarted rfl rfl (by simp [Enc.started]) (fun h => by cases h)
  trie := trieInv_nil
  pos := by simp [Enc.started, written]

/-- Any command keeps the invariant of ENC, and none gets stuck. -/
theorem encOp_inv {e : Enc} (h : e.Inv) (i : Instr) : (encOp i e).EndsIn Enc.Inv False := by
  obtain ⟨hacc, hwf, hf, -⟩ := Enc.inv_iff.1 h
  have raised (f : FaultCause) : (e.raise f).Inv := h.stopped ⟨e, f, rfl, ⟨rfl, rfl, rfl⟩, rfl, id⟩
  have packer {t : Enc} (hs : e.regs.st = .idle) (hr : t.regs = e.regs) (ht : t.trie = e.trie) (ha : t.acc.length < 8) : t.Inv :=
    Enc.inv_iff.2 ⟨ha, ht ▸ hwf, hr ▸ hf, fun hs' => by rw [hr, hs] at hs'; cases hs'⟩
  rcases encOp_cases i e with e' | ⟨hs, e' | e'⟩ | ⟨hs, ⟨m, e'⟩ | e' | ⟨v, w, e'⟩ | e'⟩ <;> rw [e']
  · exact raised _
  · exact encStep_inv h hs
  · exact encLoop_endsIn (fun _ => encStep_inv) _ h
  · rcases encStart_cases m e with e' | ⟨m, e'⟩ <;> rw [e']
    · exact raised _
    · refine Enc.inv_iff.2 ⟨(Enc.started_running m e).acc, Cells.nil_wf _, ?_, fun _ => Enc.started_running m e⟩
      exact ⟨⟨fun _ => by simp [Enc.started], fun _ => hf.1.2 (by simp [hs])⟩, hf.2⟩
  · exact packer hs rfl rfl (by simp [bcWinit])
  · rcases bcWrite_cases v w e with ⟨_, e'⟩ | ⟨_, _, _, e'⟩ | ⟨_, _, _, e'⟩ <;> rw [e']
    · exact raised _
    · exact raised _
    · exact packer hs (by simp) (by simp) (putBits_written hacc _).2
  · exact packer hs (by simp) (by simp) (by simp)

end Sys2Proof.Machine
end

section
/-! PROOF. DEC's invariant, and the machine's: every step keeps it and none stops (10_state.md R40; 20_memory.md R62; 45_decoder.md R210,
R214). -/

namespace Sys2Proof.Machine

/-- DEC in a started stream (R40): the clauses of its invariant but those of FAULT_CODE and PENDING. -/
structure Dec.Running (d : Dec) : Prop where
  st : d.regs.st = .active
  wf : Cells.Wf tblDefault d.tbl
  regs : d.regs.ActiveInv
  tbl : TblInv d.tbl d.regs.next.toNat
  pos : d.regs.c.toNat + d.rem.length = 8 * d.src.length
  out : d.regs.u.toNat = 8 * d.snk.length
  prev : d.prevValid = true → 0 < d.regs.u.toNat ∧ Known d.tbl d.regs.next.toNat d.prev

/-- A registration is pending only behind a data codeword and where NEXT has room (R211). -/
def Dec.PendingOk (d : Dec) : Prop := d.pending = true → d.prevValid = true ∧ d.regs.next.toNat < 2 ^ d.regs.w.toNat

/-- A started DEC that meets the invariant runs. -/
theorem Dec.Inv.running {d : Dec} (h : d.Inv) (hs : d.regs.st = .active) : d.Running := by
  obtain ⟨hwf, -, -, hrun⟩ := h
  obtain ⟨hregs, htbl, hpos, hout, hprev⟩ := hrun hs
  exact ⟨hs, hwf, hregs, htbl, hpos, hout, hprev⟩

/-- The invariant of DEC from its parts, where nothing is pending but in FAULT. -/
theorem Dec.inv_of {d : Dec} (hwf : Cells.Wf tblDefault d.tbl) (hf : d.regs.FaultInv) (hp : d.pending = true → d.regs.st = .fault)
    (hrun : d.regs.st = .active → d.Running) : d.Inv :=
  ⟨hwf, hf, fun h => .inl (hp h), fun hs => ⟨(hrun hs).regs, (hrun hs).tbl, (hrun hs).pos, (hrun hs).out, (hrun hs).prev⟩⟩

/-- The head of DEC.STEP keeps a running DEC running, and its PENDING is in order (R210, R211). -/
theorem Dec.Running.head {d : Dec} (h : d.Running) : (decHead d).2.Running ∧ (decHead d).2.PendingOk := by
  rcases decHead_cases d with ⟨hv, e⟩ | ⟨hv, e⟩ <;> rw [e]
  · exact ⟨⟨h.st, h.wf, h.regs, h.tbl, h.pos, h.out, h.prev⟩, fun hp => by cases hp⟩
  · obtain ⟨hregs, hroom, -⟩ := h.regs.advance (h.prev hv).1
    have hn := advance_next d.regs
    have hu := advance_u d.regs
    have hc := advance_c d.regs
    refine ⟨⟨(advance_st d.regs).trans h.st, h.wf, hregs, ?_, ?_, ?_, ?_⟩, fun hp => ⟨hv, ?_⟩⟩
    · exact hn.symm ▸ h.tbl
    · exact hc.symm ▸ h.pos
    · exact hu.symm ▸ h.out
    · exact fun _ => ⟨hu.symm ▸ (h.prev hv).1, hn.symm ▸ (h.prev hv).2⟩
    · exact hn.symm ▸ hroom (of_decide_eq_true hp)

/-- The bits of a symbol taken keep a running DEC running (R171). -/
theorem Dec.Running.taken {d : Dec} (h : d.Running) {w : Nat} (hl : w ≤ d.rem.length) (hc : d.regs.c.toNat + w < 2 ^ 64) :
    (d.taken w).Running where
  st := h.st
  wf := h.wf
  regs := h.regs.count d.regs.u hc
  tbl := h.tbl
  pos := by
    have := h.pos
    change (d.regs.c + BitVec.ofNat 64 w).toNat + (d.rem.drop w).length = 8 * d.src.length
    rw [count_add_toNat hc, List.length_drop]
    omega
  out := h.out
  prev := h.prev

/-- A dictionary reset keeps a running DEC running, with nothing pending (R174). -/
theorem Dec.Running.restarted {d : Dec} (h : d.Running) (hl : 16 ≤ d.rem.length) (hc : d.regs.c.toNat + 16 < 2 ^ 64) :
    d.restarted.Running ∧ d.restarted.PendingOk := by
  have ht := h.taken hl hc
  exact ⟨⟨h.st, Cells.nil_wf _, ht.regs.restart, tblInv_nil, ht.pos, ht.out, fun hv => by cases hv⟩, fun hp => by cases hp⟩

/-- What CT.RESOLVE answers for a codeword other than EOS is a known phrase, or the one that the pending registration makes known
(R149). -/
theorem ctResolve_known {d : Dec} {x : Nat} (hx : x ≠ 256) {p : Phrase} (hp : ctResolve x d = .ok p d) :
    Known d.tbl d.regs.next.toNat p ∨ (d.pending = true ∧ p = d.prev.snoc d.prev.first) := by
  rcases ctResolve_cases x d with ⟨_, e⟩ | ⟨h256, h257, hn, q, hq, e⟩ | ⟨_, _, _, _, e⟩ | ⟨_, _, _, hpend, e⟩ | ⟨_, e⟩ <;>
    rw [e] at hp <;> cases hp
  · exact .inl (.inl rfl)
  · exact .inl (.inr ⟨x, by omega, hn, hq⟩)
  · exact .inr ⟨hpend, rfl⟩

/-- The tail of DEC.STEP keeps a running DEC running (R150, R170, R210). -/
theorem Dec.Running.output {d : Dec} (h : d.Running) (hpok : d.PendingOk) {x : Nat} (hx : x ≠ 256) {p : Phrase}
    (hp : ctResolve x d = .ok p d) (hu : d.Countable p) : (d.output p).Running := by
  have hn258 := h.regs.2.2.1
  have hout : (d.output p).regs.u.toNat = 8 * (d.output p).snk.length := by
    change (d.regs.u + BitVec.ofNat 64 (8 * p.length)).toNat = 8 * (d.snk ++ p.toList).length
    rw [count_add_toNat hu, h.out, List.length_append, Phrase.toList, List.length_cons, ← Phrase.length, Nat.mul_add]
  have hpos : 0 < (d.output p).regs.u.toNat := by
    change 0 < (d.regs.u + BitVec.ofNat 64 (8 * p.length)).toNat
    rw [count_add_toNat hu, Phrase.length]
    omega
  cases hpend : d.pending with
  | false =>
    have htbl : (d.output p).tbl = d.tbl := by simp [Dec.output, hpend]
    have hnext : (d.output p).regs.next = d.regs.next := by simp [Dec.output, hpend]
    rcases ctResolve_known hx hp with hk | ⟨hpend', _⟩
    · refine ⟨h.st, htbl ▸ h.wf, ?_, by rw [htbl, hnext]; exact h.tbl, h.pos, hout, fun _ => ⟨hpos, by rw [htbl, hnext]; exact hk⟩⟩
      obtain ⟨hw9, hw16, hn, hnw, hc, hl⟩ := h.regs
      exact ⟨hw9, hw16, hnext ▸ hn, hnext ▸ hnw, hc, hl⟩
    · rw [hpend] at hpend'; cases hpend'
  | true =>
    obtain ⟨hv, hroom⟩ := hpok hpend
    have htbl : (d.output p).tbl = tblWrite d.tbl d.regs.next.toNat (d.prev.snoc p.first) := by simp [Dec.output, hpend]
    have hnext : (d.output p).regs.next.toNat = d.regs.next.toNat + 1 := by
      simpa [Dec.output, hpend] using next_add_toNat h.regs hroom
    refine ⟨h.st, ?_, ?_, ?_, h.pos, hout, fun _ => ⟨hpos, ?_⟩⟩
    · rw [htbl]; exact tblWrite_wf h.wf _ _
    · obtain ⟨hw9, hw16, hn, hnw, hc, hl⟩ := h.regs
      exact ⟨hw9, hw16, by omega, by rw [hnext]; exact hroom, hc, hl⟩
    · rw [htbl, hnext]; exact h.tbl.register h.wf hn258 (h.prev hv).2 _
    · rw [htbl, hnext]
      rcases ctResolve_known hx hp with hk | ⟨_, rfl⟩
      · exact hk.mono (by omega) fun j _ hj => by rw [tblRead_tblWrite h.wf, if_neg (by omega)]
      · exact .inr ⟨d.regs.next.toNat, hn258, by omega, by rw [tblRead_tblWrite h.wf, if_pos rfl]; rfl⟩

/-- A decoder that has stopped keeps its table in canonical form. -/
theorem Dec.Stopped.wf {d t : Dec} (h : d.Stopped t) (hwf : Cells.Wf tblDefault d.tbl) : Cells.Wf tblDefault t.tbl := by
  obtain ⟨x, f, rfl, -, hx⟩ := h
  rw [Dec.raise_tbl, hx]; exact hwf

/-- What a step of DEC leaves: a table in canonical form, PENDING only in FAULT, and a stream that runs or has ended. -/
def Dec.Left (t : Dec) : Prop :=
  Cells.Wf tblDefault t.tbl ∧ (t.pending = true → t.regs.st = .fault) ∧ (t.regs.st = .active → t.Running)

theorem Dec.Stopped.left {d t : Dec} (h : d.Stopped t) (hwf : Cells.Wf tblDefault d.tbl) : t.Left := by
  have hs := h.st
  exact ⟨h.wf hwf, fun _ => hs, fun hs' => by rw [hs] at hs'; cases hs'⟩

/-- A stream that has ended (R212). -/
theorem Dec.ended_left {d : Dec} (hwf : Cells.Wf tblDefault d.tbl) : d.ended.Left :=
  ⟨hwf, fun h => absurd h Bool.false_ne_true, fun h => absurd (show UnitState.done = .active from h) (by decide)⟩

/-- A stream that runs on, with nothing pending. -/
theorem Dec.Running.left {d : Dec} (h : d.Running) (hp : d.pending = false) : d.Left :=
  ⟨h.wf, fun hp' => absurd (hp.symm.trans hp') Bool.false_ne_true, fun _ => h⟩

/-- The codeword of DEC.STEP keeps a running DEC in order and never gets stuck: W has its format, and every slot that it reads is
filled (R82, R214). -/
theorem Dec.Running.codeword {d : Dec} (h : d.Running) (hp : d.PendingOk) : d.codeword.EndsIn Dec.Left False := by
  rcases d.codeword_cases with ⟨hw, e⟩ | ⟨t, ht, e⟩ | ⟨_, _, hl, hc, e⟩ <;> rw [e]
  · exact hw ⟨h.regs.1, h.regs.2.1⟩
  · exact ht.left h.wf
  · have ht := h.taken hl hc
    rcases codeEffect_cases (bitsToNat (d.rem.take d.regs.w.toNat)) (d.taken d.regs.w.toNat) with
      ⟨_, e⟩ | ⟨hx, p, hr, hu, e⟩ | ⟨t, hs, e⟩ | ⟨h1, h2, hnone, e⟩ <;> rw [e]
    · exact Dec.ended_left h.wf
    · exact (ht.output hp hx hr hu).left rfl
    · exact hs.left h.wf
    · obtain ⟨_, _, hsome, _⟩ := ht.tbl.read h1 h2
      rw [hnone] at hsome
      cases hsome

/-- DEC.STEP keeps a running DEC in order and never gets stuck. -/
theorem Dec.Running.step {d : Dec} (h : d.Running) : d.step.EndsIn Dec.Left False := by
  obtain ⟨hr, hp⟩ := h.head
  rcases Dec.step_cases h.st with ⟨_, e⟩ | ⟨_, t, ht, e⟩ | ⟨_, hl, hc, ⟨_, e⟩ | ⟨_, e⟩⟩ <;> rw [e]
  · exact hr.codeword hp
  · exact ht.left hr.wf
  · exact Dec.ended_left hr.wf
  · obtain ⟨hr', hp'⟩ := hr.restarted (decHead_rem d ▸ hl) hc
    exact hr'.codeword hp'

/-- DEC.STEP keeps the invariant of DEC. -/
theorem Dec.step_inv {d : Dec} (h : d.Inv) (hs : d.regs.st = .active) : d.step.EndsIn Dec.Inv False :=
  ((h.running hs).step.and (Dec.step_follows hs)).mono fun _ ⟨⟨hwf, hp, hrun⟩, hf⟩ => Dec.inv_of hwf (hf.2 h.2.1) hp hrun

/-- A decoder that has stopped meets the invariant. -/
theorem Dec.Inv.stopped {d t : Dec} (h : d.Inv) (ht : d.Stopped t) : t.Inv := by
  obtain ⟨hwf, hp, hrun⟩ := ht.left h.1
  exact Dec.inv_of hwf (ht.follows.2 h.2.1) hp hrun

/-- Everything DEC.START can do after its state test: raise, or begin the stream of a mode, two bits taken (R206). -/
theorem Dec.start_cases (d : Dec) :
    (∃ t, (decReady d).Stopped t ∧ d.start = .raised t) ∨
      ∃ m, 2 ≤ (decReady d).rem.length ∧ Mode.ofBits (BitVec.ofNat 2 (bitsToNat ((decReady d).rem.take 2))) = some m ∧
        d.start = .ok () (((decReady d).taken 2).started m) := by
  unfold Dec.start
  rcases symRead_ends (w := 2) (by omega) (by omega) (decReady d) with ⟨t, ht, e⟩ | ⟨hl, _, e⟩ <;> rw [e]
  · exact .inl ⟨t, ht, rfl⟩
  · rw [Run.bind_ok, headerEffect]
    cases hm : Mode.ofBits (BitVec.ofNat 2 (bitsToNat ((decReady d).rem.take 2))) with
    | none => exact .inl ⟨_, ⟨(decReady d).taken 2, _, rfl, ⟨rfl, rfl, rfl⟩, rfl⟩, rfl⟩
    | some m => exact .inr ⟨m, hl, rfl, rfl⟩

/-- A started DEC runs (R206). -/
theorem Dec.started_running {d : Dec} (m : Mode) (hl : 2 ≤ (decReady d).rem.length) : (((decReady d).taken 2).started m).Running where
  st := rfl
  wf := Cells.nil_wf _
  regs := Regs.activeInv_of_restarted rfl rfl (le_of_eq rfl) (fun h => by cases h)
  tbl := tblInv_nil
  pos := by
    have : (decReady d).rem.length = 8 * d.src.length := bytesToBits_length d.src
    change 2 + ((decReady d).rem.drop 2).length = 8 * d.src.length
    rw [List.length_drop]
    omega
  out := rfl
  prev := fun h => by cases h

/-- Any command keeps the invariant of DEC, and none gets stuck. -/
theorem decOp_inv {d : Dec} (h : d.Inv) (i : Instr) : (decOp i d).EndsIn Dec.Inv False := by
  have raised (f : FaultCause) : (d.raise f).Inv := h.stopped ⟨d, f, rfl, ⟨rfl, rfl, rfl⟩, rfl⟩
  have ⟨hwf, hf, hp, _⟩ := h
  have notPending (hs : d.regs.st = .idle) : d.pending = false := by
    by_contra hp'
    rw [Bool.not_eq_false] at hp'
    rcases hp hp' with h | ⟨h, _⟩ <;> rw [hs] at h <;> cases h
  have unpacker {t : Dec} (hs : d.regs.st = .idle) (hr : t.regs = d.regs) (ht : t.tbl = d.tbl) (hp : t.pending = d.pending) : t.Inv :=
    Dec.inv_of (ht ▸ hwf) (hr ▸ hf) (fun h => by rw [hp, notPending hs] at h; cases h)
      (fun h => by rw [hr, hs] at h; cases h)
  rcases decOp_cases i d with e | ⟨hs, e | e⟩ | ⟨hs, e | e | ⟨w, e⟩ | e⟩ <;> rw [e]
  · exact raised _
  · exact Dec.step_inv h hs
  · exact Dec.loop_endsIn (fun _ => Dec.step_inv) _ h
  · rcases Dec.start_cases d with ⟨t, ht, e⟩ | ⟨m, hl, _, e⟩ <;> rw [e]
    · obtain ⟨hwf', hp', hrun⟩ := ht.left hwf
      exact Dec.inv_of hwf' (ht.follows.2 hf) hp' hrun
    · have hp' : d.pending ≠ true := by rw [notPending hs]; decide
      refine Dec.inv_of (Cells.nil_wf _) ⟨⟨fun _ => by simp [Dec.started], fun _ => hf.1.2 (by simp [hs])⟩, hf.2⟩
        (fun h => absurd h hp') (fun _ => Dec.started_running m hl)
  · exact unpacker hs rfl rfl rfl
  · rcases bcRead_cases w d with ⟨_, e⟩ | ⟨_, _, _, e⟩ | ⟨_, _, _, e⟩ <;> rw [e]
    · exact raised _
    · exact raised _
    · exact unpacker hs rfl rfl rfl
  · exact unpacker hs rfl rfl rfl

/-! ### The machine -/

/-- The invariants say nothing of RSP. -/
theorem Enc.Inv.answered {e : Enc} (h : e.Inv) : e.answered.Inv := h

theorem Dec.Inv.answered {d : Dec} (h : d.Inv) : d.answered.Inv := h

/-- A step from a state that meets the invariant leads to one that does, unless the host replaces the source of a running unit. -/
theorem step_inv {s : State} (h : s.Inv) :
    (∃ t, step s = .next t ∧ t.Inv) ∨
      ∃ bytes rest, (s.port = .setSource .enc bytes :: rest ∧ s.enc.regs.st = .active ∨
        s.port = .setSource .dec bytes :: rest ∧ s.dec.regs.st = .active) ∧ step s = .fault .hostTouchedSource := by
  obtain ⟨he, hd⟩ := h
  have reset : State.reset.Inv := resetMeetsTheInvariant
  rcases step_unit_cases s with
    ⟨_, e⟩ | ⟨cmd, rest, _, e⟩ | ⟨cmd, rest, _, e⟩ | ⟨u, rest, _, e⟩ | ⟨u, bytes, rest, hp, e⟩ <;> rw [e]
  · exact .inl ⟨s, rfl, he, hd⟩
  · obtain ⟨x, hx, e⟩ := (encOp_inv he.answered (decodeCommand cmd)).next (s.accept .enc rest).withEnc
    exact .inl ⟨_, e, hx, hd⟩
  · obtain ⟨x, hx, e⟩ := (decOp_inv hd.answered (decodeCommand cmd)).next (s.accept .dec rest).withDec
    exact .inl ⟨_, e, he, hx⟩
  · cases u
    · exact .inl ⟨_, rfl, reset.1, hd⟩
    · refine .inl ⟨_, rfl, he, ?_⟩
      exact ⟨reset.2.1, reset.2.2.1, reset.2.2.2.1, fun hs => by cases hs⟩
  · cases u <;> simp only [hostSetSource] <;> split
    · next hs => exact .inr ⟨bytes, rest, .inl ⟨hp, hs⟩, rfl⟩
    · exact .inl ⟨_, rfl, he, hd⟩
    · next hs => exact .inr ⟨bytes, rest, .inr ⟨hp, hs⟩, rfl⟩
    · next hs =>
      refine .inl ⟨_, rfl, he, ?_⟩
      exact ⟨hd.1, hd.2.1, hd.2.2.1, fun hs' => absurd hs' hs⟩

/-- Settles O56: each unit's commands keep its invariant, and a hardware reset restores it. -/
theorem stepKeepsTheInvariant : Obligations.StepKeepsTheInvariant := by
  intro s t h hstep
  rcases step_inv h with ⟨t', e, ht⟩ | ⟨_, _, _, e⟩ <;> rw [e] at hstep <;> cases hstep
  exact ht

/-- Settles O57: in the invariant no operation of a unit gets stuck. -/
theorem noStepStopsInTheInvariant : Obligations.NoStepStopsInTheInvariant := by
  intro s h henc hdec
  rcases step_inv h with ⟨t, e, _⟩ | ⟨bytes, rest, ⟨hp, hs⟩ | ⟨hp, hs⟩, _⟩
  · exact ⟨t, e⟩
  · exact absurd hs (henc bytes rest hp)
  · exact absurd hs (hdec bytes rest hp)

end Sys2Proof.Machine
end

section
/-! PROOF. Contents that the spec leaves unspecified change nothing else: two units that agree on the rest end every operation alike
(10_state.md R42; 70_reset_and_hazards.md R255; 93_implementation_defined.md I10). -/

namespace Sys2Proof.Machine

/-- A sequence of operations that end alike ends alike; the second may use what the first answered. -/
theorem Run.Alike.bind_of_ok {σ α β : Type} {R S : σ → σ → Prop} {r r' : Run σ α} {k k' : α → σ → Run σ β} (h : r.Alike R r')
    (hraise : ∀ s s', R s s' → S s s') (hk : ∀ a s s', r = .ok a s → R s s' → (k a s).Alike S (k' a s')) :
    (r.bind k).Alike S (r'.bind k') := by
  cases r <;> cases r' <;> simp only [Run.Alike] at h
  case ok.ok a s a' s' => obtain ⟨rfl, h⟩ := h; exact hk a s s' rfl h
  case raised.raised s s' => exact hraise s s' h
  case stuck.stuck f f' => exact h

/-- A state test that two units answer alike opens operations that end alike. -/
theorem Dec.require_alike {R : Dec → Dec → Prop} {a b : Dec} {want : UnitState} {op op' : Dec → Run Dec Unit}
    (hst : a.regs.st = b.regs.st) (hraise : R (a.raise .protocolError) (b.raise .protocolError))
    (h : a.regs.st = want → (op a).Alike R (op' b)) : (Dec.require want op a).Alike R (Dec.require want op' b) := by
  by_cases hs : a.regs.st = want
  · rw [Dec.require_of_eq hs, Dec.require_of_eq (hst ▸ hs)]; exact h hs
  · rw [Dec.require_of_ne hs, Dec.require_of_ne (hst ▸ hs)]; exact hraise

/-! ### Tables that agree -/

/-- Equal tables, or tables that agree on all slots but the open ones. -/
def TblLike (t t' : Cells Phrase) : Prop := t = t' ∨ TblAgree t t'

theorem TblLike.read {t t' : Cells Phrase} (h : TblLike t t') {i : Nat} (h1 : i ≠ 256) (h2 : i ≠ 257) (h3 : i ≠ 65536) :
    tblRead t i = tblRead t' i := by
  rcases h with rfl | ⟨_, _, h⟩
  · rfl
  · exact h i h1 h2 h3

theorem TblLike.write {t t' : Cells Phrase} (h : TblLike t t') (i : Nat) (p : Phrase) :
    TblLike (tblWrite t i p) (tblWrite t' i p) := by
  rcases h with rfl | ⟨hwf, hwf', h⟩
  · exact .inl rfl
  · refine .inr ⟨tblWrite_wf hwf i p, tblWrite_wf hwf' i p, fun j h1 h2 h3 => ?_⟩
    rw [tblRead_tblWrite hwf, tblRead_tblWrite hwf', h j h1 h2 h3]

/-! ### Decoders that agree -/

/-- A decoder with another table, PREV and PENDING. -/
def Dec.over (t : Cells Phrase) (p : Phrase) (q : Bool) (d : Dec) : Dec := { d with tbl := t, prev := p, pending := q }

theorem Dec.agree_iff {a b : Dec} :
    a.Agree b ↔ ∃ t p q, b = a.over t p q ∧ (a.regs.st = .active → TblLike a.tbl t ∧ (a.prevValid = true → a.prev = p)) := by
  constructor
  · rintro ⟨h, hrun⟩
    refine ⟨b.tbl, b.prev, b.pending, ?_, hrun⟩
    cases a; cases b
    simp only [Dec.mk.injEq] at h
    obtain ⟨rfl, -, -, rfl, -, rfl, rfl, rfl, rfl⟩ := h
    rfl
  · rintro ⟨t, p, q, rfl, hrun⟩
    exact ⟨rfl, hrun⟩

/-- Two decoders inside a step: they agree on PENDING too, and on PREV where it is valid or a registration is pending. -/
def Dec.Like (a b : Dec) : Prop :=
  ∃ t p, b = a.over t p a.pending ∧ TblLike a.tbl t ∧ (a.prevValid = true ∨ a.pending = true → a.prev = p)

theorem Dec.Like.agree {a b : Dec} (h : a.Like b) : a.Agree b := by
  obtain ⟨t, p, rfl, ht, hp⟩ := h
  exact Dec.agree_iff.2 ⟨t, p, a.pending, rfl, fun _ => ⟨ht, fun hv => hp (.inl hv)⟩⟩

theorem Dec.Like.raise {a b : Dec} (h : a.Like b) (f : FaultCause) : (a.raise f).Like (b.raise f) := by
  obtain ⟨t, p, rfl, ht, hp⟩ := h
  exact ⟨t, p, rfl, ht, hp⟩

theorem Dec.Agree.raise {a b : Dec} (h : a.Agree b) (f : FaultCause) : (a.raise f).Agree (b.raise f) := by
  obtain ⟨t, p, q, rfl, _⟩ := Dec.agree_iff.1 h
  exact Dec.agree_iff.2 ⟨t, p, q, rfl, fun hs => by simp at hs⟩

@[simp] theorem Dec.over_rem (t : Cells Phrase) (p : Phrase) (q : Bool) (d : Dec) : (d.over t p q).rem = d.rem := rfl
@[simp] theorem Dec.over_regs (t : Cells Phrase) (p : Phrase) (q : Bool) (d : Dec) : (d.over t p q).regs = d.regs := rfl

/-- BC.READ does not look at the table, PREV or PENDING. -/
theorem bcRead_over (w : Nat) (t : Cells Phrase) (p : Phrase) (q : Bool) (d : Dec) :
    bcRead w (d.over t p q) = (bcRead w d).lift (Dec.over t p q) := by
  unfold bcRead
  rw [Dec.over_rem]
  split
  · rfl
  · split <;> rfl

/-- The bits of a symbol are read without a look at the table, PREV or PENDING. -/
theorem symRead_over (w : Nat) (t : Cells Phrase) (p : Phrase) (q : Bool) (d : Dec) :
    symRead w (d.over t p q) = (symRead w d).lift (Dec.over t p q) := by
  rw [symRead, symRead, bcRead_over]
  cases bcRead w d with
  | ok x d =>
    simp only [Run.lift_ok, Run.bind_ok, Dec.countC, Dec.over_regs]
    cases d.regs.countC w <;> rfl
  | raised d => rfl
  | stuck f => rfl

/-- Decoders alike inside a step take the bits of a symbol alike. -/
theorem Dec.Like.symRead {a b : Dec} (h : a.Like b) {w : Nat} (h1 : 1 ≤ w) (h2 : w ≤ 32) :
    (symRead w a).Alike Dec.Like (symRead w b) := by
  obtain ⟨t, p, rfl, ht, hp⟩ := h
  rw [symRead_over]
  rcases symRead_cases h1 h2 a with ⟨_, e⟩ | ⟨_, _, e⟩ | ⟨_, _, e⟩ <;> rw [e]
  · exact ⟨t, p, rfl, ht, hp⟩
  · exact ⟨t, p, rfl, ht, hp⟩
  · exact ⟨rfl, t, p, rfl, ht, hp⟩

theorem Dec.Like.ended {a b : Dec} (h : a.Like b) : a.ended.Like b.ended := by
  obtain ⟨t, p, rfl, ht, hp⟩ := h
  exact ⟨t, p, rfl, ht, fun hv => hp (hv.imp_right (fun h => by cases h))⟩

/-- Decoders alike put out a phrase alike: a pending entry is written from the same PREV into the same slot (R150). -/
theorem Dec.Like.symTail {a b : Dec} (h : a.Like b) (s : Phrase) : (symTail s a).Alike Dec.Like (symTail s b) := by
  obtain ⟨t, p, rfl, ht, hp⟩ := h
  rcases symTail_cases s a with ⟨hu, e⟩ | ⟨hu, e⟩ <;> rcases symTail_cases s (a.over t p a.pending) with ⟨hu', e'⟩ | ⟨hu', e'⟩
  · rw [e, e']
    refine ⟨rfl, (Dec.output s (a.over t p a.pending)).tbl, s, rfl, ?_, fun _ => rfl⟩
    cases hpend : a.pending with
    | false => simpa [Dec.output, Dec.over, hpend] using ht
    | true =>
      have := ht.write a.regs.next.toNat (a.prev.snoc s.first)
      simpa [Dec.output, Dec.over, hpend, hp (.inr hpend)] using this
  · exact absurd hu (Nat.not_lt.2 hu')
  · exact absurd hu' (Nat.not_lt.2 hu)
  · rw [e, e']
    exact ⟨t, p, rfl, ht, hp⟩

/-- Decoders alike act alike on a codeword of at most 16 bits: it names no open slot (R146, R149). -/
theorem Dec.Like.codeEffect {a b : Dec} (h : a.Like b) {x : Nat} (hx : x < 65536) :
    (codeEffect x a).Alike Dec.Like (codeEffect x b) := by
  unfold Machine.codeEffect
  split
  · exact ⟨rfl, h.ended⟩
  · next h256 =>
    refine Run.Alike.bind ?_ fun s _ _ h' => h'.symTail s
    have hraise := h.raise .invalidCodeword
    have hsame := h
    obtain ⟨t, p, rfl, ht, hp⟩ := h
    have hn : (a.over t p a.pending).regs.next = a.regs.next := rfl
    have hq : (a.over t p a.pending).pending = a.pending := rfl
    unfold ctResolve
    rw [hn, hq]
    split
    · exact ⟨rfl, hsame⟩
    · split
      · exact hraise
      · next hlit h257 =>
        split
        · have hread : tblRead (a.over t p a.pending).tbl x = tblRead a.tbl x := (ht.read h256 h257 (by omega)).symm
          rw [hread]
          split
          · exact ⟨rfl, hsame⟩
          · exact rfl
        · split
          · next hk =>
            refine ⟨?_, hsame⟩
            rw [kwkwkPhrase, kwkwkPhrase, hp (.inr hk.2)]
            rfl
          · exact hraise

/-- Decoders alike meet a codeword alike (R210). -/
theorem Dec.Like.codeword {a b : Dec} (h : a.Like b) : a.codeword.Alike Dec.Like b.codeword := by
  have hw : b.regs.w = a.regs.w := by obtain ⟨t, p, rfl, _⟩ := h; rfl
  unfold Dec.codeword
  rw [hw]
  split
  · next hw =>
    refine (h.symRead (by omega) (by omega)).bind_of_ok (fun _ _ => id) fun x s s' hr hs => hs.codeEffect ?_
    rcases symRead_ends (w := a.regs.w.toNat) (by omega) (by omega) a with ⟨t, _, e⟩ | ⟨hl, _, e⟩ <;> rw [e] at hr <;> cases hr
    calc bitsToNat (a.rem.take a.regs.w.toNat) < 2 ^ a.regs.w.toNat := bitsToNat_take_lt hl
      _ ≤ 2 ^ 16 := Nat.pow_le_pow_right (by omega) hw.2
  · exact rfl

/-- Decoders alike meet a marker slot alike (R174). -/
theorem Dec.Like.marker {a b : Dec} (h : a.Like b) : a.marker.Alike Dec.Like b.marker := by
  refine Run.Alike.bind (h.symRead (by omega) (by omega)) fun x s s' hs => ⟨rfl, ?_⟩
  unfold markerEffect
  split
  · exact hs.ended
  · obtain ⟨t, p, rfl, ht, hp⟩ := hs
    exact ⟨[], p, rfl, .inl rfl, fun hv => by rcases hv with hv | hv <;> cases hv⟩

/-- After the head of DEC.STEP, which writes PENDING, started decoders that agree are alike, and `ADVANCE` has answered alike (R210). -/
theorem Dec.Agree.head {a b : Dec} (h : a.Agree b) (hs : a.regs.st = .active) :
    (decHead b).1 = (decHead a).1 ∧ (decHead a).2.Like (decHead b).2 := by
  obtain ⟨t, p, q, rfl, hrun⟩ := Dec.agree_iff.1 h
  obtain ⟨ht, hp⟩ := hrun hs
  rcases decHead_cases a with ⟨hv, e⟩ | ⟨hv, e⟩ <;> rcases decHead_cases (a.over t p q) with ⟨hv', e'⟩ | ⟨hv', e'⟩
  · rw [e, e']
    exact ⟨rfl, t, p, rfl, ht, fun h => by rcases h with h | h <;> simp_all⟩
  · exact absurd hv' (by simp [Dec.over, hv])
  · exact absurd hv' (by simp [Dec.over, hv])
  · rw [e, e']
    exact ⟨rfl, t, p, rfl, ht, fun _ => hp hv⟩

/-- Started decoders that agree do DEC.STEP alike. -/
theorem Dec.Agree.step {a b : Dec} (h : a.Agree b) (hs : a.regs.st = .active) : a.step.Alike Dec.Agree b.step := by
  obtain ⟨hact, hlike⟩ := h.head hs
  unfold Dec.step
  generalize decHead a = ha at hact hlike ⊢
  generalize decHead b = hb at hact hlike ⊢
  obtain ⟨act, x⟩ := ha
  obtain ⟨act', y⟩ := hb
  cases hact
  have codeword {x y : Dec} (h : x.Like y) : x.codeword.Alike Dec.Agree y.codeword := h.codeword.mono fun _ _ => Dec.Like.agree
  cases act
  · exact codeword hlike
  · exact codeword hlike
  · refine hlike.marker.bind_of_ok (fun _ _ => Dec.Like.agree) fun _ s s' _ hss => ?_
    have hst : s'.regs.st = s.regs.st := by obtain ⟨t, p, rfl, _⟩ := hss; rfl
    rw [hst]
    split
    · exact codeword hss
    · exact ⟨rfl, hss.agree⟩

theorem Dec.Agree.st {a b : Dec} (h : a.Agree b) : b.regs.st = a.regs.st := by
  obtain ⟨t, p, q, rfl, _⟩ := Dec.agree_iff.1 h; rfl

/-- Decoders that agree do DEC.RUN's loop alike. -/
theorem Dec.Agree.loop (n : Nat) {a b : Dec} (h : a.Agree b) : (Dec.loop n a).Alike Dec.Agree (Dec.loop n b) := by
  induction n generalizing a b with
  | zero => exact ⟨rfl, h⟩
  | succ n ih =>
    unfold Dec.loop
    rw [h.st]
    split
    · next hs => exact (h.step hs).bind fun _ _ _ => ih
    · exact ⟨rfl, h⟩

/-- Decoders that agree do DEC.START alike: the table is seeded and PREV is not valid (R206). -/
theorem Dec.Agree.start {a b : Dec} (h : a.Agree b) (hs : a.regs.st = .idle) : a.start.Alike Dec.Agree b.start := by
  obtain ⟨t, p, q, rfl, _⟩ := Dec.agree_iff.1 h
  unfold Dec.start
  have hready : decReady (a.over t p q) = (decReady a).over t p q := rfl
  rw [hready, symRead_over]
  have idle {x : Dec} (hx : x.regs.st = .idle) : x.Agree (x.over t p q) :=
    Dec.agree_iff.2 ⟨t, p, q, rfl, fun h => by rw [hx] at h; cases h⟩
  have hst : (decReady a).regs.st = .idle := hs
  rcases symRead_cases (w := 2) (by omega) (by omega) (decReady a) with ⟨_, e⟩ | ⟨_, _, e⟩ | ⟨_, _, e⟩ <;> rw [e]
  · exact (idle hst).raise .endOfStream
  · exact (idle (x := { decReady a with rem := (decReady a).rem.drop 2 }) hst).raise .counterOverflow
  · simp only [Run.lift_ok, Run.bind_ok, headerEffect]
    split
    · exact ⟨rfl, Dec.agree_iff.2 ⟨[], p, q, rfl, fun _ => ⟨.inl rfl, fun hv => by cases hv⟩⟩⟩
    · exact (idle (x := (decReady a).taken 2) hst).raise .invalidMode

/-- Decoders that agree do BC.READ alike. -/
theorem Dec.Agree.read {a b : Dec} (h : a.Agree b) (w : Nat) : (bcRead w a).Alike Dec.Agree (bcRead w b) := by
  have hraise := fun f => h.raise f
  obtain ⟨t, p, q, rfl, hrun⟩ := Dec.agree_iff.1 h
  rw [bcRead_over]
  rcases bcRead_cases w a with ⟨_, e⟩ | ⟨_, _, _, e⟩ | ⟨_, _, _, e⟩ <;> rw [e]
  · exact hraise .invalidWidth
  · exact hraise .endOfStream
  · exact ⟨rfl, Dec.agree_iff.2 ⟨t, p, q, rfl, hrun⟩⟩

/-- Decoders that agree do any command alike. -/
theorem Dec.Agree.decOp {a b : Dec} (h : a.Agree b) (i : Instr) : (decOp i a).Alike Dec.Agree (decOp i b) := by
  have hraise := h.raise .protocolError
  have hst := h.st.symm
  cases i
  case decStart => exact Dec.require_alike hst hraise h.start
  case decStep => exact Dec.require_alike hst hraise h.step
  case decRun =>
    have hrem : b.rem = a.rem := by obtain ⟨t, p, q, rfl, _⟩ := Dec.agree_iff.1 h; rfl
    exact Dec.require_alike hst hraise fun _ => by rw [hrem]; exact h.loop _
  case bcRinit =>
    refine Dec.require_alike (op := fun d => .ok () (bcRinit d)) (op' := fun d => .ok () (bcRinit d)) hst hraise fun _ => ?_
    obtain ⟨t, p, q, rfl, hrun⟩ := Dec.agree_iff.1 h
    exact ⟨rfl, Dec.agree_iff.2 ⟨t, p, q, rfl, hrun⟩⟩
  case bcIsempty =>
    refine Dec.require_alike (op := fun d => .ok () { d with rsp := some (if bcIsempty d then 1 else 0) })
      (op' := fun d => .ok () { d with rsp := some (if bcIsempty d then 1 else 0) }) hst hraise fun _ => ?_
    obtain ⟨t, p, q, rfl, hrun⟩ := Dec.agree_iff.1 h
    exact ⟨rfl, Dec.agree_iff.2 ⟨t, p, q, rfl, hrun⟩⟩
  case bcRead w =>
    refine Dec.require_alike
      (op := fun d => (bcRead w.toNat d).bind fun v d => .ok () { d with rsp := some (BitVec.ofNat 32 v) })
      (op' := fun d => (bcRead w.toNat d).bind fun v d => .ok () { d with rsp := some (BitVec.ofNat 32 v) }) hst hraise fun _ => ?_
    refine Run.Alike.bind (R := Dec.Agree) (h.read w.toNat) fun v x y hxy => ⟨rfl, ?_⟩
    obtain ⟨t, p, q, rfl, hrun⟩ := Dec.agree_iff.1 hxy
    exact Dec.agree_iff.2 ⟨t, p, q, rfl, hrun⟩
  all_goals exact hraise

/-! ### Encoders that agree -/

theorem Enc.agree_iff {a b : Enc} : a.Agree b ↔ ∃ t, b = { a with trie := t } ∧ (a.regs.st = .active → a.trie = t) := by
  constructor
  · rintro ⟨h, hrun⟩
    refine ⟨b.trie, ?_, hrun⟩
    cases a; cases b
    simp only [Enc.mk.injEq] at h
    obtain ⟨rfl, -, rfl, rfl, rfl, rfl⟩ := h
    rfl
  · rintro ⟨t, rfl, hrun⟩
    exact ⟨rfl, hrun⟩

theorem Enc.Agree.refl (e : Enc) : e.Agree e := ⟨rfl, fun _ => rfl⟩

/-- Encoders with different tries write bits alike. -/
theorem putBits_trieOver (t : Cells Code) (e : Enc) (bits : List Bool) :
    putBits { e with trie := t } bits = { putBits e bits with trie := t } := by
  induction bits generalizing e with
  | nil => rfl
  | cons b bs ih =>
    have : putBit { e with trie := t } b = { putBit e b with trie := t } := by unfold putBit; split <;> rfl
    exact (congrArg (fun e => putBits e bs) this).trans (ih _)

theorem Enc.require_alike {R : Enc → Enc → Prop} {a b : Enc} {want : UnitState} {op op' : Enc → Run Enc Unit}
    (hst : a.regs.st = b.regs.st) (hraise : R (a.raise .protocolError) (b.raise .protocolError))
    (h : a.regs.st = want → (op a).Alike R (op' b)) : (Enc.require want op a).Alike R (Enc.require want op' b) := by
  by_cases hs : a.regs.st = want
  · rw [Enc.require_of_eq hs, Enc.require_of_eq (hst ▸ hs)]; exact h hs
  · rw [Enc.require_of_ne hs, Enc.require_of_ne (hst ▸ hs)]; exact hraise

/-- Encoders that agree do any command alike: started ones are equal, and in no other state does a command read the trie. -/
theorem Enc.Agree.encOp {a b : Enc} (h : a.Agree b) (i : Instr) : (encOp i a).Alike Enc.Agree (encOp i b) := by
  obtain ⟨t, rfl, hrun⟩ := Enc.agree_iff.1 h
  by_cases hs : a.regs.st = .active
  · rw [← hrun hs]
    exact .refl Enc.Agree.refl _
  · have agree {x : Enc} (hx : x.regs.st ≠ .active) : x.Agree { x with trie := t } :=
      Enc.agree_iff.2 ⟨t, rfl, fun h => absurd h hx⟩
    have raised (f : FaultCause) : (a.raise f).Agree (Enc.raise f { a with trie := t }) := agree (x := a.raise f) (by simp)
    have require (want : UnitState) (op : Enc → Run Enc Unit) (h : a.regs.st = want → (op a).Alike Enc.Agree (op { a with trie := t })) :
        (Enc.require want op a).Alike Enc.Agree (Enc.require want op { a with trie := t }) :=
      Enc.require_alike rfl (raised .protocolError) h
    cases i
    case encStep => exact require .active (fun e => if e.src = [] then encFinish e else encSymbol e) fun h => absurd h hs
    case encRun => exact require .active encRun fun h => absurd h hs
    case encStart m =>
      refine require .idle (encStart m) fun _ => ?_
      cases hm : Mode.ofBits m with
      | none => simp only [encStart, hm]; exact raised .invalidMode
      | some m' =>
        rw [Mode.ofBits_eq_some hm, encStart_bits, encStart_bits]
        exact ⟨rfl, .refl _⟩
    case bcWinit => exact require .idle (fun e => .ok () (bcWinit e)) fun _ => ⟨rfl, agree (x := bcWinit a) hs⟩
    case bcWrite v w =>
      refine require .idle (bcWrite v.toNat w.toNat) fun _ => ?_
      rcases bcWrite_cases v.toNat w.toNat a with ⟨h, e⟩ | ⟨h1, h2, h, e⟩ | ⟨h1, h2, hv, e⟩
      · rw [e, bcWrite, if_pos h]; exact raised .invalidWidth
      · rw [e, bcWrite, if_neg (by simp only [Config.bcMinW, Config.bcMaxW]; omega), if_pos h]; exact raised .valueOutOfRange
      · rw [e, bcWrite_of_fits h1 h2 hv, putBits_trieOver t a]
        exact ⟨rfl, agree (x := putBits a (natBits w.toNat v.toNat)) (by rwa [putBits_regs])⟩
    case bcFlush =>
      refine require .idle (fun e => .ok () (bcFlush e)) fun _ => ⟨rfl, ?_⟩
      have : bcFlush { a with trie := t } = { bcFlush a with trie := t } := by unfold bcFlush; split <;> rfl
      rw [this]
      exact agree (x := bcFlush a) (by rwa [bcFlush_regs])
    all_goals exact raised .protocolError

/-! ### Machines that agree -/

/-- Operations that end alike give next states that agree, or the same fault. -/
theorem Run.Alike.outcome {σ α : Type} {R : σ → σ → Prop} {r r' : Run σ α} (h : r.Alike R r') {put put' : σ → State}
    (hput : ∀ s s', R s s' → (put s).Agree (put' s')) :
    (∃ t t', r.outcome put = .next t ∧ r'.outcome put' = .next t' ∧ t.Agree t') ∨
      ∃ f, r.outcome put = .fault f ∧ r'.outcome put' = .fault f := by
  cases r <;> cases r' <;> simp only [Run.Alike] at h
  case ok.ok a s a' s' => exact .inl ⟨_, _, rfl, rfl, hput _ _ h.2⟩
  case raised.raised s s' => exact .inl ⟨_, _, rfl, rfl, hput _ _ h⟩
  case stuck.stuck f f' => subst h; exact .inr ⟨f, rfl, rfl⟩

/-- Settles O58: the host's action is the same on both sides, and each action ends alike on units that agree. -/
theorem unspecifiedContentsNeverMatter : Obligations.UnspecifiedContentsNeverMatter := by
  intro a b ⟨henc, hdec, hport, htarget⟩
  have hea : a.enc.answered.Agree b.enc.answered := by
    obtain ⟨t, hb, hrun⟩ := Enc.agree_iff.1 henc
    rw [hb]; exact Enc.agree_iff.2 ⟨t, rfl, hrun⟩
  have hda : a.dec.answered.Agree b.dec.answered := by
    obtain ⟨t, p, q, hb, hrun⟩ := Dec.agree_iff.1 hdec
    rw [hb]; exact Dec.agree_iff.2 ⟨t, p, q, rfl, hrun⟩
  have hst := hdec.st
  rw [step, step, ← hport]
  rcases a.port with - | ⟨x, rest⟩
  · exact .inl ⟨a, b, rfl, rfl, henc, hdec, hport, htarget⟩
  cases x with
  | command u cmd =>
    cases u
    · simp only [exec_of_enc (decodeCommand_slot cmd) (s := a.accept .enc rest) rfl,
        exec_of_enc (decodeCommand_slot cmd) (s := b.accept .enc rest) rfl]
      exact (hea.encOp _).outcome fun _ _ h => ⟨h, hdec, rfl, rfl⟩
    · simp only [exec_of_dec (decodeCommand_slot cmd) (s := a.accept .dec rest) rfl,
        exec_of_dec (decodeCommand_slot cmd) (s := b.accept .dec rest) rfl]
      exact (hda.decOp _).outcome fun _ _ h => ⟨henc, h, rfl, rfl⟩
  | hwReset u =>
    have hea' : a.enc.hwReset.Agree b.enc.hwReset := by
      obtain ⟨t, hb, -⟩ := Enc.agree_iff.1 henc
      rw [hb]; exact .refl _
    have hda' : a.dec.hwReset.Agree b.dec.hwReset := by
      obtain ⟨t, p, q, hb, -⟩ := Dec.agree_iff.1 hdec
      rw [hb]; exact ⟨rfl, fun hs => by cases hs⟩
    cases u
    · exact .inl ⟨_, _, rfl, rfl, hea', hdec, rfl, htarget⟩
    · exact .inl ⟨_, _, rfl, rfl, henc, hda', rfl, htarget⟩
  | setSource u bytes =>
    cases u
    · obtain ⟨t, hb, hrun⟩ := Enc.agree_iff.1 henc
      have hst : b.enc.regs.st = a.enc.regs.st := by rw [hb]
      simp only [hostSetSource, hst]
      split
      · exact .inr ⟨_, rfl, rfl⟩
      · refine .inl ⟨_, _, rfl, rfl, ?_, hdec, rfl, htarget⟩
        rw [hb]; exact Enc.agree_iff.2 ⟨t, rfl, hrun⟩
    · obtain ⟨t, p, q, hb, hrun⟩ := Dec.agree_iff.1 hdec
      simp only [hostSetSource, hst]
      split
      · exact .inr ⟨_, rfl, rfl⟩
      · refine .inl ⟨_, _, rfl, rfl, henc, ?_, rfl, htarget⟩
        rw [hb]; exact Dec.agree_iff.2 ⟨t, p, q, rfl, hrun⟩

end Sys2Proof.Machine
end

section
/-! PROOF. Parity of the units on a stream that an encoder made (10_state.md R41, R40; 20_memory.md R70; 44_encoder.md R190, R195;
45_decoder.md R210, R211; 43_width_policy.md R174). -/

namespace Sys2Proof.Machine

/-! ### The stream of an encoder's run -/

theorem Enc.written_emitted {e : Enc} (h : e.acc.length < 8) (c : Code) (l : Nat) :
    written (e.emitted c l) = written e ++ natBits e.regs.w.toNat c.toNat := (putBits_written h _).1

theorem Enc.written_marked {e : Enc} (h : e.acc.length < 8) :
    written e.marked = written e ++ natBits e.regs.w.toNat Config.codeRst := (putBits_written h _).1

/-- Whatever `ADVANCE`'s arm does to ENC, the bits written stay (R190). -/
theorem encAdvance_written {c : Code} {x : Byte} {e t : Enc} (h : e.acc.length < 8) (ht : encAdvance c x e = .ok () t) :
    written e <+: written t := by
  rcases encAdvance_cases c x e with ⟨_, e'⟩ | ⟨_, e'⟩ | ⟨_, ⟨_, _, e'⟩ | ⟨_, e'⟩⟩ <;> rw [e'] at ht <;> cases ht
  · have : written (pdInsert c x e.regs.next e) = written e := by
      rcases pdInsert_cases c x e.regs.next e with ⟨_, hi⟩ | ⟨_, hi⟩ <;> rw [hi]
      rfl
    exact this ▸ List.prefix_rfl
  · exact List.prefix_rfl
  · have hw := Enc.written_marked (e := e.withRegs (advance e.regs).2) h
    rw [hw]
    exact List.prefix_append _ _

/-- The encoder's run completes from here: some number of steps ends it in DONE. -/
def Enc.Completes (e e2 : Enc) : Prop := ∃ n, encLoop n e = .ok () e2 ∧ e2.regs.st = .done

/-- A unit that is not started makes no step in a run. -/
theorem encLoop_of_ne {e : Enc} (h : e.regs.st ≠ .active) (n : Nat) : encLoop n e = .ok () e := by
  cases n with
  | zero => rfl
  | succ n => rw [encLoop, if_neg h]

/-- A run that completes makes its next step, and completes from there. -/
theorem Enc.Completes.step {e e2 : Enc} (h : e.Completes e2) (hs : e.regs.st = .active) :
    ∃ t, encStep e = .ok () t ∧ t.Completes e2 := by
  obtain ⟨n, hn, hdone⟩ := h
  cases n with
  | zero => cases hn; rw [hs] at hdone; cases hdone
  | succ n =>
    rw [encLoop, if_pos hs] at hn
    obtain ⟨_, t, ht, hn⟩ := Run.bind_eq_ok.1 hn
    exact ⟨t, ht, n, hn, hdone⟩

/-- ENC.STEP with no input left, completed, has left the stream. -/
theorem encStep_of_nil {e t : Enc} (hs : e.regs.st = .active) (hsrc : e.src = []) (ht : encStep e = .ok () t) :
    t = (encEosWidth e).closed := by
  rw [encStep, Enc.require_of_eq hs, if_pos hsrc] at ht
  rcases encFinish_cases e with ⟨_, _, e'⟩ | e' <;> rw [e'] at ht <;> cases ht
  rfl

/-- With input left ENC.STEP is the match, its codeword and what follows (R190). -/
theorem encStep_of_cons {e : Enc} {b : Byte} {bs : List Byte} (hs : e.regs.st = .active) (hsrc : e.src = b :: bs) :
    encStep e = encSymbol e := by
  rw [encStep, Enc.require_of_eq hs, if_neg (by simp [hsrc])]

/-- ENC.STEP with input left, completed: the codeword of the longest match was emitted, then, when a byte follows, `ADVANCE` acted; the
bits of the codeword come first (R190). -/
theorem Enc.Running.step {e t : Enc} (h : e.Running) {b : Byte} {bs : List Byte} (hsrc : e.src = b :: bs)
    (ht : encStep e = .ok () t) :
    let m := lpmWalk e.trie (seedCode b) 1 bs
    t.Running ∧ m.1.toNat < 2 ^ e.regs.w.toNat ∧ e.regs.c.toNat + e.regs.w.toNat < 2 ^ 64 ∧
      e.regs.u.toNat + 8 * m.2 < 2 ^ 64 ∧ encEmit m.1 m.2 e = .ok () (e.emitted m.1 m.2) ∧
      written (e.emitted m.1 m.2) <+: written t ∧ ∃ t', t = srcTake m.2 t' ∧ ((e.src[m.2]? = none ∧ t' = e.emitted m.1 m.2) ∨
        ∃ x, e.src[m.2]? = some x ∧ encAdvance m.1 x (e.emitted m.1 m.2) = .ok () t') := by
  rw [encStep_of_cons h.st hsrc] at ht
  have hrun := h.symbol hsrc ht
  rcases encSymbol_cases hsrc with ⟨_, _, e'⟩ | ⟨hemit, _, hv, hc, hu, t', e', ht'⟩ <;> rw [e'] at ht <;> cases ht
  refine ⟨hrun, hv, hc, hu, hemit, ?_, t', rfl, ht'⟩
  rcases ht' with ⟨_, rfl⟩ | ⟨x, _, hadv⟩
  · exact List.prefix_rfl
  · have hpre := encAdvance_written (h.emitted _ _ hc).acc hadv
    exact hpre

/-- What a running ENC has written is the beginning of the stream that its run makes (R113, R195). -/
theorem Enc.Running.written_prefix {e e2 : Enc} (h : e.Running) (hcomp : e.Completes e2) :
    written e <+: bytesToBits e2.snk := by
  obtain ⟨n, hn, hdone⟩ := hcomp
  induction n generalizing e with
  | zero => cases hn; rw [h.st] at hdone; cases hdone
  | succ n ih =>
    rw [encLoop, if_pos h.st] at hn
    obtain ⟨_, t, ht, hn⟩ := Run.bind_eq_ok.1 hn
    cases hsrc : e.src with
    | nil =>
      have := encStep_of_nil h.st hsrc ht
      subst this
      rw [encLoop_of_ne (by simp [Enc.closed])] at hn
      cases hn
      obtain ⟨w, hw⟩ := encEosWidth_frame e
      have hacc : (encEosWidth e).acc.length < 8 := by rw [hw]; exact h.acc
      have hwe : written (encEosWidth e) = written e := by rw [hw]; rfl
      obtain ⟨hwr, hl⟩ := putBits_written hacc (natBits (encEosWidth e).regs.w.toNat Config.codeEos)
      change written e <+: bytesToBits (bcFlush (putBits (encEosWidth e) _)).snk
      rw [bcFlush_written hl, hwr, hwe, List.append_assoc]
      exact List.prefix_append _ _
    | cons b bs =>
      obtain ⟨hrun, _, hc, _, _, hpre, _⟩ := h.step hsrc ht
      refine List.IsPrefix.trans ?_ (ih hrun hn)
      refine List.IsPrefix.trans ?_ hpre
      rw [Enc.written_emitted h.acc]
      exact List.prefix_append _ _

/-! ### The registers of both units -/

/-- `ADVANCE` does not look at FAULT_CODE. -/
theorem advance_faultCode_irrelevant (r : Regs) (f : BitVec 4) :
    advance { r with faultCode := f } = ((advance r).1, { (advance r).2 with faultCode := f }) := by
  unfold advance
  split
  · rfl
  · split
    · rfl
    · obtain ⟨mode, w, next, u, c, u0, c0, latched, st, faultCode⟩ := r
      cases mode
      · rfl
      · rfl
      · cases latched <;> rfl

/-! ### Phrases -/

/-- A phrase that both units know has one code in DEC too (R40). -/
theorem SamePhrases.noTwoCodes {e : Enc} {d : Dec} (h : SamePhrases e d) (hd : TblInv d.tbl d.regs.next.toNat) : NoTwoCodes d := by
  have code {i : Nat} {p : Phrase} (hi : i < d.regs.next.toNat) (h1 : i ≠ 256) (h2 : i ≠ 257) (hp : tblRead d.tbl i = some p) :
      dictCode e.trie p = some (BitVec.ofNat 17 i) := by
    have hlt := d.regs.next.isLt
    have hn : (BitVec.ofNat 17 i).toNat = i := by rw [BitVec.toNat_ofNat, Nat.mod_eq_of_lt (by omega)]
    by_cases hs : i < 256
    · rw [hd.read_seed hs, Option.some.injEq] at hp
      subst hp
      rw [dictCode_single, Option.some.injEq]
      apply BitVec.eq_of_toNat_eq
      rw [seedCode_toNat, hn, BitVec.toNat_ofNat, Nat.mod_eq_of_lt (by omega)]
    · refine (h _ p (by omega) (by omega)).2 ?_
      rw [hn]; exact hp
  intro i j p hi hj hi1 hi2 hj1 hj2 hpi hpj
  have := (code hi hi1 hi2 hpi).symm.trans (code hj hj1 hj2 hpj)
  have := congrArg BitVec.toNat (Option.some.inj this)
  have hlt := d.regs.next.isLt
  rwa [BitVec.toNat_ofNat, BitVec.toNat_ofNat, Nat.mod_eq_of_lt (by omega), Nat.mod_eq_of_lt (by omega)] at this

/-! ### Before a codeword, and after it -/

/-- ENC `e` about to write a data codeword of an input that goes on with `b`, and DEC `d` about to read it, on the stream `B`: both
run, they agree (R41), and DEC has read what ENC has written. -/
structure BeforeCodeword (B : List Bool) (b : Byte) (e : Enc) (d : Dec) : Prop where
  enc : e.Running
  dec : d.Running
  pending : d.PendingOk
  parity : ParityAtCodeword b e d
  bits : B = written e ++ d.rem

/-- ENC `e` with the data codeword of node `c` written, `ADVANCE` not yet called, and DEC `d` that has read it: all registers are equal
but FAULT_CODE, the phrases are the same, and DEC's PREV is the phrase of `c`. -/
structure AfterCodeword (B : List Bool) (c : Code) (e : Enc) (d : Dec) : Prop where
  enc : e.Running
  dec : d.Running
  regs : d.regs = { e.regs with faultCode := d.regs.faultCode }
  phrases : SamePhrases e d
  prevValid : d.prevValid = true
  prev : dictCode e.trie d.prev = some c
  bits : B = written e ++ d.rem

/-- What follows in DEC's bits when ENC has written more of the stream. -/
theorem rem_of_prefix {B x y : List Bool} {rem : List Bool} (hB : B = x ++ rem) (hp : x ++ y <+: B) : ∃ z, rem = y ++ z := by
  obtain ⟨z, hz⟩ := hp
  rw [hB, List.append_assoc, List.append_cancel_left_eq] at hz
  exact ⟨z, hz.symm⟩

/-- The value and the rest of bits that begin with a written value. -/
theorem bitsToNat_take_natBits {w v : Nat} (hv : v < 2 ^ w) (z : List Bool) :
    bitsToNat ((natBits w v ++ z).take w) = v ∧ (natBits w v ++ z).drop w = z ∧ w ≤ (natBits w v ++ z).length := by
  rw [List.take_left' (natBits_length w v), List.drop_left' (natBits_length w v), bitsToNat_natBits_of_lt hv]
  exact ⟨rfl, rfl, by simp⟩

/-- CT.RESOLVE answers the phrase whose code ENC wrote: a seed, a phrase both know, or the one whose registration is pending in DEC
(R149, R216). -/
theorem BeforeCodeword.resolve {B : List Bool} {b : Byte} {e : Enc} {d : Dec} (h : BeforeCodeword B b e d) {p : Phrase} {c : Code}
    (hb : p.first = b) (hp : dictCode e.trie p = some c) (w : Nat) :
    ctResolve c.toNat (d.taken w) = .ok p (d.taken w) := by
  obtain ⟨_, _, hsame, hnext⟩ := h.parity
  have hn258 := h.dec.regs.2.2.1
  obtain ⟨hnode, hlt⟩ := h.enc.trie.dictCode_isNode (by have := h.enc.regs.2.2.1; omega) hp
  have hdn : (d.taken w).regs.next = d.regs.next := rfl
  have hdt : (d.taken w).tbl = d.tbl := rfl
  have hdp : (d.taken w).pending = d.pending := rfl
  have hdk : kwkwkPhrase (d.taken w) = d.prev.snoc d.prev.first := rfl
  rw [ctResolve, Config.codeRst, hdn, hdt, hdp, hdk]
  rcases Phrase.cases_snoc p with hs | ⟨q, a, hq⟩
  · rw [hs, dictCode_single, Option.some.injEq] at hp
    subst hp
    rw [if_pos (seedCode_lt _), seedCode_toNat, BitVec.ofNat_toNat, BitVec.setWidth_eq, ← hs]
  · have h258 : 258 ≤ c.toNat := by
      rw [hq, dictCode_snoc, Option.bind_eq_some_iff] at hp
      obtain ⟨m, _, hm⟩ := hp
      exact (h.enc.trie.read hm).2.2.1
    rw [if_neg (by omega), if_neg (by omega)]
    by_cases hcn : c.toNat < d.regs.next.toNat
    · rw [if_pos hcn, (hsame c p h258 hcn).1 hp]
    · cases hpend : d.pending with
      | false =>
        rw [hpend, if_neg (by simp)] at hnext
        rw [hnext] at hlt
        omega
      | true =>
        rw [hpend, if_pos rfl] at hnext
        obtain ⟨hn, hcode⟩ := hnext
        rw [hn, next_add_toNat h.dec.regs (h.pending hpend).2] at hlt
        have hc : c = d.regs.next := BitVec.eq_of_toNat_eq (by omega)
        have hpe : p = d.prev.snoc b := h.enc.trie.dictCode_inj (hc ▸ hp) hcode
        have hfirst : d.prev.first = b := by rw [← hb, hpe]; rfl
        rw [if_neg hcn, if_pos ⟨congrArg BitVec.toNat hc, rfl⟩, hfirst, hpe]

end Sys2Proof.Machine
end

section
/-! PROOF. Parity of the units, step by step: DEC's step `k` reads what ENC's step `k` wrote (10_state.md R41). -/

namespace Sys2Proof.Machine

/-! ### The codeword -/

/-- Registers that agree on all that the units share are equal but for FAULT_CODE. -/
theorem Regs.eq_but_faultCode {r q : Regs} (h : SameCounts r q) (hl : SameLatch r q) (hn : r.next = q.next) (hs : r.st = q.st) :
    q = { r with faultCode := q.faultCode } := by
  obtain ⟨hw, hm, hu, hc⟩ := h
  obtain ⟨hu0, hc0, hlat⟩ := hl
  cases r; cases q
  simp_all

theorem Dec.codeword_of_le {d : Dec} (h9 : 9 ≤ d.regs.w.toNat) (h16 : d.regs.w.toNat ≤ 16) (hl : d.regs.w.toNat ≤ d.rem.length)
    (hc : d.regs.c.toNat + d.regs.w.toNat < 2 ^ 64) :
    d.codeword = codeEffect (bitsToNat (d.rem.take d.regs.w.toNat)) (d.taken d.regs.w.toNat) := by
  rw [Dec.codeword, if_pos ⟨h9, h16⟩]
  rcases symRead_cases (w := d.regs.w.toNat) (by omega) (by omega) d with ⟨h, _⟩ | ⟨_, h, _⟩ | ⟨_, _, e⟩
  · omega
  · omega
  · rw [e]; rfl

/-- A codeword that CT.RESOLVE resolves puts out its phrase (R210). -/
theorem codeEffect_of_resolved {x : Nat} {d : Dec} {p : Phrase} (hx : x ≠ 256) (hr : ctResolve x d = .ok p d)
    (hu : d.Countable p) : codeEffect x d = .ok () (d.output p) := by
  rw [codeEffect, if_neg hx, hr, Run.bind_ok]
  rcases symTail_cases p d with ⟨_, e⟩ | ⟨h, _⟩
  · exact e
  · exact absurd hu (Nat.not_lt.2 h)

/-- After the entry that is pending was registered, DEC's table gives the codes below its NEXT the phrases that the trie gives them. -/
theorem BeforeCodeword.phrases_output {B : List Bool} {b : Byte} {e : Enc} {d : Dec} (h : BeforeCodeword B b e d) (p : Phrase)
    (hb : p.first = b) (w : Nat) :
    (((d.taken w).output p).regs.next = e.regs.next) ∧
      ∀ (n : Code) (q : Phrase), 258 ≤ n.toNat → n.toNat < e.regs.next.toNat →
        (dictCode e.trie q = some n ↔ tblRead ((d.taken w).output p).tbl n.toNat = some q) := by
  obtain ⟨_, _, hsame, hnext⟩ := h.parity
  cases hpend : d.pending with
  | false =>
    rw [hpend, if_neg (by simp)] at hnext
    have htbl : ((d.taken w).output p).tbl = d.tbl := by simp [Dec.output, Dec.taken, hpend]
    refine ⟨by simp [Dec.output, Dec.taken, hpend, hnext], fun n q h1 h2 => ?_⟩
    rw [htbl]
    exact hsame n q h1 (hnext ▸ h2)
  | true =>
    rw [hpend, if_pos rfl] at hnext
    obtain ⟨hn, hcode⟩ := hnext
    have hroom := next_add_toNat h.dec.regs (h.pending hpend).2
    have htbl : ((d.taken w).output p).tbl = tblWrite d.tbl d.regs.next.toNat (d.prev.snoc b) := by
      simp [Dec.output, Dec.taken, hpend, hb]
    refine ⟨by simp [Dec.output, Dec.taken, hpend, hn], fun n q h1 h2 => ?_⟩
    rw [hn, hroom] at h2
    rw [htbl, tblRead_tblWrite h.dec.wf]
    by_cases hnn : n.toNat = d.regs.next.toNat
    · have hn' : n = d.regs.next := BitVec.eq_of_toNat_eq hnn
      rw [if_pos hnn, Option.some.injEq, hn']
      exact ⟨fun hq => h.enc.trie.dictCode_inj hcode hq, fun hq => hq ▸ hcode⟩
    · rw [if_neg hnn]
      exact hsame n q h1 (by omega)

/-- DEC reads the codeword that ENC writes for the longest match, and puts out the match (R134, R149, R190, R210). -/
theorem BeforeCodeword.codeword {B : List Bool} {b : Byte} {bs : List Byte} {e : Enc} {d : Dec} (h : BeforeCodeword B b e d)
    (hsrc : e.src = b :: bs) :
    let m := lpmWalk e.trie (seedCode b) 1 bs
    m.1.toNat < 2 ^ e.regs.w.toNat → e.regs.c.toNat + e.regs.w.toNat < 2 ^ 64 → e.regs.u.toNat + 8 * m.2 < 2 ^ 64 →
      written (e.emitted m.1 m.2) <+: B →
      ∃ d', d.codeword = .ok () d' ∧ AfterCodeword B m.1 (e.emitted m.1 m.2) d' := by
  intro m hv hc hu hpre
  obtain ⟨⟨hw, hmode, hue, hce⟩, ⟨hu0, hc0, hlatched⟩, -, -⟩ := h.parity
  obtain ⟨hnode, hl1, hl2, hcode, -⟩ : IsNode e.regs.next.toNat m.1 ∧ 1 ≤ m.2 ∧ m.2 ≤ e.src.length ∧
    dictCode e.trie ⟨b, bs.take (m.2 - 1)⟩ = some m.1 ∧ _ := h.enc.lpm hsrc
  obtain ⟨hw9, hw16, -⟩ := h.enc.regs
  rw [Enc.written_emitted h.enc.acc] at hpre
  obtain ⟨z, hz⟩ := rem_of_prefix h.bits hpre
  obtain ⟨hval, hdrop, hlen⟩ := bitsToNat_take_natBits hv z
  rw [← hz] at hval hdrop hlen
  generalize hp : (⟨b, bs.take (m.2 - 1)⟩ : Phrase) = p at hcode
  have hfirst : p.first = b := by rw [← hp]
  have hplen : p.length = m.2 := by
    rw [hsrc, List.length_cons] at hl2
    rw [← hp, Phrase.length, List.length_take]
    omega
  have hres := h.resolve hfirst hcode d.regs.w.toNat
  have hx : m.1.toNat ≠ 256 := by have := hnode.1; omega
  have hcount : (d.taken d.regs.w.toNat).Countable p := by
    change d.regs.u.toNat + 8 * p.length < 2 ^ 64
    rwa [hplen, ← hue]
  have hcd : d.regs.c.toNat + d.regs.w.toNat < 2 ^ 64 := by rwa [← hce, ← hw]
  have hld : d.regs.w.toNat ≤ d.rem.length := by rwa [← hw]
  have heff : d.codeword = .ok () ((d.taken d.regs.w.toNat).output p) := by
    rw [Dec.codeword_of_le (by rwa [← hw]) (by rwa [← hw]) hld hcd, ← hw, hval, hw]
    exact codeEffect_of_resolved hx hres hcount
  obtain ⟨hnext, hphr⟩ := h.phrases_output p hfirst d.regs.w.toNat
  have hu' : (e.emitted m.1 m.2).regs.u = ((d.taken d.regs.w.toNat).output p).regs.u := by
    change e.regs.u + BitVec.ofNat 64 (8 * m.2) = d.regs.u + BitVec.ofNat 64 (8 * p.length)
    rw [hue, hplen]
  have hc' : (e.emitted m.1 m.2).regs.c = ((d.taken d.regs.w.toNat).output p).regs.c := by
    change e.regs.c + BitVec.ofNat 64 e.regs.w.toNat = d.regs.c + BitVec.ofNat 64 d.regs.w.toNat
    rw [hce, hw]
  exact ⟨_, heff,
    { enc := h.enc.emitted m.1 m.2 hc
      dec := (h.dec.taken hld hcd).output h.pending hx hres hcount
      regs := Regs.eq_but_faultCode ⟨hw, hmode, hu', hc'⟩ ⟨hu0, hc0, hlatched⟩ hnext.symm (h.enc.st.trans h.dec.st.symm)
      phrases := fun n q h1 h2 => by rw [Enc.emitted_trie]; exact hphr n q h1 (hnext ▸ h2)
      prevValid := rfl
      prev := by rw [Enc.emitted_trie]; exact hcode
      bits := by
        rw [Enc.written_emitted h.enc.acc, h.bits, hz, List.append_assoc]
        change _ = written e ++ (_ ++ d.rem.drop d.regs.w.toNat)
        rw [← hw, hdrop] }⟩

/-! ### What ENC does after its codeword, and DEC before its next -/

/-- The head of DEC.STEP keeps the table, PREV and the bits. -/
theorem decHead_frame (d : Dec) : (decHead d).2.tbl = d.tbl ∧ (decHead d).2.prev = d.prev ∧ (decHead d).2.rem = d.rem := by
  rcases decHead_cases d with ⟨_, e⟩ | ⟨_, e⟩
  · rw [e]; exact ⟨rfl, rfl, rfl⟩
  · rw [e]; exact ⟨rfl, rfl, rfl⟩

/-- The head of DEC.STEP after a codeword answers as ENC's `ADVANCE` and writes the same registers (R210). -/
theorem AfterCodeword.head {B : List Bool} {c : Code} {e : Enc} {d : Dec} (h : AfterCodeword B c e d) :
    (decHead d).1 = (advance e.regs).1 ∧ (decHead d).2.pending = decide ((advance e.regs).1 = .register) ∧
      SameCounts (advance e.regs).2 (decHead d).2.regs ∧ SameLatch (advance e.regs).2 (decHead d).2.regs ∧
      (decHead d).2.regs.next = e.regs.next := by
  rcases decHead_cases d with ⟨hv, _⟩ | ⟨_, e'⟩
  · rw [h.prevValid] at hv; cases hv
  · rw [e', h.regs, advance_faultCode_irrelevant]
    exact ⟨rfl, rfl, ⟨rfl, rfl, rfl, rfl⟩, ⟨rfl, rfl, rfl⟩, advance_next e.regs⟩

/-- ENC has counted input before `ADVANCE` is called. -/
theorem AfterCodeword.u_pos {B : List Bool} {c : Code} {e : Enc} {d : Dec} (h : AfterCodeword B c e d) : 0 < e.regs.u.toNat := by
  have := (h.dec.prev h.prevValid).1
  rwa [h.regs] at this

/-- The node of ENC's codeword is a code of its dictionary. -/
theorem AfterCodeword.isNode {B : List Bool} {c : Code} {e : Enc} {d : Dec} (h : AfterCodeword B c e d) :
    IsNode e.regs.next.toNat c :=
  h.enc.trie.dictCode_isNode (by have := h.enc.regs.2.2.1; omega) h.prev

/-- On the answer Register ENC registers the extension at once, and DEC holds it pending (R190, R210, R211). -/
theorem AfterCodeword.registered {B : List Bool} {c : Code} {x : Byte} {e t : Enc} {d : Dec} (h : AfterCodeword B c e d)
    (hx : trieRead e.trie c x = none) (ha : (advance e.regs).1 = .register) (ht : t.Running)
    (hte : t = (pdInsert c x e.regs.next e).withRegs { (advance e.regs).2 with next := e.regs.next + 1 }) :
    BeforeCodeword B x t (decHead d).2 := by
  obtain ⟨hrun, hpok⟩ := h.dec.head
  obtain ⟨htbl, hprev, hrem⟩ := decHead_frame d
  obtain ⟨-, hpend, hcounts, hlatch, hnext⟩ := h.head
  have hdn : d.regs.next = e.regs.next := by rw [h.regs]
  have code := h.enc.trie.dictCode_insert h.isNode hx
  rcases pdInsert_cases c x e.regs.next e with ⟨⟨k, hk⟩, _⟩ | ⟨_, hi⟩
  · rw [hx] at hk; cases hk
  · rw [hi] at hte
    subst hte
    refine ⟨ht, hrun, hpok, ⟨hcounts, hlatch, fun n p h1 h2 => ?_, ?_⟩, hrem ▸ h.bits⟩
    · rw [hnext] at h2
      rw [htbl]
      refine (code p n).trans (Iff.trans (or_iff_left fun hn => ?_) (h.phrases n p h1 (hdn ▸ h2)))
      rw [hn.1] at h2
      exact lt_irrefl _ h2
    · rw [hpend, ha, if_pos (by simp), hnext, hprev]
      exact ⟨rfl, (code _ _).2 (.inr ⟨rfl, d.prev, rfl, h.prev⟩)⟩

/-- On the answer KeepFrozen neither unit registers anything (R190, R210). -/
theorem AfterCodeword.frozen {B : List Bool} {c : Code} {e : Enc} {d : Dec} (h : AfterCodeword B c e d) (x : Byte)
    (ha : (advance e.regs).1 = .keepFrozen) (ht : (e.withRegs (advance e.regs).2).Running) :
    BeforeCodeword B x (e.withRegs (advance e.regs).2) (decHead d).2 := by
  obtain ⟨hrun, hpok⟩ := h.dec.head
  obtain ⟨htbl, -, hrem⟩ := decHead_frame d
  obtain ⟨-, hpend, hcounts, hlatch, hnext⟩ := h.head
  have hdn : d.regs.next = e.regs.next := by rw [h.regs]
  refine ⟨ht, hrun, hpok, ⟨hcounts, hlatch, fun n p h1 h2 => ?_, ?_⟩, hrem ▸ h.bits⟩
  · rw [hnext] at h2
    rw [htbl]
    exact h.phrases n p h1 (hdn ▸ h2)
  · rw [hpend, ha, if_neg (by simp), hnext]
    exact advance_next e.regs

/-- On the answer DoReset ENC writes the marker, and DEC finds it in its marker slot; both then have an empty dictionary (R173, R174). -/
theorem AfterCodeword.marked {B : List Bool} {c : Code} {e : Enc} {d : Dec} (h : AfterCodeword B c e d) (x : Byte)
    (ha : (advance e.regs).1 = .doReset) (hcc : (advance e.regs).2.c.toNat + (advance e.regs).2.w.toNat < 2 ^ 64)
    (ht : (e.withRegs (advance e.regs).2).marked.Running) (hpre : written (e.withRegs (advance e.regs).2).marked <+: B) :
    16 ≤ (decHead d).2.rem.length ∧ (decHead d).2.regs.c.toNat + 16 < 2 ^ 64 ∧ bitsToNat ((decHead d).2.rem.take 16) ≠ 256 ∧
      BeforeCodeword B x (e.withRegs (advance e.regs).2).marked (decHead d).2.restarted := by
  obtain ⟨hrun, -⟩ := h.dec.head
  obtain ⟨-, -, hrem⟩ := decHead_frame d
  obtain ⟨-, -, ⟨hw, hmode, hu, hc⟩, hlatch, -⟩ := h.head
  have hw16 := (h.enc.regs.advance h.u_pos).2.2 ha
  have hwn : (advance e.regs).2.w.toNat = 16 := by rw [hw16]; rfl
  have hwr : written (e.withRegs (advance e.regs).2).marked = written e ++ natBits 16 257 := by
    have := Enc.written_marked (e := e.withRegs (advance e.regs).2) h.enc.acc
    rwa [Enc.withRegs_regs, hwn] at this
  rw [hwr] at hpre
  obtain ⟨z, hz⟩ := rem_of_prefix h.bits hpre
  obtain ⟨hval, hdrop, hlen⟩ := bitsToNat_take_natBits (w := 16) (v := 257) (by decide) z
  rw [← hz, ← hrem] at hval hdrop hlen
  have hcc' : (decHead d).2.regs.c.toNat + 16 < 2 ^ 64 := by rw [← hc]; rwa [hwn] at hcc
  obtain ⟨hrun', hpok'⟩ := hrun.restarted hlen hcc'
  refine ⟨hlen, hcc', by rw [hval]; decide, ht, hrun', hpok', ⟨⟨rfl, hmode, hu, ?_⟩, hlatch, fun n p h1 h2 => ?_, ?_⟩, ?_⟩
  · change (advance e.regs).2.c + BitVec.ofNat 64 (advance e.regs).2.w.toNat = (decHead d).2.regs.c + BitVec.ofNat 64 16
    rw [hwn, hc]
  · exact absurd h2 (Nat.not_lt.2 h1)
  · exact rfl
  · change B = written (e.withRegs (advance e.regs).2).marked ++ (decHead d).2.rem.drop 16
    rw [hwr, h.bits, hdrop, hz, List.append_assoc]

/-- A marker slot that does not hold 256 clears the dictionary (R174). -/
theorem Dec.marker_of_le {d : Dec} (hl : 16 ≤ d.rem.length) (hc : d.regs.c.toNat + 16 < 2 ^ 64)
    (hv : bitsToNat (d.rem.take 16) ≠ 256) : d.marker = .ok () d.restarted := by
  unfold Dec.marker
  rcases symRead_cases (w := 16) (by omega) (by omega) d with ⟨h, _⟩ | ⟨_, h, _⟩ | ⟨_, _, e⟩
  · omega
  · omega
  · rw [e, Run.bind_ok, markerEffect, if_neg hv]; rfl

/-- The symbol MK16.RSTMARK does the same, whatever the slot holds (R174). -/
theorem symMarker_of_le {d : Dec} (hs : d.regs.st = .active) (hl : 16 ≤ d.rem.length) (hc : d.regs.c.toNat + 16 < 2 ^ 64) :
    symMarker d = .ok () d.restarted := by
  unfold symMarker
  rcases symData_cases (w := 16) (by omega) (by omega) (fun d => .ok () { restartDec d with pending := false }) d with
    ⟨h, _⟩ | ⟨_, h, _⟩ | ⟨_, _, h, _⟩ | ⟨_, _, _, e⟩
  · exact absurd hs h
  · omega
  · omega
  · exact e

/-- ENC calls `ADVANCE` at the end of its step and DEC at the head of the next: DEC arrives before the codeword, behind the marker when
ENC wrote one (R41, R190, R210). -/
theorem AfterCodeword.before {B : List Bool} {c : Code} {x : Byte} {e t : Enc} {d : Dec} (h : AfterCodeword B c e d)
    (hx : trieRead e.trie c x = none) (ht : encAdvance c x e = .ok () t) (hpre : written t <+: B) :
    ∃ d', d.atCodeword = .ok () d' ∧ d.step = d'.codeword ∧ BeforeCodeword B x t d' := by
  have hrun := h.enc.advanced h.u_pos h.isNode hx ht
  have hact := h.head.1
  have hst := h.dec.head.1.st
  have registered := h.registered (t := t) hx
  have frozen := h.frozen x
  have marked := h.marked x
  unfold Dec.atCodeword Dec.step
  generalize decHead d = hd at hact hst registered frozen marked ⊢
  obtain ⟨a, y⟩ := hd
  cases hact
  rcases encAdvance_cases c x e with ⟨ha, e'⟩ | ⟨ha, e'⟩ | ⟨ha, ⟨_, _, e'⟩ | ⟨hcc, e'⟩⟩ <;> rw [e'] at ht <;> cases ht <;>
    simp only [ha]
  · exact ⟨y, rfl, rfl, registered ha hrun rfl⟩
  · exact ⟨y, rfl, rfl, frozen ha hrun⟩
  · obtain ⟨hl, hc, hv, hbefore⟩ := marked ha hcc hrun hpre
    refine ⟨_, symMarker_of_le hst hl hc, ?_, hbefore⟩
    rw [Dec.marker_of_le hl hc hv, Run.bind_ok, if_pos hbefore.dec.st]

/-! ### A symbol boundary -/

/-- ENC `e` and DEC `d` between steps, on the stream `B`: DEC's next step goes to the point before the codeword that ENC writes next, and
before EOS the units agree. -/
structure AtBoundary (B : List Bool) (e : Enc) (d : Dec) : Prop where
  enc : e.Running
  dec : d.Running
  noTwoCodes : NoTwoCodes d
  before : ∀ b bs, e.src = b :: bs → ∃ d', d.atCodeword = .ok () d' ∧ d.step = d'.codeword ∧ BeforeCodeword B b e d'
  eos : e.src = [] → ParityAtEos e d

/-- Before EOS both units have the width of the next codeword (R195, R210). -/
theorem AfterCodeword.eos {B : List Bool} {c : Code} {e : Enc} {d : Dec} (h : AfterCodeword B c e d) : ParityAtEos e d := by
  obtain ⟨-, -, ⟨hw, hmode, hu, hc⟩, -, -⟩ := h.head
  have hdn : d.regs.next = e.regs.next := by rw [h.regs]
  obtain ⟨hw9, hw16, hn258, hnw, -⟩ := h.enc.regs
  refine ⟨?_, by rw [h.regs]; exact ⟨rfl, rfl, rfl⟩, h.phrases, hdn.symm⟩
  suffices hs : SameCounts (encEosWidth e).regs (advance e.regs).2 by
    obtain ⟨hw', hmode', hu', hc'⟩ := hs
    exact ⟨hw'.trans hw, hmode'.trans hmode, hu'.trans hu, hc'.trans hc⟩
  unfold encEosWidth Config.wMax
  rcases advance_cases e.regs with ⟨hlt, e'⟩ | ⟨hle, hlt, e'⟩ | ⟨hle, hge, e'⟩
  · rw [if_neg (by omega), e']; exact ⟨rfl, rfl, rfl, rfl⟩
  · rw [if_pos ⟨by omega, hlt⟩, e']; exact ⟨rfl, rfl, rfl, rfl⟩
  · obtain ⟨u0, c0, hl⟩ := e.regs.latch_frame
    rw [if_neg (by omega), e']
    rcases chooseAction_cases e.regs with ⟨_, e''⟩ | ⟨_, e''⟩ | ⟨_, _, e''⟩ | ⟨_, _, e''⟩ <;> rw [e'']
    · exact ⟨rfl, rfl, rfl, rfl⟩
    · exact ⟨rfl, rfl, rfl, rfl⟩
    · rw [hl]; exact ⟨rfl, rfl, rfl, rfl⟩
    · rw [hl]; exact ⟨rfl, rfl, rfl, rfl⟩

/-- One more codeword: ENC's step emits it and DEC's reads it (R41). -/
theorem AtBoundary.codeword {B : List Bool} {b : Byte} {bs : List Byte} {e t : Enc} {d : Dec} (h : AtBoundary B e d)
    (hsrc : e.src = b :: bs) (ht : encStep e = .ok () t) (hpre : written t <+: B) :
    let m := lpmWalk e.trie (seedCode b) 1 bs
    ∃ d', d.step = .ok () d' ∧ AfterCodeword B m.1 (e.emitted m.1 m.2) d' := by
  intro m
  obtain ⟨_, hv, hc, hu, _, hw, _⟩ := h.enc.step hsrc ht
  obtain ⟨y, _, hstep, hy⟩ := h.before b bs hsrc
  obtain ⟨d', hd', hafter⟩ := hy.codeword hsrc hv hc hu (hw.trans hpre)
  exact ⟨d', hstep.trans hd', hafter⟩

/-- What follows a codeword leaves the source to `SrcTake` (R190). -/
theorem encAdvance_src {c : Code} {x : Byte} {e t : Enc} (ht : encAdvance c x e = .ok () t) : t.src = e.src := by
  rcases encAdvance_cases c x e with ⟨_, e'⟩ | ⟨_, e'⟩ | ⟨_, ⟨_, _, e'⟩ | ⟨_, e'⟩⟩ <;> rw [e'] at ht <;> cases ht
  · rcases pdInsert_cases c x e.regs.next e with ⟨_, hi⟩ | ⟨_, hi⟩ <;> rw [hi] <;> rfl
  · rfl
  · exact putBits_src _ _

/-- ENC.FINISH's first line looks at the registers alone. -/
theorem encEosWidth_srcTake_regs (l : Nat) (e : Enc) : (encEosWidth (srcTake l e)).regs = (encEosWidth e).regs := by
  have h : (srcTake l e).regs = e.regs := rfl
  unfold encEosWidth
  rw [h]
  split <;> rfl

/-- A step of ENC with input left and one of DEC lead from one symbol boundary to the next (R41). -/
theorem AtBoundary.step {B : List Bool} {b : Byte} {bs : List Byte} {e t : Enc} {d : Dec} (h : AtBoundary B e d)
    (hsrc : e.src = b :: bs) (ht : encStep e = .ok () t) (hpre : written t <+: B) :
    ∃ d', d.step = .ok () d' ∧ AtBoundary B t d' := by
  obtain ⟨d', hd', hafter⟩ := h.codeword hsrc ht hpre
  obtain ⟨hrun, _, _, _, _, _, t', rfl, ht'⟩ := h.enc.step hsrc ht
  obtain ⟨_, _, _, _, hstop⟩ := h.enc.lpm hsrc
  have htsrc : t'.src = e.src := by
    rcases ht' with ⟨_, rfl⟩ | ⟨x, _, hadv⟩
    · exact Enc.emitted_src _ _ _
    · exact (encAdvance_src hadv).trans (Enc.emitted_src _ _ _)
  have hhead : e.src[(lpmWalk e.trie (seedCode b) 1 bs).2]? = (srcTake (lpmWalk e.trie (seedCode b) 1 bs).2 t').src[0]? := by
    rw [srcTake, List.getElem?_drop, htsrc, Nat.add_zero]
  refine ⟨d', hd', hrun, hafter.dec, SamePhrases.noTwoCodes hafter.phrases hafter.dec.tbl, fun x xs hx => ?_, fun hx => ?_⟩
  · rw [hx, List.getElem?_cons_zero] at hhead
    rcases ht' with ⟨hnone, _⟩ | ⟨x', hx', hadv⟩
    · rw [hhead] at hnone; cases hnone
    · rw [hhead] at hx'; cases hx'
      obtain ⟨y, hat, hstep, hy⟩ := hafter.before (by rw [Enc.emitted_trie]; exact hstop x hhead) hadv hpre
      exact ⟨y, hat, hstep, hrun, hy.dec, hy.pending, hy.parity, hy.bits⟩
  · rw [hx, List.getElem?_nil] at hhead
    rcases ht' with ⟨_, rfl⟩ | ⟨x', hx', _⟩
    · obtain ⟨hcounts, hlatch, hphr, hnext⟩ := hafter.eos
      exact ⟨by rwa [encEosWidth_srcTake_regs], hlatch, hphr, hnext⟩
    · rw [hhead] at hx'; cases hx'

/-- Steps of ENC that leave it ACTIVE, in a run that completes, and as many of DEC lead from one symbol boundary to another (R41). -/
theorem AtBoundary.loop {e e2 e' : Enc} {d : Dec} (k : Nat) (h : AtBoundary (bytesToBits e2.snk) e d) (hcomp : e.Completes e2)
    (he : encLoop k e = .ok () e') (hs : e'.regs.st = .active) :
    ∃ d', Dec.loop k d = .ok () d' ∧ AtBoundary (bytesToBits e2.snk) e' d' ∧ e'.Completes e2 := by
  induction k generalizing e d with
  | zero => cases he; exact ⟨d, rfl, h, hcomp⟩
  | succ k ih =>
    obtain ⟨t, ht, htcomp⟩ := hcomp.step h.enc.st
    rw [encLoop, if_pos h.enc.st, ht, Run.bind_ok] at he
    cases hsrc : e.src with
    | nil =>
      have htst : t.regs.st ≠ .active := by rw [encStep_of_nil h.enc.st hsrc ht]; simp [Enc.closed]
      rw [encLoop_of_ne htst] at he
      cases he
      exact absurd hs htst
    | cons b bs =>
      obtain ⟨x, hx, hbound⟩ := h.step hsrc ht ((h.enc.step hsrc ht).1.written_prefix htcomp)
      rw [Dec.loop, if_pos h.dec.st, hx, Run.bind_ok]
      exact ih hbound htcomp he

/-- Where ENC's next step writes a marker, DEC's next step leads to the point before the marker slot (R41, R174). -/
theorem AtBoundary.marker {e e2 e' : Enc} {d : Dec} (h : AtBoundary (bytesToBits e2.snk) e d) (hcomp : e.Completes e2)
    (he : e.atMarker = some e') :
    ∃ d', d.step = .ok () d' ∧ (decHead d').1 = .doReset ∧ ParityAtMarker e' (decHead d').2 := by
  obtain ⟨t, ht, htcomp⟩ := hcomp.step h.enc.st
  cases hsrc : e.src with
  | nil => simp [Enc.atMarker, pdLpm, hsrc] at he
  | cons b bs =>
    obtain ⟨x, hx, hafter⟩ := h.codeword hsrc ht ((h.enc.step hsrc ht).1.written_prefix htcomp)
    obtain ⟨hact, hpend, hcounts, hlatch, hnext⟩ := hafter.head
    obtain ⟨htbl, -, -⟩ := decHead_frame x
    obtain ⟨_, _, _, _, hemit, _⟩ := h.enc.step hsrc ht
    have hlpm : pdLpm e = .ok (lpmWalk e.trie (seedCode b) 1 bs) e := by rw [pdLpm, hsrc]
    generalize lpmWalk e.trie (seedCode b) 1 bs = m at hafter hact hpend hcounts hlatch hnext hemit hlpm
    have hn := advance_next (e.emitted m.1 m.2).regs
    simp only [Enc.atMarker, hlpm, Run.bind_ok, hemit] at he
    split at he
    · next _ hadv =>
      cases he
      rw [hadv] at hact hpend hcounts hlatch hn
      refine ⟨x, hx, hact, hcounts, hlatch, fun n p h1 h2 => ?_, hn.trans hnext.symm, hpend⟩
      rw [hnext] at h2
      rw [htbl]
      exact hafter.phrases n p h1 (by rwa [hafter.regs])
    · cases he

/-- Neither unit has registered a phrase when its stream has begun (R131, R145). -/
theorem samePhrases_started (m : Mode) (e : Enc) (d : Dec) : SamePhrases (e.started m) (d.started m) :=
  fun _ _ h1 h2 => absurd h2 (Nat.not_lt.2 h1)

/-- Right after ENC.START and DEC.START the units stand at a symbol boundary (R41, R186, R206). -/
theorem atBoundary_start (m : Mode) (e0 : Enc) {B : List Bool} {d : Dec} (hpre : written (e0.started m) <+: B)
    (hd : bytesToBits d.src = B) :
    ∃ d', d.start = .ok () d' ∧ AtBoundary B (e0.started m) d' := by
  have hB : (decReady d).rem = B := hd
  have hw : written (e0.started m) = natBits 2 m.bits.toNat := rfl
  obtain ⟨z, hz⟩ := hw ▸ hpre
  obtain ⟨hval, hdrop, hlen⟩ := bitsToNat_take_natBits m.bits.isLt z
  rw [hz, ← hB] at hval hdrop hlen
  have hstart : d.start = .ok () (((decReady d).taken 2).started m) := by
    rcases symRead_cases (w := 2) (by omega) (by omega) (decReady d) with ⟨h, _⟩ | ⟨_, h, _⟩ | ⟨_, _, e⟩
    · omega
    · have hc : (decReady d).regs.c.toNat = 0 := rfl
      omega
    · rw [Dec.start, e, Run.bind_ok, headerEffect, hval, BitVec.ofNat_toNat, BitVec.setWidth_eq, Mode.ofBits_bits]
  have hrun := Dec.started_running (d := d) m hlen
  have henc := Enc.started_running m e0
  have hbits : B = written (e0.started m) ++ (((decReady d).taken 2).started m).rem := by
    rw [hw, ← hz, ← hdrop]; rfl
  have hsame := samePhrases_started m e0 ((decReady d).taken 2)
  refine ⟨_, hstart, henc, hrun, hsame.noTwoCodes hrun.tbl, fun b bs _ => ?_, fun _ => ?_⟩
  · obtain ⟨hrun', hpend⟩ := hrun.head
    exact ⟨_, rfl, rfl, henc, hrun', hpend, ⟨⟨rfl, rfl, rfl, rfl⟩, ⟨rfl, rfl, rfl⟩, hsame, rfl⟩, hbits⟩
  · exact ⟨⟨rfl, rfl, rfl, rfl⟩, ⟨rfl, rfl, rfl⟩, hsame, rfl⟩

/-- Settles O59, by induction over the steps of the run. -/
theorem unitsAgreeAtEverySymbolBoundary : Obligations.UnitsAgreeAtEverySymbolBoundary := by
  intro m e0 e1 e2 e r0 r1 k hstart hrun hdone hst hsrc hdstart hloop hact
  rw [encStart_bits] at hstart
  cases hstart
  have hcomp : (e0.started m).Completes e2 := ⟨_, hrun, hdone⟩
  have hpre := (Enc.started_running m e0).written_prefix hcomp
  obtain ⟨d1, hd1, hb⟩ := atBoundary_start m e0 hpre (congrArg bytesToBits hsrc)
  rw [decStart_eq, Dec.require_of_eq hst, hd1] at hdstart
  cases hdstart
  obtain ⟨d, hd, hbound, hcomp'⟩ := hb.loop k hcomp hloop hact
  refine ⟨r0.withDec d, ?_, hbound.dec.st, hbound.noTwoCodes, fun b bs hsrc => ?_, fun e' he' => ?_, hbound.eos⟩
  · rw [decLoop_eq, State.withDec_dec, hd]; rfl
  · obtain ⟨y, hy, _, hbefore⟩ := hbound.before b bs hsrc
    exact ⟨y, hy, SamePhrases.noTwoCodes hbefore.parity.2.2.1 hbefore.dec.tbl, hbefore.parity⟩
  · obtain ⟨x, hx, hreset, hparity⟩ := hbound.marker hcomp' he'
    refine ⟨r0.withDec x, ?_, hreset, hparity⟩
    rw [decStep_eq, State.withDec_dec, Dec.require_of_eq hbound.dec.st, hx]; rfl

end Sys2Proof.Machine
end

section
/-! PROOF. Sinks only grow: no operation but those that begin a stream or clear the packer takes a byte back (20_memory.md R63).  Every
lemma says of an operation that it keeps "the sink begins with the bytes `x`"; with `x` the sink before the operation, the sink has grown. -/

namespace Sys2Proof.Machine

section
variable {σ ρ α β : Type}

/-- What both parts of a sequence keep, the sequence keeps. -/
theorem Run.EndsIn.bind {P : σ → Prop} {T : Prop} {r : Run σ α} {k : α → σ → Run σ β} (h : r.EndsIn P T)
    (hk : ∀ a s, P s → (k a s).EndsIn P T) : (r.bind k).EndsIn P T := by
  cases r with
  | ok a s => exact hk a s h
  | raised s => exact h
  | stuck f => exact h

/-- What holds with any part put back holds after an operation on that part. -/
theorem Run.endsIn_lift {P : σ → Prop} {put : ρ → σ} (h : ∀ s, P (put s)) (r : Run ρ α) : (r.lift put).EndsIn P True := by
  cases r with
  | ok a s => exact h s
  | raised s => exact h s
  | stuck f => trivial

end

/-! ### ENC -/

/-- ENC's sink begins with the bytes `x`. -/
def Enc.Begins (x : List Byte) (e : Enc) : Prop := x <+: e.snk

section
variable {x : List Byte} {e : Enc}

theorem Enc.Begins.require (h : e.Begins x) (want : UnitState) {op : Enc → Run Enc Unit} (hop : (op e).EndsIn (Enc.Begins x) True) :
    (Enc.require want op e).EndsIn (Enc.Begins x) True := by
  by_cases hs : e.regs.st = want
  · rw [Enc.require_of_eq hs]; exact hop
  · rw [Enc.require_of_ne hs]; exact h

theorem Enc.Begins.withRegs (h : e.Begins x) (r : Regs) : (e.withRegs r).Begins x := h

theorem Enc.Begins.countC (h : e.Begins x) (w : Nat) : (e.countC w).EndsIn (Enc.Begins x) True :=
  Run.endsIn_lift (put := e.withRegs) (fun _ => h) _

theorem Enc.Begins.countU (h : e.Begins x) (k : Nat) : (e.countU k).EndsIn (Enc.Begins x) True :=
  Run.endsIn_lift (put := e.withRegs) (fun _ => h) _

/-- `BC.WRITE` appends to the sink (R112). -/
theorem Enc.Begins.write (h : e.Begins x) (v w : Nat) : (bcWrite v w e).EndsIn (Enc.Begins x) True := by
  rcases bcWrite_cases v w e with ⟨_, hw⟩ | ⟨_, _, _, hw⟩ | ⟨_, _, _, hw⟩ <;> rw [hw]
  · exact h
  · exact h
  · exact List.IsPrefix.trans h (putBits_snk_isPrefix e _)

/-- `BC.FLUSH` appends to the sink (R114). -/
theorem Enc.Begins.flush (h : e.Begins x) : (bcFlush e).Begins x := by
  rcases bcFlush_cases e with ⟨_, hf⟩ | ⟨_, hf⟩ <;> rw [hf]
  · exact h
  · exact List.IsPrefix.trans h (List.prefix_append _ _)

theorem Enc.Begins.insert (h : e.Begins x) (c : Code) (b : Byte) (n : Code) : (pdInsert c b n e).Begins x := by
  rcases pdInsert_cases c b n e with ⟨_, hi⟩ | ⟨_, hi⟩ <;> rw [hi] <;> exact h

/-- The marker is appended to the sink (R173). -/
theorem Enc.Begins.doReset (h : e.Begins x) : (doResetEnc e).EndsIn (Enc.Begins x) True :=
  (h.write _ _).bind fun _ _ h => (h.countC _).bind fun _ _ h => h

/-- EOS and the last byte are appended to the sink (R195). -/
theorem Enc.Begins.finish (h : e.Begins x) : (encFinish e).EndsIn (Enc.Begins x) True := by
  have hw : (encEosWidth e).Begins x := by
    obtain ⟨w, hw⟩ := encEosWidth_frame e
    rw [hw]; exact h
  exact (hw.write _ _).bind fun _ _ h => (h.countC _).bind fun _ _ h => h.flush.withRegs _

theorem Enc.Begins.advance (h : e.Begins x) (c : Code) (b : Byte) : (encAdvance c b e).EndsIn (Enc.Begins x) True := by
  unfold encAdvance
  split
  · exact h.insert c b _
  · exact h
  · exact Enc.Begins.doReset h

/-- A data codeword is appended to the sink (R190). -/
theorem Enc.Begins.emit (h : e.Begins x) (c : Code) (l : Nat) : (encEmit c l e).EndsIn (Enc.Begins x) True :=
  (h.write _ _).bind fun _ _ h => (h.countC _).bind fun _ _ h => h.countU l

theorem Enc.Begins.lpm (h : e.Begins x) : (pdLpm e).EndsIn (Enc.Begins x) True := by
  unfold pdLpm; split <;> exact h

theorem Enc.Begins.symbol (h : e.Begins x) : (encSymbol e).EndsIn (Enc.Begins x) True := by
  refine h.lpm.bind fun m e h => (h.emit _ _).bind fun _ e h => Run.EndsIn.bind ?_ fun _ _ h => h
  cases srcPeek e m.2 with
  | none => exact h
  | some b => exact h.advance m.1 b

/-- ENC.STEP only appends to the sink (R190). -/
theorem Enc.Begins.step (h : e.Begins x) : (encStep e).EndsIn (Enc.Begins x) True := by
  refine h.require .active ?_
  split
  · exact h.finish
  · exact h.symbol

/-- Every command but ENC.START and BC.WINIT only appends to ENC's sink. -/
theorem Enc.Begins.encOp (h : e.Begins x) {i : Instr} (hs : ∀ m, i ≠ .encStart m) (hw : i ≠ .bcWinit) :
    (encOp i e).EndsIn (Enc.Begins x) True := by
  cases i
  case encStart m => exact absurd rfl (hs m)
  case bcWinit => exact absurd rfl hw
  case encStep => exact h.step
  case encRun => exact h.require .active (encLoop_endsIn (fun _ h _ => h.step) _ h)
  case bcWrite => exact h.require .idle (h.write _ _)
  case bcFlush => exact h.require .idle (op := fun e => .ok () (bcFlush e)) h.flush
  all_goals exact h

end

/-! ### DEC -/

/-- DEC's sink begins with the bytes `x`. -/
def Dec.Begins (x : List Byte) (d : Dec) : Prop := x <+: d.snk

section
variable {x : List Byte} {d : Dec}

theorem Dec.Begins.require (h : d.Begins x) (want : UnitState) {op : Dec → Run Dec Unit} (hop : (op d).EndsIn (Dec.Begins x) True) :
    (Dec.require want op d).EndsIn (Dec.Begins x) True := by
  by_cases hs : d.regs.st = want
  · rw [Dec.require_of_eq hs]; exact hop
  · rw [Dec.require_of_ne hs]; exact h

theorem Dec.Begins.countC (h : d.Begins x) (w : Nat) : (d.countC w).EndsIn (Dec.Begins x) True :=
  Run.endsIn_lift (put := d.withRegs) (fun _ => h) _

theorem Dec.Begins.read (h : d.Begins x) (w : Nat) : (bcRead w d).EndsIn (Dec.Begins x) True := by
  rcases bcRead_cases w d with ⟨_, hr⟩ | ⟨_, _, _, hr⟩ | ⟨_, _, _, hr⟩ <;> rw [hr] <;> exact h

theorem Dec.Begins.symRead (h : d.Begins x) (w : Nat) : (symRead w d).EndsIn (Dec.Begins x) True :=
  (h.read w).bind fun _ _ h => (h.countC w).bind fun _ _ h => h

theorem Dec.Begins.symTake (h : d.Begins x) (w : Nat) : (symTake w d).EndsIn (Dec.Begins x) True :=
  (h.read w).bind fun _ _ h => h.countC w

/-- The tail of DEC.STEP appends the phrase to the sink (R210). -/
theorem Dec.Begins.tail (h : d.Begins x) (s : Phrase) : (symTail s d).EndsIn (Dec.Begins x) True := by
  have hput : d.snk <+: d.snk ++ s.toList := List.prefix_append _ _
  rcases symTail_cases s d with ⟨_, ht⟩ | ⟨_, ht⟩ <;> rw [ht]
  · exact List.IsPrefix.trans h hput
  · exact List.IsPrefix.trans h hput

theorem Dec.Begins.resolve (h : d.Begins x) (v : Nat) : (ctResolve v d).EndsIn (Dec.Begins x) True := by
  rcases ctResolve_cases v d with ⟨_, hr⟩ | ⟨_, _, _, p, _, hr⟩ | ⟨_, _, _, _, hr⟩ | ⟨_, _, _, _, hr⟩ | ⟨_, hr⟩ <;> rw [hr]
  · exact h
  · exact h
  · trivial
  · exact h
  · exact h

theorem Dec.Begins.codeEffect (h : d.Begins x) (v : Nat) : (codeEffect v d).EndsIn (Dec.Begins x) True := by
  unfold Machine.codeEffect
  split
  · exact h
  · exact (h.resolve v).bind fun p _ h => h.tail p

theorem Dec.Begins.codeword (h : d.Begins x) : d.codeword.EndsIn (Dec.Begins x) True := by
  unfold Dec.codeword
  split
  · exact (h.symRead _).bind fun v _ h => h.codeEffect v
  · trivial

theorem Dec.Begins.marker (h : d.Begins x) : d.marker.EndsIn (Dec.Begins x) True := by
  refine (h.symRead 16).bind fun v d h => ?_
  unfold markerEffect
  split <;> exact h

theorem Dec.Begins.head (h : d.Begins x) : (decHead d).2.Begins x := by
  rcases decHead_cases d with ⟨_, hd⟩ | ⟨_, hd⟩ <;> rw [hd] <;> exact h

/-- DEC.STEP only appends to the sink (R210). -/
theorem Dec.Begins.step (h : d.Begins x) : d.step.EndsIn (Dec.Begins x) True := by
  have hh := h.head
  unfold Dec.step
  generalize decHead d = r at hh ⊢
  obtain ⟨a, d⟩ := r
  cases a with
  | register => exact Dec.Begins.codeword hh
  | keepFrozen => exact Dec.Begins.codeword hh
  | doReset =>
    refine (Dec.Begins.marker hh).bind fun _ d h => ?_
    split
    · exact h.codeword
    · exact h

/-- Every command but DEC.START only appends to DEC's sink. -/
theorem Dec.Begins.decOp (h : d.Begins x) {i : Instr} (hs : i ≠ .decStart) : (decOp i d).EndsIn (Dec.Begins x) True := by
  cases i
  case decStart => exact absurd rfl hs
  case decStep => exact h.require .active h.step
  case decRun => exact h.require .active (Dec.loop_endsIn (fun _ h _ => h.step) _ h)
  case bcRinit | bcIsempty =>
    simp only [Machine.decOp]
    exact h.require .idle h
  case bcRead =>
    simp only [Machine.decOp]
    exact h.require .idle ((h.read _).bind fun _ _ h => h)
  all_goals exact h

/-! ### Stream symbols -/

/-- A symbol read inside DEC.STEP keeps the start of the sink where its own effect does (R210). -/
theorem Dec.Begins.data (h : d.Begins x) (w : Nat) {op : Dec → Run Dec Unit}
    (hop : ∀ d, d.Begins x → (op d).EndsIn (Dec.Begins x) True) : (symData w op d).EndsIn (Dec.Begins x) True :=
  h.require .active ((h.symTake w).bind fun _ d h => hop d h)

theorem Dec.Begins.header (h : d.Begins x) (m : Mode) : (symHeader m d).EndsIn (Dec.Begins x) True :=
  h.require .idle ((h.symTake 2).bind fun _ _ h => h)

theorem Dec.Begins.headerIllegal (h : d.Begins x) : (symHeaderIllegal d).EndsIn (Dec.Begins x) True :=
  h.require .idle ((h.symTake 2).bind fun _ _ h => h)

theorem Dec.Begins.eos (h : d.Begins x) (w : Nat) : (symEos w d).EndsIn (Dec.Begins x) True := h.data w fun _ h => h

theorem Dec.Begins.rstmark (h : d.Begins x) (w : Nat) : (symRstmark w d).EndsIn (Dec.Begins x) True := h.data w fun _ h => h

theorem Dec.Begins.lit (h : d.Begins x) (w : Nat) (b : Byte) : (symLit w b d).EndsIn (Dec.Begins x) True :=
  h.data w fun _ h => h.tail _

theorem Dec.Begins.ref (h : d.Begins x) (w code : Nat) : (symRef w code d).EndsIn (Dec.Begins x) True := by
  refine h.data w fun d h => ?_
  split
  · cases tblRead d.tbl code with
    | none => trivial
    | some p => exact h.tail p
  · exact h

theorem Dec.Begins.kwkwk (h : d.Begins x) (w code : Nat) : (symKwkwk w code d).EndsIn (Dec.Begins x) True := by
  refine h.data w fun d h => ?_
  split
  · exact h.tail _
  · exact h

theorem Dec.Begins.markerSlot (h : d.Begins x) : (symMarker d).EndsIn (Dec.Begins x) True := h.data 16 fun _ h => h

end

/-- Every stream symbol is an operation on DEC alone, and only appends to DEC's sink (R81 to R83). -/
theorem exec_symbol_begins {i : Instr} (hi : i.slot 0 ≠ .command) (s : State) :
    ∃ r : Run Dec Unit, exec i s = r.outcome s.withDec ∧ r.EndsIn (Dec.Begins s.dec.snk) True := by
  have h : s.dec.Begins s.dec.snk := List.prefix_rfl
  cases i
  case hdrNone | hdrReset | hdrMonitor => exact ⟨_, rfl, h.header _⟩
  case hdrIllegal => exact ⟨_, rfl, h.headerIllegal⟩
  case cw9Eos | cw10Eos | cw11Eos | cw12Eos | cw13Eos | cw14Eos | cw15Eos | cw16Eos | mk16Eos => exact ⟨_, rfl, h.eos _⟩
  case cw9Rstmark | cw10Rstmark | cw11Rstmark | cw12Rstmark | cw13Rstmark | cw14Rstmark | cw15Rstmark | cw16Rstmark =>
    exact ⟨_, rfl, h.rstmark _⟩
  case cw9Lit b | cw10Lit b | cw11Lit b | cw12Lit b | cw13Lit b | cw14Lit b | cw15Lit b | cw16Lit b => exact ⟨_, rfl, h.lit _ b⟩
  case cw9Ref c | cw10Ref c | cw11Ref c | cw12Ref c | cw13Ref c | cw14Ref c | cw15Ref c | cw16Ref c =>
    exact ⟨_, rfl, h.ref _ c.toNat⟩
  case cw9Kwkwk c | cw10Kwkwk c | cw11Kwkwk c | cw12Kwkwk c | cw13Kwkwk c | cw14Kwkwk c | cw15Kwkwk c | cw16Kwkwk c =>
    exact ⟨_, rfl, h.kwkwk _ c.toNat⟩
  case mk16Rstmark => exact ⟨_, rfl, h.markerSlot⟩
  all_goals exact absurd rfl hi

/-- Settles O53: a command runs on its unit alone, a stream symbol on DEC alone, and each only appends to that unit's sink. -/
theorem sinksOnlyGrow : Obligations.SinksOnlyGrow := by
  intro i s t hstart hdec hwinit ht
  by_cases hi : i.slot 0 = .command
  · cases htarget : s.target with
    | enc =>
      have h : s.enc.answered.Begins s.enc.snk := List.prefix_rfl
      rw [exec_of_enc hi htarget] at ht
      obtain ⟨e, he, rfl⟩ := (h.encOp hstart hwinit).of_next ht
      exact ⟨he, List.prefix_rfl⟩
    | dec =>
      have h : s.dec.answered.Begins s.dec.snk := List.prefix_rfl
      rw [exec_of_dec hi htarget] at ht
      obtain ⟨d, hd, rfl⟩ := (h.decOp hdec).of_next ht
      exact ⟨List.prefix_rfl, hd⟩
  · obtain ⟨r, hr, hgrow⟩ := exec_symbol_begins hi s
    rw [hr] at ht
    obtain ⟨d, hd, rfl⟩ := hgrow.of_next ht
    exact ⟨List.prefix_rfl, hd⟩

end Sys2Proof.Machine
end

section
/-! PROOF. The encodings: decoder and encoder of every slot against each other, the command words, and the step that runs them
(30_encoding.md). -/

namespace Sys2Proof

/-! ### Bits at the front of a slot -/

/-- A slot's first bits are the digits of the value read from them. -/
theorem takeValue_eq_ok_iff_natBits {n v : Nat} {bits rest : List Bool} :
    takeValue n bits = .ok (v, rest) ↔ v < 2 ^ n ∧ natBits n v ++ rest = bits := by
  constructor
  · intro h
    obtain ⟨hl, hr⟩ := takeValue_eq_ok.1 h
    obtain ⟨rfl, rfl⟩ := Prod.mk.inj hr
    have hlen := List.length_take_of_le hl
    refine ⟨?_, by rw [natBits_bitsToNat_of_length hlen, List.take_append_drop]⟩
    have hlt := bitsToNat_lt (bits.take n)
    rwa [hlen] at hlt
  · rintro ⟨hv, rfl⟩
    exact takeValue_natBits hv rest

/-- A slot of `n` bits that reads the value `v` as `f v` holds `i` where its bits are the digits of a value read as `i`. -/
theorem map_takeValue_eq_ok {n : Nat} {f : Nat → Instr} {i : Instr} {bits rest : List Bool} :
    ((takeValue n bits).map fun r => (f r.1, r.2)) = .ok (i, rest) ↔ ∃ v < 2 ^ n, natBits n v ++ rest = bits ∧ f v = i := by
  constructor
  · intro h
    cases ht : takeValue n bits with
    | error e => rw [ht] at h; cases h
    | ok r =>
      rw [ht] at h
      cases h
      obtain ⟨hv, hbits⟩ := takeValue_eq_ok_iff_natBits.1 ht
      exact ⟨r.1, hv, hbits, rfl⟩
  · rintro ⟨v, hv, hbits, rfl⟩
    rw [takeValue_eq_ok_iff_natBits.2 ⟨hv, hbits⟩]
    rfl

section
variable {i : Instr} {bits rest : List Bool}

theorem decode_header_eq_ok :
    decode .header bits = .ok (i, rest) ↔ ∃ v < 2 ^ 2, natBits 2 v ++ rest = bits ∧ decodeHeader v = i :=
  map_takeValue_eq_ok

theorem decode_marker_eq_ok :
    decode .marker bits = .ok (i, rest) ↔ ∃ v < 2 ^ 16, natBits 16 v ++ rest = bits ∧ decodeMarker v = i :=
  map_takeValue_eq_ok

theorem decode_command_eq_ok :
    decode .command bits = .ok (i, rest) ↔
      ∃ v < 2 ^ 44, natBits 44 v ++ rest = bits ∧ decodeCommand (BitVec.ofNat 44 v) = i :=
  map_takeValue_eq_ok (f := fun v => decodeCommand (BitVec.ofNat 44 v))

/-- A data slot has the width of a codeword format and holds a symbol of that format (R82). -/
theorem decode_data_eq_ok {w next : Nat} :
    decode (.data w next) bits = .ok (i, rest) ↔ ∃ f : CwFormat, w = f.width ∧ ∃ v < 2 ^ f.width,
      natBits f.width v ++ rest = bits ∧ f.instr (classify next (BitVec.ofNat f.width v)) = i := by
  simp only [← Machine.CwFormat.ofWidth_eq_some, decode]
  cases CwFormat.ofWidth w with
  | none => simp
  | some f =>
    simp only [Option.some.injEq, exists_eq_left']
    exact map_takeValue_eq_ok (f := fun v => f.instr (classify next (BitVec.ofNat f.width v)))

end

/-! ### The classes of a codeword (R82) -/

/-- The value a codeword of a class is written as. -/
def CwClass.value {w : Nat} : CwClass w → Nat
  | .eos => 256
  | .rstmark => 257
  | .lit byte => byte.toNat
  | .ref code | .kwkwk code => code.toNat

/-- A class's row condition: REF is a registered code below NEXT, KWKWK one that is not. -/
def CwClass.Fits {w : Nat} (next : Nat) : CwClass w → Prop
  | .eos | .rstmark | .lit _ => True
  | .ref code => 258 ≤ code.toNat ∧ code.toNat < next
  | .kwkwk code => 258 ≤ code.toNat ∧ next ≤ code.toNat

/-- A codeword is of the one class whose condition it meets and whose value it has. -/
theorem classify_eq_iff {w next : Nat} {code : BitVec w} {c : CwClass w} :
    classify next code = c ↔ c.Fits next ∧ c.value = code.toNat := by
  unfold classify Config.codeEos Config.codeRst
  constructor
  · rintro rfl
    split
    · next h => exact ⟨trivial, h.symm⟩
    · split
      · next h => exact ⟨trivial, h.symm⟩
      · split
        · next h => exact ⟨trivial, by simpa [CwClass.value] using h⟩
        · split
          · exact ⟨⟨by omega, ‹_›⟩, rfl⟩
          · exact ⟨⟨by omega, by omega⟩, rfl⟩
  · rintro ⟨hfit, hv⟩
    cases c with
    | eos => exact if_pos hv.symm
    | rstmark =>
      obtain hv : 257 = code.toNat := hv
      rw [if_neg (by omega), if_pos hv.symm]
    | lit byte =>
      obtain hv : byte.toNat = code.toNat := hv
      have hlt := byte.isLt
      rw [if_neg (by omega), if_neg (by omega), if_pos (by omega), ← hv, BitVec.ofNat_toNat, BitVec.setWidth_eq]
    | ref x =>
      obtain rfl : x = code := BitVec.eq_of_toNat_eq hv
      obtain ⟨hfirst, hnext⟩ := hfit
      rw [if_neg (by omega), if_neg (by omega), if_neg (by omega), if_pos hnext]
    | kwkwk x =>
      obtain rfl : x = code := BitVec.eq_of_toNat_eq hv
      obtain ⟨hfirst, hnext⟩ := hfit
      rw [if_neg (by omega), if_neg (by omega), if_neg (by omega), if_neg (by omega)]

theorem CwFormat.instr_value (f : CwFormat) (c : CwClass f.width) : (f.instr c).value = c.value := by
  cases f <;> cases c <;> rfl

/-- The two halves of a codeword row's condition, said of the symbol, are its class's condition. -/
theorem CwFormat.instr_wf_and_fitsNext (f : CwFormat) (c : CwClass f.width) (next : Nat) :
    (WellFormed (f.instr c) ∧ (f.instr c).fitsNext next = true) ↔ c.Fits next := by
  cases f <;> cases c <;>
    simp [CwFormat.instr, CwFormat.eos, CwFormat.rstmark, CwFormat.lit, CwFormat.ref, CwFormat.kwkwk, CwClass.Fits,
      WellFormed, Instr.wf, Instr.fitsNext]

/-- Every class's value fits the format's width. -/
theorem CwFormat.class_value_lt (f : CwFormat) (c : CwClass f.width) : c.value < 2 ^ f.width := by
  have h9 : 2 ^ 9 ≤ 2 ^ f.width := Nat.pow_le_pow_right (by decide) (Machine.CwFormat.width_bounds f).1
  cases c with
  | eos | rstmark => exact lt_of_lt_of_le (by simp [CwClass.value]) h9
  | lit byte => exact byte.isLt.trans (lt_of_lt_of_le (by decide) h9)
  | ref code | kwkwk code => exact code.isLt

theorem CwFormat.encode_instr (f : CwFormat) (c : CwClass f.width) : encode (f.instr c) = natBits f.width c.value := by
  rw [encode, f.instr_width, f.instr_value]

/-- A codeword symbol whose row condition holds is read back from its encoding. -/
theorem decode_encode_codeword {w next : Nat} {f : CwFormat} {i : Instr} {rest : List Bool} (hf : CwFormat.ofWidth w = some f)
    (c : CwClass f.width) (hi : i = f.instr c) (hwf : WellFormed i) (hfit : i.fitsNext next = true) :
    decode (.data w next) (encode i ++ rest) = .ok (i, rest) := by
  subst hi
  have hlt := f.class_value_lt c
  have hc : c.Fits next := (f.instr_wf_and_fitsNext c next).1 ⟨hwf, hfit⟩
  refine decode_data_eq_ok.2 ⟨f, Machine.CwFormat.ofWidth_eq_some.1 hf, c.value, hlt, ?_, congrArg f.instr ?_⟩
  · rw [f.encode_instr]
  · rw [classify_eq_iff, BitVec.toNat_ofNat, Nat.mod_eq_of_lt hlt]
    exact ⟨hc, rfl⟩

/-! ### The marker slot (R83) -/

/-- Every value but 256 is read as itself. -/
theorem decodeMarker_toNat {value : BitVec 16} (h : value.toNat ≠ Config.codeEos) :
    decodeMarker value.toNat = .mk16Rstmark value := by
  rw [decodeMarker, if_neg h, BitVec.ofNat_toNat, BitVec.setWidth_eq]

/-! ### Command words: the fields, each read at its place (R100) -/

@[simp] theorem cmdOpsel_cmdWord (o : BitVec 4) (w : BitVec 6) (m : BitVec 2) (v : BitVec 32) :
    cmdOpsel (cmdWord o w m v) = o := by
  simp (disch := decide) only [cmdOpsel, cmdWord, BitVec.extractLsb'_append_eq_of_le, BitVec.extractLsb'_eq_self, Nat.reduceSub]

@[simp] theorem cmdArgw_cmdWord (o : BitVec 4) (w : BitVec 6) (m : BitVec 2) (v : BitVec 32) :
    cmdArgw (cmdWord o w m v) = w := by
  simp (disch := decide) only [cmdArgw, cmdWord, BitVec.extractLsb'_append_eq_of_add_le, BitVec.extractLsb'_append_eq_of_le,
    BitVec.extractLsb'_eq_self, Nat.reduceSub]

@[simp] theorem cmdArgm_cmdWord (o : BitVec 4) (w : BitVec 6) (m : BitVec 2) (v : BitVec 32) :
    cmdArgm (cmdWord o w m v) = m := by
  simp (disch := decide) only [cmdArgm, cmdWord, BitVec.extractLsb'_append_eq_of_add_le, BitVec.extractLsb'_append_eq_of_le,
    BitVec.extractLsb'_eq_self, Nat.reduceSub]

@[simp] theorem cmdArgv_cmdWord (o : BitVec 4) (w : BitVec 6) (m : BitVec 2) (v : BitVec 32) :
    cmdArgv (cmdWord o w m v) = v := by
  simp (disch := decide) only [cmdArgv, cmdWord, BitVec.extractLsb'_append_eq_of_add_le, BitVec.extractLsb'_eq_self]

/-- Every operand of a command is legal as an encoding. -/
theorem decodeCommand_wellFormed (cmd : BitVec 44) : WellFormed (decodeCommand cmd) := by
  unfold decodeCommand; split <;> rfl

/-- A command word's 44 digits are read back as the word. -/
theorem decode_command_word {cmd : BitVec 44} {i : Instr} (h : decodeCommand cmd = i) (rest : List Bool) :
    decode .command (natBits 44 cmd.toNat ++ rest) = .ok (i, rest) :=
  decode_command_eq_ok.2 ⟨cmd.toNat, cmd.isLt, rfl, by rwa [BitVec.ofNat_toNat, BitVec.setWidth_eq]⟩

/-- Settles O13: OPSEL alone chooses the operation, which takes the fields it names. -/
theorem commandWordsDecodeByOpsel : Obligations.CommandWordsDecodeByOpsel := by
  intro w m v
  simp [decodeCommand]

/-- Settles O11, slot by slot: what a slot reads from an instruction's value is that instruction. -/
theorem decodeOfEncodeIsTheInstruction : Obligations.DecodeOfEncodeIsTheInstruction := by
  intro i next rest hwf hfit
  cases i
  case hdrNone | hdrReset | hdrMonitor | hdrIllegal => exact decode_header_eq_ok.2 ⟨_, by decide, rfl, rfl⟩
  case cw9Eos | cw10Eos | cw11Eos | cw12Eos | cw13Eos | cw14Eos | cw15Eos | cw16Eos =>
    exact decode_encode_codeword rfl .eos rfl hwf hfit
  case cw9Rstmark | cw10Rstmark | cw11Rstmark | cw12Rstmark | cw13Rstmark | cw14Rstmark | cw15Rstmark | cw16Rstmark =>
    exact decode_encode_codeword rfl .rstmark rfl hwf hfit
  case cw9Lit b | cw10Lit b | cw11Lit b | cw12Lit b | cw13Lit b | cw14Lit b | cw15Lit b | cw16Lit b =>
    exact decode_encode_codeword rfl (.lit b) rfl hwf hfit
  case cw9Ref c | cw10Ref c | cw11Ref c | cw12Ref c | cw13Ref c | cw14Ref c | cw15Ref c | cw16Ref c =>
    exact decode_encode_codeword rfl (.ref c) rfl hwf hfit
  case cw9Kwkwk c | cw10Kwkwk c | cw11Kwkwk c | cw12Kwkwk c | cw13Kwkwk c | cw14Kwkwk c | cw15Kwkwk c | cw16Kwkwk c =>
    exact decode_encode_codeword rfl (.kwkwk c) rfl hwf hfit
  case mk16Eos => exact decode_marker_eq_ok.2 ⟨256, by decide, rfl, rfl⟩
  case mk16Rstmark value =>
    exact decode_marker_eq_ok.2 ⟨value.toNat, value.isLt, rfl, decodeMarker_toNat (of_decide_eq_true hwf)⟩
  all_goals exact decode_command_word (by simp [decodeCommand]) rest

/-- Settles O12: a slot's bits are the digits of the value read, and the symbol of that value is written as it. -/
theorem encodeOfDecodeIsTheSymbolBits : Obligations.EncodeOfDecodeIsTheSymbolBits := by
  refine fun bits i rest => ⟨fun h => ?_, fun h => ?_, fun w next h => ?_⟩
  · obtain ⟨v, hv, rfl, rfl⟩ := decode_header_eq_ok.1 h
    interval_cases v <;> exact ⟨rfl, rfl, rfl⟩
  · obtain ⟨v, hv, rfl, rfl⟩ := decode_marker_eq_ok.1 h
    unfold decodeMarker
    split
    · next h => subst h; exact ⟨rfl, rfl, rfl⟩
    · next h =>
      have hval : (BitVec.ofNat 16 v).toNat = v := by rw [BitVec.toNat_ofNat, Nat.mod_eq_of_lt hv]
      exact ⟨congrArg (natBits 16 · ++ rest) hval, decide_eq_true (by rwa [hval]), rfl⟩
  · obtain ⟨f, rfl, v, hv, rfl, rfl⟩ := decode_data_eq_ok.1 h
    obtain ⟨hfits, hval⟩ := classify_eq_iff.1 (rfl : classify next (BitVec.ofNat f.width v) = _)
    obtain ⟨hwf, hfit⟩ := (f.instr_wf_and_fitsNext _ next).2 hfits
    rw [BitVec.toNat_ofNat, Nat.mod_eq_of_lt hv] at hval
    exact ⟨by rw [f.encode_instr, hval], hwf, f.instr_slot _ next, hfit⟩

/-- Settles O6: every command word's row is well-formed, and a step on a pending word is its execution. -/
theorem stepExecutesTheDecodedCommand : Obligations.StepExecutesTheDecodedCommand := by
  intro s u cmd rest hport
  refine ⟨decodeCommand_wellFormed cmd, ?_⟩
  rw [Machine.step, hport]
  rfl

/-- Settles O10, by decoding each word. -/
theorem sampleWordsDecode : Obligations.SampleWordsDecode := by
  unfold Obligations.SampleWordsDecode
  decide

end Sys2Proof
end

section
/-! PROOF. The symbols of a slot of their own: the header and the marker slot (45_decoder.md R206; 43_width_policy.md R174). -/

namespace Sys2Proof.Machine

/-- The bits of a symbol that are there and can be counted are taken (R117, R171). -/
theorem symTake_of_le {w : Nat} (h1 : 1 ≤ w) (h2 : w ≤ 32) {d : Dec} (hl : w ≤ d.rem.length)
    (hc : d.regs.c.toNat + w < 2 ^ 64) : symTake w d = .ok () (d.taken w) := by
  rcases symTake_cases h1 h2 d with ⟨h, _⟩ | ⟨_, h, _⟩ | ⟨_, _, h⟩
  · omega
  · omega
  · exact h

/-- A decoder that is ready for a symbol takes its bits, and the symbol acts (R210). -/
theorem symData_of_ready {w : Nat} (h1 : 1 ≤ w) (h2 : w ≤ 32) {d : Dec} (h : d.Ready w) (op : Dec → Run Dec Unit) :
    symData w op d = op (d.taken w) := by
  obtain ⟨hs, hl, hc⟩ := h
  rw [symData, Dec.require_of_eq hs, symTake_of_le h1 h2 hl hc, Run.bind_ok]

/-- Fault entry of DEC outside FAULT (R240). -/
theorem Dec.raise_of_ne_fault {d : Dec} (h : d.regs.st ≠ .fault) (f : FaultCause) : d.raise f = d.faulted f := by
  rw [Dec.raise, Regs.raise_of_ne_fault h]; rfl

/-- Settles O34: IDLE takes the two bits, and the stream starts or InvalidMode is raised. -/
theorem headerSymbolsStartTheStream : Obligations.HeaderSymbolsStartTheStream := by
  intro s hs hl hc
  have header (op : Dec → Run Dec Unit) :
      decSymbol (Dec.require .idle fun d => (symTake 2 d).bind fun _ d => op d) s = (op (s.dec.taken 2)).outcome s.withDec := by
    rw [decSymbol, Dec.require_of_eq hs, symTake_of_le (by decide) (by decide) hl hc, Run.bind_ok]
  have hne : (s.dec.taken 2).regs.st ≠ .fault := by simp [Dec.taken, hs]
  refine ⟨header _, header _, header _, (header _).trans ?_⟩
  rw [Dec.raise_of_ne_fault hne]
  rfl

/-- Settles O42: the marker slot's bits are taken, and its value ends the stream or clears the dictionary. -/
theorem markerSlotResetsOrEnds : Obligations.MarkerSlotResetsOrEnds := by
  intro value s hready
  have marker (op : Dec → Run Dec Unit) : decSymbol (symData 16 op) s = (op (s.dec.taken 16)).outcome s.withDec := by
    rw [decSymbol, symData_of_ready (by decide) (by decide) hready]
  exact ⟨marker _, fun _ => marker _⟩

end Sys2Proof.Machine
end

section
/-! PROOF. The bit channel's lists of operations: every list of writes is one bit string written, and reads of the same widths take it
apart again (40_bit_channel.md R113, R119). -/

namespace Sys2Proof.Machine

/-! ### Lists of writes -/

/-- A pair `(v, w)` that a BC.WRITE takes: a width from 1 to 32 and a value of at most `w` digits (R112). -/
def FitsWidth (p : Nat × Nat) : Prop := 1 ≤ p.2 ∧ p.2 ≤ 32 ∧ p.1 < 2 ^ p.2

/-- A write succeeds on the pairs that fit alone, and writes their digits. -/
theorem bcWrite_eq_ok {p : Nat × Nat} {u : Unit} {e e' : Enc} :
    bcWrite p.1 p.2 e = .ok u e' ↔ FitsWidth p ∧ putBits e (natBits p.2 p.1) = e' := by
  constructor
  · intro h
    rcases bcWrite_cases p.1 p.2 e with ⟨_, h'⟩ | ⟨_, _, _, h'⟩ | ⟨h1, h2, hv, h'⟩ <;> rw [h'] at h <;> cases h
    exact ⟨⟨h1, h2, hv⟩, rfl⟩
  · rintro ⟨⟨h1, h2, hv⟩, rfl⟩
    exact bcWrite_of_fits h1 h2 hv e

theorem putBits_append (e : Enc) (a b : List Bool) : putBits e (a ++ b) = putBits (putBits e a) b := List.foldl_append

theorem writesBits_cons (p : Nat × Nat) (ps : List (Nat × Nat)) : writesBits (p :: ps) = natBits p.2 p.1 ++ writesBits ps := rfl

theorem writesBits_length (ps : List (Nat × Nat)) : (writesBits ps).length = (ps.map Prod.snd).sum := by
  simp [writesBits, List.length_flatMap]

/-- A list of writes succeeds when all its pairs fit, and has then written their bit string (R113). -/
theorem bcWrites_eq_ok {ps : List (Nat × Nat)} {e e' : Enc} :
    bcWrites ps e = .ok () e' ↔ (∀ p ∈ ps, FitsWidth p) ∧ putBits e (writesBits ps) = e' := by
  induction ps generalizing e with
  | nil => simp [bcWrites, writesBits, putBits]
  | cons p ps ih =>
    simp only [bcWrites, Run.bind_eq_ok, bcWrite_eq_ok, ih, writesBits_cons, putBits_append, List.forall_mem_cons]
    constructor
    · rintro ⟨_, _, ⟨hp, rfl⟩, hps, h⟩
      exact ⟨⟨hp, hps⟩, h⟩
    · rintro ⟨⟨hp, hps⟩, h⟩
      exact ⟨(), _, ⟨hp, rfl⟩, hps, h⟩

/-- Writes into an empty packer and sink have written exactly their bit string, the last bits of it in a partial byte (R113). -/
theorem written_of_bcWrites {ps : List (Nat × Nat)} {e e' : Enc} (hacc : e.acc = []) (hsnk : e.snk = [])
    (h : bcWrites ps e = .ok () e') : written e' = writesBits ps ∧ e'.acc.length < 8 := by
  obtain ⟨_, rfl⟩ := bcWrites_eq_ok.1 h
  obtain ⟨hw, hl⟩ := putBits_written (e := e) (by simp [hacc]) (writesBits ps)
  exact ⟨by simpa [written, hacc, hsnk] using hw, hl⟩

/-- Settles O20: the bits written are whole bytes, which are the sink, then fewer than eight bits, which are `PK.ACC`. -/
theorem packerEquation : Obligations.PackerEquation := by
  intro ps e e' hacc hsnk h
  obtain ⟨hw, hl⟩ := written_of_bcWrites hacc hsnk h
  rw [← hw, written]
  have hlen : (bytesToBits e'.snk ++ e'.acc).length = 8 * e'.snk.length + e'.acc.length := by simp
  have hbytes : 8 * ((bytesToBits e'.snk ++ e'.acc).length / 8) = (bytesToBits e'.snk).length := by
    rw [hlen, bytesToBits_length]; omega
  refine ⟨?_, ?_, ?_⟩
  · rw [hbytes, List.take_left]
  · rw [hlen, Enc.pkCnt, BitVec.toNat_ofNat]; omega
  · rw [hbytes, List.drop_left]

/-! ### Lists of reads -/

/-- Reads of the widths written return the values written and leave the bits that come after (R117, R119). -/
theorem bcReads_writesBits {ps : List (Nat × Nat)} (hps : ∀ p ∈ ps, FitsWidth p) {d : Dec} {rest : List Bool}
    (hrem : d.rem = writesBits ps ++ rest) : bcReads (ps.map Prod.snd) d = .ok (ps.map Prod.fst) { d with rem := rest } := by
  induction ps generalizing d with
  | nil => subst hrem; rfl
  | cons p ps ih =>
    obtain ⟨⟨h1, h2, hv⟩, hps⟩ := List.forall_mem_cons.1 hps
    rw [writesBits_cons, List.append_assoc] at hrem
    obtain ⟨hval, hdrop, hle⟩ := bitsToNat_take_natBits hv (writesBits ps ++ rest)
    rw [← hrem] at hval hdrop hle
    rw [List.map_cons, bcReads, bcRead_of_le h1 h2 hle, hval, hdrop, Run.bind_ok, ih hps rfl]
    rfl

/-- Settles O21: the flushed sink is the bit string written and its zero pad; the reads take the string and leave the pad. -/
theorem unpackerEquation : Obligations.UnpackerEquation := by
  intro ps e e' d hacc hsnk h hsrc
  obtain ⟨hps, _⟩ := bcWrites_eq_ok.1 h
  obtain ⟨hw, hl⟩ := written_of_bcWrites hacc hsnk h
  refine ⟨_, bcReads_writesBits hps ((congrArg bytesToBits hsrc).trans (by rw [bcFlush_written hl, hw])), ?_⟩
  have hsum : (ps.map Prod.snd).sum = 8 * e'.snk.length + e'.acc.length := by simp [← writesBits_length, ← hw, written]
  rw [hsum, Nat.mul_add_mod, Nat.mod_eq_of_lt hl]

end Sys2Proof.Machine
end

section
/-! PROOF. The commands of the bit channel, issued in IDLE (40_bit_channel.md R111 to R120; 60_exceptions.md R232 to R234). -/

namespace Sys2Proof.Machine

/-! ### What each command is in IDLE -/

section
variable {s : State}

/-- A command of ENC's packer, sent to an idle ENC, acts on ENC with the answer cleared (R100). -/
theorem encCommand_of_idle (ht : s.target = .enc) (hs : s.enc.regs.st = .idle) (op : Enc → Run Enc Unit) :
    encCommand (Enc.require .idle op) s = (op s.enc.answered).outcome s.withEnc := by
  rw [encCommand_of_enc ht, Enc.require_of_eq (e := { s.enc with rsp := none }) hs]
  rfl

/-- A command of DEC's unpacker, sent to an idle DEC, acts on DEC with the answer cleared (R100). -/
theorem decCommand_of_idle (ht : s.target = .dec) (hs : s.dec.regs.st = .idle) (op : Dec → Run Dec Unit) :
    decCommand (Dec.require .idle op) s = (op s.dec.answered).outcome s.withDec := by
  rw [decCommand_of_dec ht, Dec.require_of_eq (d := { s.dec with rsp := none }) hs]
  rfl

theorem exec_bcWinit_of_idle (ht : s.target = .enc) (hs : s.enc.regs.st = .idle) :
    exec .bcWinit s = .next (s.withEnc (bcWinit s.enc.answered)) := encCommand_of_idle ht hs _

theorem exec_bcWrite_of_idle (ht : s.target = .enc) (hs : s.enc.regs.st = .idle) (value : BitVec 32) (width : BitVec 6) :
    exec (.bcWrite value width) s = (bcWrite value.toNat width.toNat s.enc.answered).outcome s.withEnc :=
  encCommand_of_idle ht hs _

theorem exec_bcFlush_of_idle (ht : s.target = .enc) (hs : s.enc.regs.st = .idle) :
    exec .bcFlush s = .next (s.withEnc (bcFlush s.enc.answered)) := encCommand_of_idle ht hs _

theorem exec_bcRinit_of_idle (ht : s.target = .dec) (hs : s.dec.regs.st = .idle) :
    exec .bcRinit s = .next (s.withDec (bcRinit s.dec.answered)) := decCommand_of_idle ht hs _

theorem exec_bcRead_of_idle (ht : s.target = .dec) (hs : s.dec.regs.st = .idle) (width : BitVec 6) :
    exec (.bcRead width) s = ((bcRead width.toNat s.dec.answered).bind fun v d =>
      .ok () { d with rsp := some (BitVec.ofNat 32 v) }).outcome s.withDec := decCommand_of_idle ht hs _

theorem exec_bcIsempty_of_idle (ht : s.target = .dec) (hs : s.dec.regs.st = .idle) :
    exec .bcIsempty s = .next (s.withDec { s.dec with rsp := some (if bcIsempty s.dec then 1 else 0) }) :=
  decCommand_of_idle ht hs _

end

/-! ### The packer -/

/-- A flush leaves the answer cleared. -/
theorem bcFlush_answered (e : Enc) : (bcFlush e.answered).answered = bcFlush e.answered := by
  rcases bcFlush_cases e.answered with ⟨_, h⟩ | ⟨_, h⟩ <;> rw [h] <;> rfl

/-- Fault entry of ENC outside FAULT (R240). -/
theorem Enc.raise_of_ne_fault {e : Enc} (h : e.regs.st ≠ .fault) (f : FaultCause) : e.raise f = e.faulted f := by
  rw [Enc.raise, Regs.raise_of_ne_fault h]; rfl

theorem bcFlush_of_acc_nil {e : Enc} (h : e.acc = []) : bcFlush e = e := if_pos h

/-- A second flush does nothing (R114). -/
theorem bcFlush_bcFlush (e : Enc) : bcFlush (bcFlush e) = bcFlush e := bcFlush_of_acc_nil (bcFlush_acc e)

/-- Settles O14: the cleared packer is cleared already for a second BC.WINIT, and holds no partial byte for a BC.FLUSH. -/
theorem bcWinitClearsThePacker : Obligations.BcWinitClearsThePacker := by
  intro s ht
  refine ⟨exec_bcWinit_of_idle ht, fun hs => ?_, fun t hs h => ?_⟩
  · refine (encCommand_of_enc ht _).trans ?_
    rw [Enc.require_of_ne (e := { s.enc with rsp := none }) hs, Run.outcome_raised]
    rfl
  · rw [exec_bcWinit_of_idle ht hs] at h
    cases h
    refine ⟨exec_bcWinit_of_idle (s := s.withEnc _) ht hs, _, exec_bcFlush_of_idle (s := s.withEnc _) ht hs, ?_⟩
    rw [State.withEnc_enc, bcFlush_of_acc_nil rfl]
    rfl

/-- Settles O15: the digits are appended by `putBits`, which changes the packer and the sink alone. -/
theorem bcWriteAppendsTheBits : Obligations.BcWriteAppendsTheBits := by
  intro value width s ht hs hacc h1 h2 hv
  obtain ⟨hw, hl⟩ := putBits_written (e := s.enc.answered) hacc (natBits width.toNat value.toNat)
  refine ⟨s.withEnc (putBits s.enc.answered (natBits width.toNat value.toNat)), ?_, hw, hl, putBits_rsp _ _, rfl, rfl, rfl,
    putBits_regs _ _, putBits_trie _ _, putBits_src _ _⟩
  rw [exec_bcWrite_of_idle ht hs, bcWrite_of_fits h1 h2 hv, Run.outcome_ok]

/-- Settles O16: the conditions of the two faults are those of `bcWrite`'s first two cases. -/
theorem bcWriteFaultsMoveNothing : Obligations.BcWriteFaultsMoveNothing := by
  intro value width s ht hs
  have hne : s.enc.answered.regs.st ≠ .fault := by simp [Enc.answered, hs]
  rw [exec_bcWrite_of_idle ht hs, ← Enc.raise_of_ne_fault hne, ← Enc.raise_of_ne_fault hne]
  rcases bcWrite_cases value.toNat width.toNat s.enc.answered with ⟨hw, h⟩ | ⟨_, _, hv, h⟩ | ⟨_, _, hv, h⟩ <;> rw [h]
  · exact ⟨fun _ => rfl, fun _ _ _ => by omega⟩
  · exact ⟨fun _ => by omega, fun _ _ _ => rfl⟩
  · exact ⟨fun _ => by omega, fun _ _ _ => by omega⟩

/-- Settles O17: what was written and its pad are in the sink; the empty partial byte leaves a second flush nothing to do. -/
theorem bcFlushPadsToAByte : Obligations.BcFlushPadsToAByte := by
  intro s ht hs hacc
  have hidle : (s.withEnc (bcFlush s.enc.answered)).enc.regs.st = .idle := (congrArg Regs.st (bcFlush_regs _)).trans hs
  refine ⟨_, exec_bcFlush_of_idle ht hs, bcFlush_written (e := s.enc.answered) hacc, bcFlush_acc _, bcFlush_rsp _,
    ⟨rfl, rfl, rfl, bcFlush_regs _, bcFlush_trie _, bcFlush_src _⟩, ?_⟩
  rw [exec_bcFlush_of_idle (s := s.withEnc (bcFlush s.enc.answered)) ht hidle, State.withEnc_enc, bcFlush_answered,
    bcFlush_bcFlush, State.withEnc_withEnc]

/-! ### The unpacker -/

/-- Settles O18: each command's one line, with the length test of BC.ISEMPTY read as emptiness. -/
theorem bcRinitLoadsAndIsemptyReports : Obligations.BcRinitLoadsAndIsemptyReports := by
  intro s ht hs
  refine ⟨exec_bcRinit_of_idle ht hs, ?_⟩
  rw [exec_bcIsempty_of_idle ht hs]
  simp [bcIsempty]

/-- Settles O19: each clause is one of the three ways a read ends. -/
theorem bcReadTakesTheFirstBits : Obligations.BcReadTakesTheFirstBits := by
  intro width s ht hs
  have hne : s.dec.answered.regs.st ≠ .fault := by simp [Dec.answered, hs]
  rw [exec_bcRead_of_idle ht hs, ← Dec.raise_of_ne_fault hne, ← Dec.raise_of_ne_fault hne]
  refine ⟨fun h1 h2 hl => ?_, fun hw => ?_, fun h1 h2 hl => ?_⟩
  · rw [bcRead_of_le (d := s.dec.answered) h1 h2 hl]
    rfl
  · rw [bcRead, if_pos hw, Run.bind_raised, Run.outcome_raised]
  · rw [bcRead_of_lt (d := s.dec.answered) h1 h2 hl, Run.bind_raised, Run.outcome_raised]

end Sys2Proof.Machine
end

section
/-! PROOF. Where a codeword or a marker slot traps (40_bit_channel.md R118; 43_width_policy.md R172; 45_decoder.md R210, R218). -/

namespace Sys2Proof.Machine

/-! ### A symbol's bits taken: ST and the dictionary stay -/

@[simp] theorem Dec.taken_st (w : Nat) (d : Dec) : (d.taken w).regs.st = d.regs.st := rfl
@[simp] theorem Dec.taken_next (w : Nat) (d : Dec) : (d.taken w).regs.next = d.regs.next := rfl
@[simp] theorem Dec.taken_tbl (w : Nat) (d : Dec) : (d.taken w).tbl = d.tbl := rfl
@[simp] theorem Dec.taken_prev (w : Nat) (d : Dec) : (d.taken w).prev = d.prev := rfl
@[simp] theorem Dec.taken_pending (w : Nat) (d : Dec) : (d.taken w).pending = d.pending := rfl

/-! ### The codeword of a ready unit: its bits are taken and its phrase goes to the tail, or it is illegal -/

section
variable {f : CwFormat} {s : State} (h : s.dec.Ready f.width)
include h

/-- A codeword's symbol acts on the unit with the bits taken (R210). -/
theorem decSymbol_of_ready (op : Dec → Run Dec Unit) :
    decSymbol (symData f.width op) s = (op (s.dec.taken f.width)).outcome s.withDec := by
  obtain ⟨h9, h16⟩ := CwFormat.width_bounds f
  rw [decSymbol, symData_of_ready (by omega) (by omega) h]

/-- LIT: the phrase is its byte (R213). -/
theorem exec_lit_of_ready (byte : Byte) :
    exec (f.lit byte) s = (symTail (Phrase.single byte) (s.dec.taken f.width)).outcome s.withDec :=
  (exec_lit f byte s).trans (decSymbol_of_ready h _)

/-- REF: the phrase is what its slot holds (R214). -/
theorem exec_ref_of_ready {code : BitVec f.width} {p : Phrase} (hlt : code.toNat < s.dec.regs.next.toNat)
    (hp : tblRead s.dec.tbl code.toNat = some p) :
    exec (f.ref code) s = (symTail p (s.dec.taken f.width)).outcome s.withDec := by
  refine ((exec_ref f code s).trans (decSymbol_of_ready h _)).trans ?_
  rw [Dec.taken_next, if_pos hlt, Dec.taken_tbl, hp]

/-- KWKWK of NEXT with a registration pending: the phrase is PREV and its first byte (R216). -/
theorem exec_kwkwk_of_ready {code : BitVec f.width} (hcode : code.toNat = s.dec.regs.next.toNat) (hpend : s.dec.pending = true) :
    exec (f.kwkwk code) s =
      (symTail (s.dec.prev.snoc s.dec.prev.first) (s.dec.taken f.width)).outcome s.withDec := by
  refine ((exec_kwkwk f code s).trans (decSymbol_of_ready h _)).trans ?_
  rw [Dec.taken_next, Dec.taken_pending, if_pos ⟨hcode, hpend⟩, kwkwkPhrase, Dec.taken_prev]

/-- KWKWK otherwise: the code is illegal (R218). -/
theorem exec_kwkwk_of_illegal {code : BitVec f.width}
    (hcode : ¬(code.toNat = s.dec.regs.next.toNat ∧ s.dec.pending = true)) :
    exec (f.kwkwk code) s = .next (s.withDec ((s.dec.taken f.width).raise .invalidCodeword)) := by
  refine ((exec_kwkwk f code s).trans (decSymbol_of_ready h _)).trans ?_
  rw [Dec.taken_next, Dec.taken_pending, if_neg hcode, Run.outcome_raised]

end

/-! ### Symbols that trap -/

/-- A codeword of any class and a marker slot take their own bits first and have an effect after that (R210; log 1). -/
theorem exec_eq_symData {i : Instr} {w : Nat}
    (hi : (∃ f : CwFormat, w = f.width ∧ ∃ c, i = f.instr c) ∨ (w = 16 ∧ i.slot 0 = .marker)) :
    1 ≤ w ∧ w ≤ 32 ∧ ∃ op, ∀ s, exec i s = decSymbol (symData w op) s := by
  rcases hi with ⟨f, rfl, c, rfl⟩ | ⟨rfl, hi⟩
  · obtain ⟨h9, h16⟩ := CwFormat.width_bounds f
    refine ⟨by omega, by omega, ?_⟩
    cases c with
    | eos => exact ⟨_, exec_eos f⟩
    | rstmark => exact ⟨_, exec_rstmark f⟩
    | lit byte => exact ⟨_, exec_lit f byte⟩
    | ref code => exact ⟨_, exec_ref f code⟩
    | kwkwk code => exact ⟨_, exec_kwkwk f code⟩
  · refine ⟨by decide, by decide, ?_⟩
    cases i
    case mk16Eos | mk16Rstmark => exact ⟨_, fun _ => rfl⟩
    all_goals cases hi

/-- Outside FAULT a phrase that cannot be counted is put out, and the tail of DEC.STEP raises CounterOverflow (R172, R210). -/
theorem symTail_of_not_countable {p : Phrase} {d : Dec} (hs : d.regs.st ≠ .fault) (h : ¬d.Countable p) :
    symTail p d = .raised (d.overflowed p) := by
  rcases symTail_cases p d with ⟨h', _⟩ | ⟨_, e⟩
  · exact absurd h' h
  · rw [e, Dec.raise_of_ne_fault (d := snkPutAll p.toList d) hs]
    rfl

/-- Settles O43: outside a started stream, on too few bits and on a full C the symbol stops before its effect; the effect of a ready
unit's codeword raises InvalidCodeword, or CounterOverflow in the tail. -/
theorem symbolsTrapOnShortStreamAndOverflow : Obligations.SymbolsTrapOnShortStreamAndOverflow := by
  constructor
  · intro i w s hi
    obtain ⟨h1, h2, op, hop⟩ := exec_eq_symData hi
    have hne (hs : s.dec.regs.st = .active) : s.dec.regs.st ≠ .fault := by simp [hs]
    rw [hop, decSymbol]
    rcases symData_cases h1 h2 op s.dec with ⟨hs, e⟩ | ⟨hs, hl, e⟩ | ⟨hs, hl, hc, e⟩ | ⟨hs, hl, hc, e⟩ <;> rw [e]
    · exact ⟨fun _ => rfl, fun h => absurd h hs, fun h => absurd h hs⟩
    · refine ⟨absurd hs, fun _ _ => ?_, fun _ _ _ => by omega⟩
      rw [Dec.raise_of_ne_fault (hne hs), Run.outcome_raised]
    · refine ⟨absurd hs, fun _ _ => by omega, fun _ _ _ => ?_⟩
      rw [Dec.raise_of_ne_fault (d := { s.dec with rem := s.dec.rem.drop w }) (hne hs), Run.outcome_raised]
    · exact ⟨absurd hs, fun _ _ => by omega, fun _ _ _ => by omega⟩
  · intro f byte code s hready
    have hne : (s.dec.taken f.width).regs.st ≠ .fault := by simp [hready.1]
    have tail {p : Phrase} (h : ¬s.dec.Countable p) : (symTail p (s.dec.taken f.width)).outcome s.withDec =
        .next (s.withDec ((s.dec.taken f.width).overflowed p)) := by
      rw [symTail_of_not_countable hne h, Run.outcome_raised]
    refine ⟨fun _ hcode => ?_, fun h => ?_, fun p _ hlt hp h => ?_, fun hcode hpend h => ?_⟩
    · rw [exec_kwkwk_of_illegal hready hcode, Dec.raise_of_ne_fault hne]
    · rw [exec_lit_of_ready hready, tail h]
    · rw [exec_ref_of_ready hready hlt hp, tail h]
    · rw [exec_kwkwk_of_ready hready hcode hpend, tail h]

end Sys2Proof.Machine
end

section
/-! PROOF. The prefix dictionary: the longest match, the seeds and an insertion (41_prefix_dictionary.md R130 to R135). -/

namespace Sys2Proof.Machine

/-! ### The longest match -/

/-- A walk whose first byte has no child ends at no node. -/
theorem trieWalk_cons_of_none {t : Cells Code} {c : Code} {b : Byte} (h : trieRead t c b = none) (bs : List Byte) :
    trieWalk t c (b :: bs) = none := by
  simp only [trieWalk, pdChild, h]

/-- No longer prefix than the one `PD.LPM` matched leads to a node: the byte after the match has no child (R134). -/
theorem lpmWalk_longest (t : Cells Code) (c : Code) (l : Nat) (bs : List Byte) {k : Nat} (hlt : (lpmWalk t c l bs).2 < l + k)
    (hk : k ≤ bs.length) : trieWalk t c (bs.take k) = none := by
  induction bs generalizing c l k with
  | nil =>
    obtain rfl := Nat.le_zero.1 hk
    exact absurd hlt (lt_irrefl l)
  | cons b bs ih =>
    have := (lpmWalk_length t c l (b :: bs)).1
    obtain ⟨k, rfl⟩ := Nat.exists_eq_succ_of_ne_zero (show k ≠ 0 by omega)
    rw [List.take_succ_cons]
    cases hr : pdChild t c b with
    | none => exact trieWalk_cons_of_none hr _
    | some n =>
      simp only [lpmWalk, hr] at hlt
      simp only [trieWalk, hr]
      exact ih n (l + 1) (by omega) (Nat.le_of_succ_le_succ hk)

/-- Settles O22: the match is where the walk ends, and the walk goes on as long as it can. -/
theorem longestPrefixIsMatched : Obligations.LongestPrefixIsMatched := by
  intro e b bs hsrc
  obtain ⟨hl, hlen⟩ := lpmWalk_length e.trie (seedCode b) 1 bs
  rw [hsrc, List.length_cons]
  refine ⟨_, _, by rw [pdLpm, hsrc], hl, by omega, lpmWalk_reached _ _ _ _, fun k hlt hk => ?_⟩
  exact lpmWalk_longest e.trie (seedCode b) 1 bs (by omega) (by omega)

/-! ### The seeds and an insertion -/

/-- The seeded dictionary holds the one-byte phrases alone (R132). -/
theorem dictCode_nil (p : Phrase) : dictCode [] p = if p.rest = [] then some (seedCode p.first) else none := by
  obtain ⟨a, rest⟩ := p
  cases rest with
  | nil => rfl
  | cons b bs => exact trieWalk_cons_of_none (trieRead_nil _ b) bs

/-- A trie that keeps every child keeps every phrase's code. -/
theorem dictCode_mono {t u : Cells Code} (h : ∀ c b k, trieRead t c b = some k → trieRead u c b = some k) {p : Phrase}
    {k : Code} (hp : dictCode t p = some k) : dictCode u p = some k := by
  induction p using Phrase.snoc_induction generalizing k with
  | single b => exact hp
  | snoc p b ih =>
    rw [dictCode_snoc, Option.bind_eq_some_iff] at hp ⊢
    obtain ⟨m, hm, hk⟩ := hp
    exact ⟨m, ih hm, h m b k hk⟩

/-- Writing a missing cell keeps every phrase's code (R135). -/
theorem dictCode_trieWrite_of_none {t : Cells Code} {c n k : Code} {b : Byte} (hr : trieRead t c b = none) {p : Phrase}
    (hp : dictCode t p = some k) : dictCode (trieWrite t c b n) p = some k := by
  refine dictCode_mono (fun c' b' k' h => ?_) hp
  rw [trieRead_trieWrite, if_neg, h]
  rintro ⟨rfl, rfl⟩
  rw [hr] at h
  cases h

/-- `PD.INSERT` of a present extension does nothing (R135, D28). -/
theorem pdInsert_of_some {e : Enc} {c k : Code} {b : Byte} (h : trieRead e.trie c b = some k) (n : Code) :
    pdInsert c b n e = e := by
  simp only [pdInsert, h]

/-- `PD.INSERT` of a missing extension writes its cell (R135). -/
theorem pdInsert_of_none {e : Enc} {c : Code} {b : Byte} (h : trieRead e.trie c b = none) (n : Code) :
    pdInsert c b n e = { e with trie := trieWrite e.trie c b n } := by
  simp only [pdInsert, h]

/-- Settles O23: an insertion writes the missing child of the phrase's node, and leaves a present one. -/
theorem insertGivesThePhraseItsCode : Obligations.InsertGivesThePhraseItsCode := by
  refine ⟨dictCode_nil, fun e p b c n hp hr => ?_, fun e b c n k hk => pdInsert_of_some hk n⟩
  rw [pdInsert_of_none hr]
  refine ⟨?_, fun q k => dictCode_trieWrite_of_none hr⟩
  rw [dictCode_snoc, dictCode_trieWrite_of_none hr hp, Option.bind_some, trieRead_trieWrite, if_pos ⟨rfl, rfl⟩]

end Sys2Proof.Machine
end

section
/-! PROOF. The codeword table: its seeds and a registration (42_codeword_table.md R147, R150). -/

namespace Sys2Proof.Machine

/-! ### The seeded table -/

/-- Slot `b` of the seeded table holds the one-byte phrase `[b]` (R147). -/
theorem tblRead_ctSeed_byte (d : Dec) (b : Byte) : tblRead (ctSeed d).tbl b.toNat = some (Phrase.single b) := by
  rw [ctSeed, tblRead_nil, if_pos b.isLt, BitVec.ofNat_toNat, BitVec.setWidth_eq]

/-- A slot above the bytes is empty in the seeded table (R147). -/
theorem tblRead_ctSeed_of_le (d : Dec) {i : Nat} (h : 256 ≤ i) : tblRead (ctSeed d).tbl i = none := by
  rw [ctSeed, tblRead_nil, if_neg (Nat.not_lt.2 h)]

/-! ### A registration -/

/-- The bytes of an extension. -/
@[simp] theorem Phrase.snoc_toList (p : Phrase) (b : Byte) : (p.snoc b).toList = p.toList ++ [b] := rfl

/-- The table after `CT.REGISTER`: slot NEXT holds `PREV ++ [s[0]]`, every other slot what it held (R150, R62). -/
theorem tblRead_ctRegister {d : Dec} (h : Cells.Wf tblDefault d.tbl) (s : Phrase) (i : Nat) :
    tblRead (ctRegister s d).tbl i = if i = d.regs.next.toNat then some (d.prev.snoc s.first) else tblRead d.tbl i :=
  tblRead_tblWrite h _ i _

/-- Settles O24: a seeded slot is read off the table's default, a registered one off the write to slot NEXT; the fields that
`CT.REGISTER` does not write are untouched by definition. -/
theorem registerWritesSlotNext : Obligations.RegisterWritesSlotNext := by
  refine ⟨tblRead_ctSeed_byte, fun d i h _ => tblRead_ctSeed_of_le d (by omega), fun s d hwf => ⟨?_, fun i hi => ?_, rfl, rfl⟩⟩
  · exact ⟨d.prev.snoc s.first, by rw [tblRead_ctRegister hwf, if_pos rfl], Phrase.snoc_toList _ _⟩
  · rw [tblRead_ctRegister hwf, if_neg hi]

end Sys2Proof.Machine
end

section
/-! PROOF. The width state machine's rows, the policies' answers and the threshold test (43_width_policy.md R160 to R169). -/

namespace Sys2Proof.Machine

/-! ### The threshold test -/

/-- The integer test, as a proposition (R163). -/
theorem Regs.ratioReached_iff {r : Regs} :
    r.ratioReached = true ↔ 11 * r.c0.toNat * r.u.toNat ≤ 10 * r.u0.toNat * r.c.toNat := decide_eq_true_iff

/-- Counts compared with themselves are at ratio 1, below the threshold (R168). -/
theorem Regs.ratioReached_of_same {r : Regs} (hu0 : r.u0 = r.u) (hc0 : r.c0 = r.c) (hu : 0 < r.u.toNat) (hc : 0 < r.c.toNat) :
    r.ratioReached = false := by
  rw [Bool.eq_false_iff, Ne, Regs.ratioReached_iff, hu0, hc0, not_le]
  calc 10 * r.u.toNat * r.c.toNat = 10 * (r.c.toNat * r.u.toNat) := by ring
    _ < 11 * (r.c.toNat * r.u.toNat) := Nat.mul_lt_mul_of_pos_right (by decide) (Nat.mul_pos hc hu)
    _ = 11 * r.c.toNat * r.u.toNat := by ring

/-- Settles O27: the fraction of fractions is one fraction, and comparing it with 11/10 is multiplying across. -/
theorem ratioTestIsTheExactFraction : Obligations.RatioTestIsTheExactFraction := by
  intro r hc0 hu hc
  have hden : (0 : ℚ) < r.c0.toNat * r.u.toNat := by positivity
  rw [Regs.ratioReached_iff, div_div_div_eq, div_le_div_iff₀ (by norm_num) hden]
  have hl : 11 * ((r.c0.toNat : ℚ) * r.u.toNat) = ((11 * r.c0.toNat * r.u.toNat : ℕ) : ℚ) := by push_cast; ring
  have hr : (r.u0.toNat : ℚ) * r.c.toNat * 10 = ((10 * r.u0.toNat * r.c.toNat : ℕ) : ℚ) := by push_cast; ring
  rw [hl, hr, Nat.cast_le]

/-! ### The policies -/

theorem chooseAction_of_none {r : Regs} (h : r.mode = .none) : chooseAction r = (.keepFrozen, r) := by simp [chooseAction, h]

theorem chooseAction_of_reset {r : Regs} (h : r.mode = .reset) : chooseAction r = (.doReset, r) := by simp [chooseAction, h]

theorem chooseAction_of_monitor {r : Regs} (h : r.mode = .monitor) :
    chooseAction r = (if r.latch.ratioReached then .doReset else .keepFrozen, r.latch) := by simp [chooseAction, h]

/-- The first policy call takes the counts (R163). -/
theorem Regs.latch_of_unlatched {r : Regs} (h : r.latched = false) : r.latch = { r with u0 := r.u, c0 := r.c, latched := true } := by
  simp [Regs.latch, h]

/-- Every later policy call keeps what the first took (R163). -/
theorem Regs.latch_of_latched {r : Regs} (h : r.latched = true) : r.latch = r := by simp [Regs.latch, h]

/-- Settles O26: under Monitor the first call compares the counts with themselves, a later one with those taken before. -/
theorem policyAnswers : Obligations.PolicyAnswers := by
  intro r
  refine ⟨chooseAction_of_none, chooseAction_of_reset, fun hm hl hu hc => ?_, fun hm hl => ?_⟩
  · have hr : Regs.ratioReached { r with u0 := r.u, c0 := r.c, latched := true } = false := Regs.ratioReached_of_same rfl rfl hu hc
    rw [chooseAction_of_monitor hm, Regs.latch_of_unlatched hl, hr]
    rfl
  · rw [chooseAction_of_monitor hm, Regs.latch_of_latched hl]
    simp only [Regs.ratioReached_iff, ge_iff_le]

/-! ### The rows of `ADVANCE` -/

/-- A width below 16 has room for one more in its five bits. -/
theorem width_add_one_toNat {w : BitVec 5} (h : w.toNat < 16) : (w + 1).toNat = w.toNat + 1 := by
  rw [BitVec.toNat_add, show (1 : BitVec 5).toNat = 1 from rfl, Nat.mod_eq_of_lt (by omega)]

/-- Settles O25: each row's conditions select its branch. -/
theorem advanceFollowsTheStateMachine : Obligations.AdvanceFollowsTheStateMachine := by
  intro r
  refine ⟨fun hlt => if_pos hlt, fun heq hw => ?_, fun hn hw => ?_⟩
  · have e : advance r = (.register, { r with w := r.w + 1 }) := by
      rw [advance, if_neg (by omega), if_pos hw]
    rw [e]
    exact ⟨rfl, width_add_one_toNat hw, rfl⟩
  · rw [advance, if_neg (by rw [hn, hw]; decide), if_neg (by rw [hw]; decide)]

end Sys2Proof.Machine
end

section
/-! PROOF. W from one step to the next (43_width_policy.md R162): which operations keep W and NEXT, what `ADVANCE` does to W, and that a
restart is the answer of a dictionary full at 16 bits. -/

namespace Sys2Proof.Machine

/-- A sequence whose first part establishes `P`, which is enough for `Q` where it stops there, ends in `Q` when its second part does. -/
theorem Run.EndsIn.bind_of_imp {σ α β : Type} {P Q : σ → Prop} {T : Prop} {r : Run σ α} {k : α → σ → Run σ β} (h : r.EndsIn P T)
    (hPQ : ∀ s, P s → Q s) (hk : ∀ a s, P s → (k a s).EndsIn Q T) : (r.bind k).EndsIn Q T := by
  cases r with
  | ok a s => exact hk a s h
  | raised s => exact hPQ s h
  | stuck f => exact h

/-- An operation on a part ends with the part put back. -/
theorem Run.EndsIn.lift {ρ σ α : Type} {P : σ → Prop} {T : Prop} {put : ρ → σ} {r : Run ρ α} (h : r.EndsIn (fun s => P (put s)) T) :
    (r.lift put).EndsIn P T := by
  cases r with
  | ok a s => exact h
  | raised s => exact h
  | stuck f => exact h

/-! ### The relations between the registers before and after -/

/-- W and NEXT are as they were. -/
def Regs.SameWidth (r q : Regs) : Prop := q.w = r.w ∧ q.next = r.next

/-- W is as it was or has risen by one, to at most 16. -/
def Regs.WidthRises (r q : Regs) : Prop := q.w = r.w ∨ (q.w.toNat = r.w.toNat + 1 ∧ q.w.toNat ≤ 16)

/-- A dictionary full at 16 bits was restarted. -/
def Regs.WidthRestarts (r q : Regs) : Prop := r.w = 16 ∧ r.next = 65536 ∧ q.w = 9 ∧ q.next = 258

/-- W as one step of a unit may change it (R162). -/
def Regs.WidthStep (r q : Regs) : Prop := r.WidthRises q ∨ r.WidthRestarts q

theorem Regs.SameWidth.refl (r : Regs) : r.SameWidth r := ⟨rfl, rfl⟩

theorem Regs.SameWidth.rises {r q : Regs} (h : r.SameWidth q) : r.WidthRises q := .inl h.1

/-- A width that has risen depends on W alone. -/
theorem Regs.WidthRises.of_w_eq {r q p : Regs} (h : r.WidthRises q) (hw : p.w = q.w) : r.WidthRises p := by
  unfold Regs.WidthRises; rwa [hw]

theorem Regs.SameWidth.raise {r q : Regs} (h : r.SameWidth q) (f : FaultCause) : r.SameWidth (q.raise f) :=
  ⟨(Regs.raise_w q f).trans h.1, (Regs.raise_next q f).trans h.2⟩

theorem Regs.SameWidth.countC {r q : Regs} (h : r.SameWidth q) (w : Nat) : (q.countC w).EndsIn r.SameWidth True := by
  rcases Regs.countC_cases w q with ⟨_, e⟩ | ⟨_, e⟩ <;> rw [e]
  · exact h
  · exact h.raise _

theorem Regs.SameWidth.countU {r q : Regs} (h : r.SameWidth q) (k : Nat) : (q.countU k).EndsIn r.SameWidth True := by
  rcases Regs.countU_cases k q with ⟨_, e⟩ | ⟨_, e⟩ <;> rw [e]
  · exact h
  · exact h.raise _

/-- A full dictionary at a legal width that cannot rise is full at 16 bits (R160). -/
theorem Regs.ActiveInv.full {r : Regs} (h : r.ActiveInv) (hn : 2 ^ r.w.toNat ≤ r.next.toNat) (hw : 16 ≤ r.w.toNat) :
    r.w = 16 ∧ r.next = 65536 := by
  obtain ⟨-, hw16, -, hnw, -⟩ := h
  have hw' : r.w.toNat = 16 := by omega
  rw [hw'] at hn hnw
  exact ⟨BitVec.eq_of_toNat_eq hw', BitVec.eq_of_toNat_eq (Nat.le_antisymm hnw hn)⟩

/-- The policy keeps W and NEXT (R163). -/
theorem chooseAction_sameWidth (r : Regs) : r.SameWidth (chooseAction r).2 := by
  obtain ⟨_, _, hl⟩ := r.latch_frame
  rcases chooseAction_cases r with ⟨_, e⟩ | ⟨_, e⟩ | ⟨_, _, e⟩ | ⟨_, _, e⟩ <;> rw [e]
  · exact .refl r
  · exact .refl r
  · rw [hl]; exact ⟨rfl, rfl⟩
  · rw [hl]; exact ⟨rfl, rfl⟩

/-- `ADVANCE`, W and NEXT still those of `r`, keeps W or raises it by one, and answers DoReset only for a dictionary full at 16 bits,
whose W it keeps (R160, R161). -/
theorem Regs.SameWidth.advance {r q : Regs} (hq : r.SameWidth q) (h : r.ActiveInv) :
    r.WidthRises (advance q).2 ∧
      ((advance q).1 = .doReset → r.SameWidth (advance q).2 ∧ r.w = 16 ∧ r.next = 65536) := by
  obtain ⟨hw, hn⟩ := hq
  rcases advance_cases q with ⟨_, e⟩ | ⟨_, hlt, e⟩ | ⟨hfull, h16, e⟩ <;> rw [e]
  · exact ⟨.inl hw, nofun⟩
  · have hrise := width_add_one_toNat hlt
    exact ⟨.inr ⟨hrise.trans (by rw [hw]), hrise.trans_le hlt⟩, nofun⟩
  · obtain ⟨hw', hn'⟩ := chooseAction_sameWidth q
    rw [hw, hn] at hfull
    rw [hw] at h16
    exact ⟨.inl (hw'.trans hw), fun _ => ⟨⟨hw'.trans hw, hn'.trans hn⟩, h.full hfull h16⟩⟩

/-! ### ENC -/

/-- ENC's W and NEXT are those of `r`. -/
def Enc.AtWidth (r : Regs) (e : Enc) : Prop := r.SameWidth e.regs

section
variable {r : Regs} {e : Enc}

theorem Enc.AtWidth.write (h : e.AtWidth r) (v w : Nat) : (bcWrite v w e).EndsIn (Enc.AtWidth r) True := by
  rcases bcWrite_cases v w e with ⟨_, e'⟩ | ⟨_, _, _, e'⟩ | ⟨_, _, _, e'⟩ <;> rw [e']
  · exact Regs.SameWidth.raise h _
  · exact Regs.SameWidth.raise h _
  · rw [Run.endsIn_ok, Enc.AtWidth, putBits_regs]; exact h

theorem Enc.AtWidth.countC (h : e.AtWidth r) (w : Nat) : (e.countC w).EndsIn (Enc.AtWidth r) True :=
  (Regs.SameWidth.countC h w).lift (put := e.withRegs)

theorem Enc.AtWidth.countU (h : e.AtWidth r) (k : Nat) : (e.countU k).EndsIn (Enc.AtWidth r) True :=
  (Regs.SameWidth.countU h k).lift (put := e.withRegs)

theorem Enc.AtWidth.flush (h : e.AtWidth r) : (bcFlush e).AtWidth r := by rw [Enc.AtWidth, bcFlush_regs]; exact h

/-- A data codeword keeps W and NEXT (R190). -/
theorem Enc.AtWidth.emit (h : e.AtWidth r) (c : Code) (l : Nat) : (encEmit c l e).EndsIn (Enc.AtWidth r) True :=
  (h.write _ _).bind fun _ _ h => (h.countC _).bind fun _ _ h => h.countU l

/-- A marker is written at the W in force; then W and NEXT are those of an empty dictionary (R173). -/
theorem Enc.AtWidth.doReset (h : e.AtWidth r) (hw : r.w = 16) (hn : r.next = 65536) :
    (doResetEnc e).EndsIn (fun t => r.WidthStep t.regs) True :=
  (h.write _ _).bind_of_imp (fun _ h => .inl h.rises) fun _ _ h => (h.countC _).bind_of_imp (fun _ h => .inl h.rises) fun _ _ _ =>
    Or.inr ⟨hw, hn, rfl, rfl⟩

/-- The three-way branch of ENC.STEP changes W as one step may (R190). -/
theorem Enc.AtWidth.advance (h : e.AtWidth r) (hr : r.ActiveInv) (c : Code) (b : Byte) :
    (encAdvance c b e).EndsIn (fun t => r.WidthStep t.regs) True := by
  obtain ⟨hrises, hfull⟩ := Regs.SameWidth.advance h hr
  unfold encAdvance
  generalize Machine.advance e.regs = ar at hrises hfull ⊢
  obtain ⟨a, q⟩ := ar
  cases a with
  | register => exact .inl hrises
  | keepFrozen => exact .inl hrises
  | doReset =>
    obtain ⟨hq, hw, hn⟩ := hfull rfl
    exact Enc.AtWidth.doReset (e := e.withRegs q) hq hw hn

/-- ENC.STEP with input left changes W as one step may (R190). -/
theorem Enc.AtWidth.symbol (h : e.AtWidth r) (hr : r.ActiveInv) : (encSymbol e).EndsIn (fun t => r.WidthStep t.regs) True := by
  have hlpm : (pdLpm e).EndsIn (Enc.AtWidth r) True := by
    unfold pdLpm; split
    · exact Regs.SameWidth.raise h _
    · exact h
  refine hlpm.bind_of_imp (fun _ h => .inl h.rises) fun m e h => ?_
  refine (h.emit _ _).bind_of_imp (fun _ h => .inl h.rises) fun _ e h => ?_
  refine Run.EndsIn.bind ?_ fun _ _ h => h
  cases srcPeek e m.2 with
  | none => exact .inl h.rises
  | some b => exact h.advance hr m.1 b

/-- ENC.FINISH keeps W or raises it by one, for EOS (R195). -/
theorem encFinish_width (e : Enc) : (encFinish e).EndsIn (fun t => e.regs.WidthStep t.regs) True := by
  have hrises : e.regs.WidthRises (encEosWidth e).regs := by
    unfold encEosWidth; split
    · next hlt =>
      have hrise := width_add_one_toNat hlt.2
      exact .inr ⟨hrise, hrise.trans_le hlt.2⟩
    · exact .inl rfl
  have after {t : Enc} (h : t.AtWidth (encEosWidth e).regs) : e.regs.WidthStep t.regs := .inl (hrises.of_w_eq h.1)
  have h : (encEosWidth e).AtWidth (encEosWidth e).regs := .refl _
  exact (h.write _ _).bind_of_imp (fun _ => after) fun _ _ h => (h.countC _).bind_of_imp (fun _ => after) fun _ _ h => after h.flush

/-- ENC.STEP of a started unit changes W as one step may (R162). -/
theorem encStep_width {e : Enc} (he : e.regs.st = .active) (hr : e.regs.ActiveInv) :
    (encStep e).EndsIn (fun t => e.regs.WidthStep t.regs) True := by
  rw [encStep, Enc.require_of_eq he]
  split
  · exact encFinish_width e
  · exact Enc.AtWidth.symbol (.refl _) hr

end

/-! ### DEC -/

/-- W is as it was in `d`; so is NEXT, and nothing is pending, where nothing was pending in `d`. -/
def Dec.KeepsWidth (d t : Dec) : Prop := t.regs.w = d.regs.w ∧ (d.pending = false → t.pending = false ∧ t.regs.next = d.regs.next)

section
variable {d t : Dec}

theorem Dec.KeepsWidth.refl (d : Dec) : d.KeepsWidth d := ⟨rfl, fun h => ⟨h, rfl⟩⟩

theorem Dec.KeepsWidth.withRegs (h : d.KeepsWidth t) {q : Regs} (hq : t.regs.SameWidth q) : d.KeepsWidth (t.withRegs q) :=
  ⟨hq.1.trans h.1, fun hp => ⟨(h.2 hp).1, hq.2.trans (h.2 hp).2⟩⟩

theorem Dec.KeepsWidth.raise (h : d.KeepsWidth t) (f : FaultCause) : d.KeepsWidth (t.raise f) :=
  h.withRegs ((Regs.SameWidth.refl t.regs).raise f)

/-- Reading a symbol's bits keeps W and NEXT (R117, R171). -/
theorem Dec.KeepsWidth.symRead (h : d.KeepsWidth t) (w : Nat) : (symRead w t).EndsIn d.KeepsWidth True := by
  have hread : (bcRead w t).EndsIn d.KeepsWidth True := by
    rcases bcRead_cases w t with ⟨_, e⟩ | ⟨_, _, _, e⟩ | ⟨_, _, _, e⟩ <;> rw [e]
    · exact h.raise _
    · exact h.raise _
    · exact h
  refine hread.bind fun _ t h => Run.EndsIn.bind (Run.EndsIn.lift ?_) fun _ _ h => h
  exact ((Regs.SameWidth.refl t.regs).countC w).mono fun _ hq => h.withRegs hq

/-- The tail of DEC.STEP keeps W, and registers nothing where nothing is pending (R150, R210). -/
theorem Dec.KeepsWidth.tail (h : d.KeepsWidth t) (s : Phrase) : (symTail s t).EndsIn d.KeepsWidth True := by
  rcases symTail_cases s t with ⟨_, e⟩ | ⟨_, e⟩ <;> rw [e]
  · refine ⟨h.1, fun hp => ⟨rfl, ?_⟩⟩
    obtain ⟨hp', hn⟩ := h.2 hp
    simpa [Dec.output, hp'] using hn
  · exact Dec.KeepsWidth.raise (t := snkPutAll s.toList t) h _

theorem Dec.KeepsWidth.ended (h : d.KeepsWidth t) : d.KeepsWidth t.ended := ⟨h.1, fun hp => ⟨rfl, (h.2 hp).2⟩⟩

theorem Dec.KeepsWidth.resolve (h : d.KeepsWidth t) (x : Nat) : (ctResolve x t).EndsIn d.KeepsWidth True := by
  rcases ctResolve_cases x t with ⟨_, e⟩ | ⟨_, _, _, p, _, e⟩ | ⟨_, _, _, _, e⟩ | ⟨_, _, _, _, e⟩ | ⟨_, e⟩ <;> rw [e]
  · exact h
  · exact h
  · trivial
  · exact h
  · exact h.raise _

/-- A codeword keeps W, and NEXT where nothing is pending (R210). -/
theorem Dec.KeepsWidth.codeword (h : d.KeepsWidth t) : t.codeword.EndsIn d.KeepsWidth True := by
  unfold Dec.codeword
  split
  · refine (h.symRead _).bind fun x t h => ?_
    unfold codeEffect
    split
    · exact h.ended
    · exact (h.resolve x).bind fun p _ h => h.tail p
  · trivial

/-- The head of DEC.STEP changes W and NEXT as `ADVANCE` does (R210, R211). -/
theorem decHead_width (hr : d.regs.ActiveInv) :
    d.regs.WidthRises (decHead d).2.regs ∧
      ((decHead d).1 = .doReset → d.regs.SameWidth (decHead d).2.regs ∧ d.regs.w = 16 ∧ d.regs.next = 65536) := by
  rcases decHead_cases d with ⟨_, e⟩ | ⟨_, e⟩ <;> rw [e]
  · exact ⟨.inl rfl, nofun⟩
  · exact (Regs.SameWidth.refl d.regs).advance hr

/-- W and NEXT are those of an empty dictionary, and nothing is pending (R174). -/
def Dec.Emptied (d : Dec) : Prop := d.regs.w = 9 ∧ d.regs.next = 258 ∧ d.pending = false

theorem Dec.Emptied.of_keepsWidth (h : d.Emptied) (ht : d.KeepsWidth t) : t.Emptied := by
  obtain ⟨hw, hn, hp⟩ := h
  obtain ⟨hp', hn'⟩ := ht.2 hp
  exact ⟨ht.1.trans hw, hn'.trans hn, hp'⟩

/-- The marker slot keeps W and NEXT, or leaves those of an empty dictionary (R174, R217). -/
theorem Dec.marker_width (d : Dec) : d.marker.EndsIn (fun t => d.KeepsWidth t ∨ t.Emptied) True := by
  refine ((Dec.KeepsWidth.refl d).symRead 16).bind_of_imp (fun _ => .inl) fun x t h => ?_
  unfold markerEffect
  split
  · exact .inl h.ended
  · exact .inr ⟨rfl, rfl, rfl⟩

/-- DEC.STEP of a started unit changes W as one step may (R162). -/
theorem Dec.step_width (hr : d.regs.ActiveInv) : d.step.EndsIn (fun t => d.regs.WidthStep t.regs) True := by
  obtain ⟨hrises, hfull⟩ := decHead_width hr
  unfold Dec.step
  generalize decHead d = ad at hrises hfull ⊢
  obtain ⟨a, y⟩ := ad
  have kept {t : Dec} (h : y.KeepsWidth t) : d.regs.WidthStep t.regs := .inl (hrises.of_w_eq h.1)
  have codeword : y.codeword.EndsIn (fun t => d.regs.WidthStep t.regs) True := (Dec.KeepsWidth.refl y).codeword.mono fun _ => kept
  cases a with
  | register => exact codeword
  | keepFrozen => exact codeword
  | doReset =>
    obtain ⟨-, hw, hn⟩ := hfull rfl
    suffices h : (y.marker.bind fun _ t => if t.regs.st = .active then t.codeword else .ok () t).EndsIn
        (fun t => y.KeepsWidth t ∨ t.Emptied) True from
      h.mono fun _ h => h.elim kept fun ⟨hw9, hn258, _⟩ => .inr ⟨hw, hn, hw9, hn258⟩
    refine y.marker_width.bind fun _ t h => ?_
    split
    · rcases h with h | h
      · exact h.codeword.mono fun _ => .inl
      · exact (Dec.KeepsWidth.refl t).codeword.mono fun _ h' => .inr (h.of_keepsWidth h')
    · exact h

end

/-- Settles O54: a command runs on its unit alone, whose registers meet the invariant of a started unit. -/
theorem widthRisesByOneOrRestarts : Obligations.WidthRisesByOneOrRestarts := by
  intro s t ⟨he, hd⟩
  refine ⟨fun ht hs hexec => ?_, fun ht hs hexec => ?_⟩
  · rw [exec_of_enc rfl ht] at hexec
    obtain ⟨-, -, -, hrun⟩ := he
    obtain ⟨hregs, -⟩ := hrun hs
    obtain ⟨e, h, rfl⟩ := (encStep_width (e := s.enc.answered) hs hregs).of_next hexec
    exact or_assoc.1 h
  · rw [exec_of_dec rfl ht] at hexec
    have hstep : decOp .decStep s.dec.answered = s.dec.answered.step := Dec.require_of_eq (d := s.dec.answered) hs _
    rw [hstep] at hexec
    obtain ⟨d, h, rfl⟩ := (Dec.step_width (d := s.dec.answered) (hd.running hs).regs).of_next hexec
    exact or_assoc.1 h

end Sys2Proof.Machine
end

section
/-! PROOF. ENC.STEP with input left in its parts, and repeated: ENC.RUN does not depend on the bound of its loop (44_encoder.md R190,
R197; 70_reset_and_hazards.md R275). -/

namespace Sys2Proof.Machine

/-! ### The parts of ENC.STEP with input left -/

/-- The match of `PD.LPM` on a source that is not empty (R134). -/
theorem pdLpm_of_cons {e : Enc} {b : Byte} {bs : List Byte} (hsrc : e.src = b :: bs) :
    pdLpm e = .ok (lpmWalk e.trie (seedCode b) 1 bs) e := by rw [pdLpm, hsrc]

section
variable {e : Enc} {b : Byte} {bs : List Byte} {m : Code × Nat}

/-- A codeword that raises ends ENC.STEP there (R240). -/
theorem encSymbol_of_raised {t : Enc} (hlpm : pdLpm e = .ok m e) (h : encEmit m.1 m.2 e = .raised t) : encSymbol e = .raised t := by
  rw [encSymbol, hlpm, Run.bind_ok, h, Run.bind_raised]

/-- A match of the whole input is emitted and consumed (R190). -/
theorem encSymbol_of_end (hlpm : pdLpm e = .ok m e) (h : encEmit m.1 m.2 e = .ok () (e.emitted m.1 m.2)) (hx : e.src[m.2]? = none) :
    encSymbol e = .ok () (srcTake m.2 (e.emitted m.1 m.2)) := by
  simp only [encSymbol, hlpm, Run.bind_ok, h, srcPeek, Enc.emitted_src, hx]

/-- A match that the byte `x` follows is emitted, `ADVANCE` acts on `x`, and the match is consumed (R190). -/
theorem encSymbol_of_next {x : Byte} (hlpm : pdLpm e = .ok m e) (h : encEmit m.1 m.2 e = .ok () (e.emitted m.1 m.2))
    (hx : e.src[m.2]? = some x) :
    encSymbol e = (encAdvance m.1 x (e.emitted m.1 m.2)).bind fun _ t => .ok () (srcTake m.2 t) := by
  simp only [encSymbol, hlpm, Run.bind_ok, h, srcPeek, Enc.emitted_src, hx]

end

/-! ### ENC.RUN is repeated ENC.STEP -/

/-- What ADVANCE's arm keeps where it completes; C grows by at most the width of a marker (R190). -/
theorem encAdvance_ok {c : Code} {x : Byte} {e t : Enc} (ht : encAdvance c x e = .ok () t) :
    t.rsp = e.rsp ∧ t.regs.st = e.regs.st ∧ t.regs.mode = e.regs.mode ∧ t.regs.u = e.regs.u ∧
      t.regs.c.toNat ≤ e.regs.c.toNat + (advance e.regs).2.w.toNat := by
  rcases encAdvance_cases c x e with ⟨_, e'⟩ | ⟨_, e'⟩ | ⟨_, ⟨_, _, e'⟩ | ⟨hc, e'⟩⟩ <;> rw [e'] at ht <;> cases ht
  · have hrsp : (pdInsert c x e.regs.next e).rsp = e.rsp := by
      rcases pdInsert_cases c x e.regs.next e with ⟨_, hi⟩ | ⟨_, hi⟩ <;> rw [hi]
    exact ⟨hrsp, advance_st _, advance_mode _, advance_u _, by simp⟩
  · exact ⟨rfl, advance_st _, advance_mode _, advance_u _, by simp⟩
  · refine ⟨putBits_rsp _ _, advance_st _, advance_mode _, advance_u _, ?_⟩
    rw [Enc.withRegs_regs] at hc
    exact (count_add_toNat hc).trans_le (by rw [advance_c])

/-- A step that leaves ENC started has consumed input and kept the answer (R190, R275). -/
theorem encStep_progress {e t : Enc} (hs : e.regs.st = .active) (ht : encStep e = .ok () t) (hts : t.regs.st = .active) :
    t.src.length < e.src.length ∧ t.rsp = e.rsp := by
  cases hsrc : e.src with
  | nil =>
    have : t.regs.st = .done := by rw [encStep_of_nil hs hsrc ht]; rfl
    rw [this] at hts; cases hts
  | cons b bs =>
    rw [encStep_of_cons hs hsrc] at ht
    rcases encSymbol_cases hsrc with ⟨_, _, e'⟩ | ⟨_, _, _, _, _, t', e', ht'⟩ <;> rw [e'] at ht <;> cases ht
    have hl := (lpmWalk_length e.trie (seedCode b) 1 bs).1
    obtain ⟨hsrc', hrsp⟩ : t'.src = e.src ∧ t'.rsp = e.rsp := by
      rcases ht' with ⟨_, rfl⟩ | ⟨x, _, hadv⟩
      · exact ⟨Enc.emitted_src _ _ _, putBits_rsp _ _⟩
      · exact ⟨(encAdvance_src hadv).trans (Enc.emitted_src _ _ _), (encAdvance_ok hadv).1.trans (putBits_rsp _ _)⟩
    refine ⟨?_, hrsp⟩
    rw [srcTake, List.length_drop, hsrc', hsrc, List.length_cons]
    omega

/-- A run does not depend on a bound above the bytes left (R275, log 19). -/
theorem encLoop_eq_of_lt {n m : Nat} {e : Enc} (hn : e.src.length < n) (hm : e.src.length < m) : encLoop n e = encLoop m e := by
  induction n generalizing m e with
  | zero => omega
  | succ n ih =>
    obtain ⟨m, rfl⟩ := Nat.exists_eq_succ_of_ne_zero (show m ≠ 0 by omega)
    by_cases hs : e.regs.st = .active
    · rw [encLoop, encLoop, if_pos hs, if_pos hs]
      cases h : encStep e with
      | raised t => rfl
      | stuck f => rfl
      | ok _ t =>
        by_cases hts : t.regs.st = .active
        · have := (encStep_progress hs h hts).1
          exact ih (by omega) (by omega)
        · exact (encLoop_of_ne hts n).trans (encLoop_of_ne hts m).symm
    · rw [encLoop_of_ne hs, encLoop_of_ne hs]

/-- Where ENC.STEP raises, the unit is in FAULT. -/
theorem encStep_raised {e t : Enc} (hs : e.regs.st = .active) (ht : encStep e = .raised t) : t.regs.st = .fault := by
  cases hsrc : e.src with
  | nil =>
    rw [encStep, Enc.require_of_eq hs, if_pos hsrc] at ht
    rcases encFinish_cases e with ⟨_, hx, e'⟩ | e' <;> rw [e'] at ht <;> cases ht
    exact hx.st
  | cons b bs =>
    rw [encStep_of_cons hs hsrc] at ht
    rcases encSymbol_cases hsrc with ⟨_, hx, e'⟩ | ⟨_, _, _, _, _, _, e', _⟩ <;> rw [e'] at ht <;> cases ht
    exact hx.st

/-- The first step of a run, then the rest of it (R197). -/
theorem encRun_eq {e : Enc} (hs : e.regs.st = .active) : encRun e = (encStep e).bind fun _ t => encLoop e.src.length t := by
  rw [encRun, encLoop, if_pos hs]

/-- A run of a started ENC runs on ENC alone (R197). -/
theorem exec_encRun_of_active {s : State} (ht : s.target = .enc) (hs : s.enc.regs.st = .active) :
    exec .encRun s = (encRun s.enc.answered).outcome s.withEnc := by
  refine (encCommand_of_enc ht _).trans ?_
  rw [Enc.require_of_eq (e := { s.enc with rsp := none }) hs]
  rfl

/-- A step of a started ENC runs on ENC alone (R190). -/
theorem exec_encStep {s : State} (ht : s.target = .enc) : exec .encStep s = (encStep s.enc.answered).outcome s.withEnc :=
  encCommand_of_enc ht _

/-- Settles O32: a step that leaves ENC started has consumed input, so the rest of the run has a bound above the bytes left; one that
raises or ends the stream is the run's last. -/
theorem encRunIsRepeatedStep : Obligations.EncRunIsRepeatedStep := by
  intro s s1 ht hs hstep
  rw [exec_encRun_of_active ht hs, encRun_eq (e := s.enc.answered) hs]
  rw [exec_encStep ht] at hstep
  cases h : encStep s.enc.answered with
  | raised x =>
    rw [h] at hstep
    cases hstep
    have hx : x.regs.st = .fault := encStep_raised (e := s.enc.answered) hs h
    exact ⟨fun hx' => absurd (hx.symm.trans hx') nofun, fun _ => rfl⟩
  | stuck f => rw [h] at hstep; cases hstep
  | ok _ x =>
    rw [h] at hstep
    cases hstep
    rw [Run.bind_ok]
    refine ⟨fun hx => ?_, fun hx => by rw [encLoop_of_ne (e := x) hx]; rfl⟩
    obtain ⟨hlen, hrsp⟩ := encStep_progress (e := s.enc.answered) hs h hx
    have hx' : x.answered = x := by cases x; cases hrsp; rfl
    rw [exec_encRun_of_active (s := s.withEnc x) ht hx, State.withEnc_enc, hx', encRun, encLoop_eq_of_lt hlen (Nat.lt_succ_self _)]
    rfl

end Sys2Proof.Machine
end

section
/-! PROOF. The byte-serial form of the encoder (44_encoder.md R198; 41_prefix_dictionary.md R138).  It walks the trie as PD.LPM does, a byte
at a time, and hands the same match to the same codeword and the same arm of ADVANCE, none of which looks at the source. -/

namespace Sys2Proof.Machine

/-! ### Operations that do not look at the source -/

/-- ENC with another source. -/
def Enc.withSrc (src : List Byte) (e : Enc) : Enc := { e with src := src }

@[simp] theorem Enc.withSrc_regs (src : List Byte) (e : Enc) : (e.withSrc src).regs = e.regs := rfl
@[simp] theorem Enc.withSrc_trie (src : List Byte) (e : Enc) : (e.withSrc src).trie = e.trie := rfl
@[simp] theorem Enc.withSrc_acc (src : List Byte) (e : Enc) : (e.withSrc src).acc = e.acc := rfl

/-- An operation that neither reads nor writes the source. -/
def SourceFree (op : Enc → Run Enc Unit) : Prop := ∀ src e, op (e.withSrc src) = (op e).lift (Enc.withSrc src)

section
variable {op op' : Enc → Run Enc Unit}

theorem SourceFree.bind (h : SourceFree op) (h' : SourceFree op') : SourceFree fun e => (op e).bind fun _ e => op' e := by
  intro src e
  simp only [h src e]
  cases op e with
  | ok _ t => exact h' src t
  | raised t => rfl
  | stuck f => rfl

/-- A change of ENC that does not look at the source may come before. -/
theorem SourceFree.comp {g : Enc → Enc} (h : SourceFree op) (hg : ∀ src e, g (e.withSrc src) = (g e).withSrc src) :
    SourceFree fun e => op (g e) := fun src e => by simp only [hg, h src (g e)]

theorem putBits_withSrc (src : List Byte) (e : Enc) (bits : List Bool) :
    putBits (e.withSrc src) bits = (putBits e bits).withSrc src := by
  induction bits generalizing e with
  | nil => rfl
  | cons b bs ih =>
    have : putBit (e.withSrc src) b = (putBit e b).withSrc src := by
      unfold putBit; rw [apply_ite (Enc.withSrc src)]; rfl
    exact (congrArg (fun e => putBits e bs) this).trans (ih _)

/-- A value written at a width that does not depend on the source (R112). -/
theorem sourceFree_write (v : Nat) : SourceFree fun e => bcWrite v e.regs.w.toNat e := by
  intro src e
  simp only [bcWrite, Enc.withSrc_regs, putBits_withSrc]
  split
  · rfl
  · split <;> rfl

theorem sourceFree_countC : SourceFree fun e => e.countC e.regs.w.toNat := by
  intro src e
  change (e.regs.countC e.regs.w.toNat).lift _ = ((e.regs.countC e.regs.w.toNat).lift _).lift _
  cases e.regs.countC e.regs.w.toNat <;> rfl

theorem sourceFree_countU (k : Nat) : SourceFree fun e => e.countU k := by
  intro src e
  change (e.regs.countU k).lift _ = ((e.regs.countU k).lift _).lift _
  cases e.regs.countU k <;> rfl

theorem sourceFree_encEmit (c : Code) (l : Nat) : SourceFree (encEmit c l) :=
  (sourceFree_write c.toNat).bind (sourceFree_countC.bind (sourceFree_countU l))

theorem sourceFree_doResetEnc : SourceFree doResetEnc :=
  (sourceFree_write _).bind (sourceFree_countC.bind fun _ _ => rfl)

theorem sourceFree_encFinish : SourceFree encFinish := by
  have flush : SourceFree fun e => .ok () ((bcFlush e).withRegs { (bcFlush e).regs with st := .done }) := fun src e => by
    have : bcFlush (e.withSrc src) = (bcFlush e).withSrc src := by
      unfold bcFlush; rw [apply_ite (Enc.withSrc src)]; rfl
    simp only [this]
    rfl
  refine ((sourceFree_write _).bind (sourceFree_countC.bind flush)).comp (g := encEosWidth) fun src e => ?_
  unfold encEosWidth
  rw [apply_ite (Enc.withSrc src)]
  rfl

theorem sourceFree_encAdvance (c : Code) (b : Byte) : SourceFree (encAdvance c b) := by
  intro src e
  have hi (n : Code) : pdInsert c b n (e.withSrc src) = (pdInsert c b n e).withSrc src := by
    simp only [pdInsert, Enc.withSrc_trie]
    split <;> rfl
  simp only [encAdvance, Enc.withSrc_regs, hi]
  split
  · rfl
  · rfl
  · exact sourceFree_doResetEnc src (e.withRegs _)

end

/-! ### The walk, a byte at a time -/

/-- Bytes fed to the byte-serial unit lead from a node to where the walk of `PD.LPM` ends; the bytes after the match are left (R138). -/
theorem serialFeed_walk (e : Enc) (c : Code) (l : Nat) (bs : List Byte) :
    serialFeed bs ⟨e, some c, l⟩ =
      serialFeed (bs.drop ((lpmWalk e.trie c l bs).2 - l)) ⟨e, some (lpmWalk e.trie c l bs).1, (lpmWalk e.trie c l bs).2⟩ := by
  induction bs generalizing c l with
  | nil => simp [lpmWalk]
  | cons b bs ih =>
    cases hr : pdChild e.trie c b with
    | none => simp [lpmWalk, hr]
    | some n =>
      have := (lpmWalk_length e.trie n (l + 1) bs).1
      simp only [lpmWalk, hr]
      rw [show (lpmWalk e.trie n (l + 1) bs).2 - l = (lpmWalk e.trie n (l + 1) bs).2 - (l + 1) + 1 by omega, List.drop_succ_cons, ← ih]
      simp only [serialFeed, serialByte, hr, Run.bind_ok]

/-! ### The run and the byte-serial form -/

/-- The state at which an operation ends, seen through `f`. -/
theorem Run.final_map {σ ρ α : Type} (r : Run σ α) (f : σ → ρ) : r.final.map f = (r.lift f).final := by cases r <;> rfl

/-- With no input left a run is ENC.FINISH (R195, R197). -/
theorem encLoop_of_nil {e : Enc} (hs : e.regs.st = .active) (hsrc : e.src = []) (n : Nat) : encLoop (n + 1) e = encFinish e := by
  rw [encLoop, if_pos hs, encStep, Enc.require_of_eq hs, if_pos hsrc]
  rcases encFinish_cases e with ⟨t, _, h⟩ | h <;> rw [h]
  · rfl
  · exact encLoop_of_ne (e := (encEosWidth e).closed) nofun n

/-- The rest of the byte-serial form from a unit on, as an operation on its ENC: the bytes left, then the end (R198). -/
def serialRun (bs : List Byte) (x : SerialEnc) : Run Enc Unit :=
  ((serialFeed bs x).bind fun _ x => serialEnd x).lift SerialEnc.enc

/-- The end of the input ends the phrase: its codeword, then ENC.FINISH (R198). -/
theorem serialRun_nil (e : Enc) (c : Code) (l : Nat) :
    serialRun [] ⟨e, some c, l⟩ = (encEmit c l e).bind fun _ e => encFinish e := by
  simp only [serialRun, serialFeed, serialEnd, Run.bind_ok]
  cases (encEmit c l e).bind fun _ e => encFinish e <;> rfl

/-- A byte that the trie does not follow ends the phrase: its codeword, ADVANCE's arm, and a new phrase begun (R198). -/
theorem serialRun_mismatch {e : Enc} {c : Code} {x : Byte} (hx : trieRead e.trie c x = none) (l : Nat) (xs : List Byte) :
    serialRun (x :: xs) ⟨e, some c, l⟩ =
      (encEmit c l e).bind fun _ e => (encAdvance c x e).bind fun _ e => serialRun xs ⟨e, some (seedCode x), 1⟩ := by
  rw [serialRun, serialFeed, serialByte_mismatch (x := ⟨e, some c, l⟩) rfl hx, ← Run.bind_assoc]
  dsimp only
  cases (encEmit c l e).bind fun _ e => encAdvance c x e <;> rfl

/-- From the first byte of a phrase the byte-serial form comes to the match of `PD.LPM`, the bytes after it left (R138). -/
theorem serialRun_seed (e : Enc) (b : Byte) (bs : List Byte) :
    let m := lpmWalk e.trie (seedCode b) 1 bs
    serialRun bs ⟨e, some (seedCode b), 1⟩ = serialRun ((b :: bs).drop m.2) ⟨e, some m.1, m.2⟩ := by
  intro m
  have hl : 1 ≤ m.2 := (lpmWalk_length e.trie (seedCode b) 1 bs).1
  rw [serialRun, serialFeed_walk, serialRun, show (b :: bs).drop m.2 = bs.drop (m.2 - 1) by
    rw [show m.2 = m.2 - 1 + 1 by omega, List.drop_succ_cons, Nat.add_sub_cancel]]

/-- A run with input left ends as the byte-serial form does that has already taken the first byte of the match (R138, R198). -/
theorem encLoop_eq_serialRun (n : Nat) (src : List Byte) {e : Enc} {b : Byte} {bs : List Byte} (hs : e.regs.st = .active)
    (hsrc : e.src = b :: bs) (hn : bs.length + 1 < n) :
    (encLoop n e).lift (Enc.withSrc []) = (serialRun bs ⟨e.withSrc src, some (seedCode b), 1⟩).lift (Enc.withSrc []) := by
  induction n generalizing e b bs with
  | zero => omega
  | succ n ih =>
    obtain ⟨n, rfl⟩ := Nat.exists_eq_succ_of_ne_zero (show n ≠ 0 by omega)
    have hlpm := pdLpm_of_cons hsrc
    obtain ⟨hl, -⟩ := lpmWalk_length e.trie (seedCode b) 1 bs
    have hstop (x : Byte) (hx : e.src[(lpmWalk e.trie (seedCode b) 1 bs).2]? = some x) :
        trieRead e.trie (lpmWalk e.trie (seedCode b) 1 bs).1 x = none := by
      rw [hsrc, List.getElem?_cons, if_neg (by omega)] at hx
      exact lpmWalk_stop e.trie (seedCode b) 1 bs hx
    rw [encLoop, if_pos hs, encStep_of_cons hs hsrc, serialRun_seed, Enc.withSrc_trie, ← hsrc]
    generalize lpmWalk e.trie (seedCode b) 1 bs = m at hlpm hl hstop ⊢
    have hget : e.src[m.2]? = (e.src.drop m.2)[0]? := by rw [List.getElem?_drop, Nat.add_zero]
    have taken {t : Enc} (ht : t.src = e.src) : (srcTake m.2 t).src = e.src.drop m.2 := congrArg (List.drop m.2) ht
    have hemit := sourceFree_encEmit m.1 m.2 src e
    cases hrest : e.src.drop m.2 with
    | nil =>
      rw [hrest] at hget taken
      rw [serialRun_nil, hemit]
      rcases encEmit_cases m.1 m.2 e with ⟨t, _, h⟩ | ⟨_, _, _, _, h⟩
      · rw [encSymbol_of_raised hlpm h, h]
        rfl
      · have hnil : (srcTake m.2 (e.emitted m.1 m.2)).src = [] := taken (Enc.emitted_src _ _ _)
        rw [encSymbol_of_end hlpm h hget, h, Run.bind_ok, Run.lift_ok, Run.bind_ok,
          encLoop_of_nil (e := srcTake _ (e.emitted m.1 m.2)) hs hnil]
        exact (sourceFree_encFinish [] _).symm.trans (sourceFree_encFinish [] ((e.emitted m.1 m.2).withSrc src))
    | cons x xs =>
      rw [hrest] at hget taken
      rw [serialRun_mismatch (e := e.withSrc src) (hstop x hget), hemit]
      rcases encEmit_cases m.1 m.2 e with ⟨t, _, h⟩ | ⟨_, _, _, _, h⟩
      · rw [encSymbol_of_raised hlpm h, h]
        rfl
      · rw [encSymbol_of_next hlpm h hget, h, Run.lift_ok, Run.bind_ok, sourceFree_encAdvance]
        cases hadv : encAdvance m.1 x (e.emitted m.1 m.2) with
        | raised t => rfl
        | stuck f => rfl
        | ok _ t =>
          have hlen : xs.length + 1 ≤ bs.length := by
            have := congrArg List.length hrest
            rw [List.length_drop, hsrc, List.length_cons, List.length_cons] at this
            omega
          exact ih (e := srcTake m.2 t) ((encAdvance_ok hadv).2.1.trans hs) (taken ((encAdvance_src hadv).trans (Enc.emitted_src _ _ _)))
            (by omega)

/-- Settles O33: the first byte makes CUR a seed; from there on both forms emit the same matches, and the source decides nothing else. -/
theorem byteSerialFormWritesTheSameStream : Obligations.ByteSerialFormWritesTheSameStream := by
  intro e hs
  have key : (encRun e).lift (Enc.withSrc []) = (serialRun e.src (SerialEnc.start e)).lift (Enc.withSrc []) := by
    cases hsrc : e.src with
    | nil =>
      rw [encRun, encLoop_of_nil hs hsrc, serialRun]
      change _ = (((encFinish e).lift _).lift _).lift _
      cases encFinish e <;> rfl
    | cons b bs =>
      rw [encRun, hsrc]
      exact encLoop_eq_serialRun _ e.src hs hsrc (Nat.lt_succ_self _)
  have final := congrArg Run.final key
  rw [← Run.final_map, ← Run.final_map, serialRun, ← Run.final_map, Option.map_map] at final
  exact final

end Sys2Proof.Machine
end

section
/-! PROOF. ENC.START, and one ENC.STEP exactly: what is written, and where a count overflows (44_encoder.md R186, R190, R195;
43_width_policy.md R172, R173; 60_exceptions.md R240). -/

namespace Sys2Proof.Machine

/-! ### ENC.START -/

/-- Settles O28: a mode's bits select it, and 3 is the one encoding that selects none. -/
theorem encStartBeginsAStreamOrRefusesModeThree : Obligations.EncStartBeginsAStreamOrRefusesModeThree := by
  intro s ht hs
  have start (v : BitVec 2) : exec (.encStart v) s = (encStart v s.enc.answered).outcome s.withEnc := encCommand_of_idle ht hs _
  refine ⟨fun m => ?_, ?_⟩
  · rw [start, encStart_bits]
    cases m <;> rfl
  · have hne : s.enc.answered.regs.st ≠ .fault := by simp [Enc.answered, hs]
    rw [start, ← Enc.raise_of_ne_fault hne]
    rfl

/-! ### A value written at the width W and counted -/

/-- ENC after a value was written at the width W, not yet counted (R112). -/
def Enc.wrote (v : Nat) (e : Enc) : Enc := putBits e (natBits e.regs.w.toNat v)

@[simp] theorem Enc.wrote_regs (v : Nat) (e : Enc) : (e.wrote v).regs = e.regs := putBits_regs _ _

/-- `t` is `e` with the registers `r`, after the bits `bits` were written. -/
structure Enc.WroteTo (e : Enc) (bits : List Bool) (r : Regs) (t : Enc) : Prop where
  written : written t = written e ++ bits
  acc : t.acc.length < 8
  regs : t.regs = r
  trie : t.trie = e.trie
  src : t.src = e.src
  rsp : t.rsp = e.rsp

/-- A value written at the width W, whatever the registers are set to after it (R112). -/
theorem Enc.wroteTo {e : Enc} (h : e.acc.length < 8) (v : Nat) (r : Regs) :
    e.WroteTo (natBits e.regs.w.toNat v) r ((e.wrote v).withRegs r) where
  written := (putBits_written h _).1
  acc := (putBits_written h _).2
  regs := rfl
  trie := putBits_trie _ _
  src := putBits_src _ _
  rsp := putBits_rsp _ _

/-- The registers after a value written at the width W was counted in C (R171). -/
def Regs.countedC (r : Regs) : Regs := { r with c := r.c + BitVec.ofNat 64 r.w.toNat }

/-- The registers after a count overflowed: CounterOverflow, the counter kept (R172, R240). -/
def Regs.overflowed (r : Regs) : Regs := { r with st := .fault, faultCode := 7 }

/-- CounterOverflow in a started ENC changes ST and FAULT_CODE alone (R172, R240). -/
theorem Enc.raise_counterOverflow {e : Enc} (hs : e.regs.st = .active) : e.raise .counterOverflow = e.withRegs e.regs.overflowed :=
  Enc.raise_of_ne_fault (by simp [hs]) _

/-- A started ENC at whose width W the value fits a BC.WRITE (R112). -/
structure Enc.Fits (v : Nat) (e : Enc) : Prop where
  st : e.regs.st = .active
  pos : 1 ≤ e.regs.w.toNat
  le : e.regs.w.toNat ≤ 32
  lt : v < 2 ^ e.regs.w.toNat

section
variable {e : Enc} {v : Nat}

theorem Enc.Fits.write (h : e.Fits v) : bcWrite v e.regs.w.toNat e = .ok () (e.wrote v) := bcWrite_of_fits h.pos h.le h.lt e

/-- A C that would overflow stops ENC after the write (R172, R240). -/
theorem Enc.Fits.countC_overflow (h : e.Fits v) (hc : 2 ^ 64 ≤ e.regs.c.toNat + e.regs.w.toNat) :
    ((bcWrite v e.regs.w.toNat e).bind fun _ e => e.countC e.regs.w.toNat) =
      .raised ((e.wrote v).withRegs e.regs.overflowed) := by
  rw [h.write, Run.bind_ok, Enc.countC_of_le (by rwa [Enc.wrote_regs]), Enc.raise_counterOverflow (by rw [Enc.wrote_regs, h.st]),
    Enc.wrote_regs]

/-- A C that has room takes the width (R171). -/
theorem Enc.Fits.countC (h : e.Fits v) (hc : e.regs.c.toNat + e.regs.w.toNat < 2 ^ 64) :
    ((bcWrite v e.regs.w.toNat e).bind fun _ e => e.countC e.regs.w.toNat) =
      .ok () ((e.wrote v).withRegs e.regs.countedC) := by
  rw [h.write, Run.bind_ok, Enc.countC_of_lt (by rwa [Enc.wrote_regs]), Enc.wrote_regs, count_eq_add]
  rfl

/-! ### The parts of ENC.STEP -/

/-- The codeword whose width overflows C (R172). -/
theorem encEmit_overflow_c {c : Code} (h : e.Fits c.toNat) (l : Nat) (hc : 2 ^ 64 ≤ e.regs.c.toNat + e.regs.w.toNat) :
    encEmit c l e = .raised ((e.wrote c.toNat).withRegs e.regs.overflowed) := by
  rw [encEmit, ← Run.bind_assoc, h.countC_overflow hc, Run.bind_raised]

/-- The codeword whose match overflows U: C has taken the width (R172). -/
theorem encEmit_overflow_u {c : Code} {l : Nat} (h : e.Fits c.toNat) (hc : e.regs.c.toNat + e.regs.w.toNat < 2 ^ 64)
    (hu : 2 ^ 64 ≤ e.regs.u.toNat + 8 * l) :
    encEmit c l e = .raised ((e.wrote c.toNat).withRegs e.regs.countedC.overflowed) := by
  rw [encEmit, ← Run.bind_assoc, h.countC hc, Run.bind_ok, Enc.countU_of_le (e := (e.wrote c.toNat).withRegs e.regs.countedC) hu,
    Enc.raise_counterOverflow (e := (e.wrote c.toNat).withRegs e.regs.countedC) h.st]
  rfl

/-- The codeword with room in both counters (R190). -/
theorem encEmit_of_room {c : Code} {l : Nat} (h : e.Fits c.toNat) (hc : e.regs.c.toNat + e.regs.w.toNat < 2 ^ 64)
    (hu : e.regs.u.toNat + 8 * l < 2 ^ 64) : encEmit c l e = .ok () (e.emitted c l) := by
  rw [encEmit, ← Run.bind_assoc, h.countC hc, Run.bind_ok, Enc.countU_of_lt (e := (e.wrote c.toNat).withRegs e.regs.countedC) hu,
    count_eq_add]
  rfl

/-- The marker that overflows C: the dictionary is kept (R172, R173). -/
theorem doResetEnc_overflow (h : e.Fits Config.codeRst) (hc : 2 ^ 64 ≤ e.regs.c.toNat + e.regs.w.toNat) :
    doResetEnc e = .raised ((e.wrote Config.codeRst).withRegs e.regs.overflowed) := by
  rw [doResetEnc, ← Run.bind_assoc, h.countC_overflow hc, Run.bind_raised]

/-- The marker with room in C (R173). -/
theorem doResetEnc_of_room (h : e.Fits Config.codeRst) (hc : e.regs.c.toNat + e.regs.w.toNat < 2 ^ 64) :
    doResetEnc e = .ok () e.marked := by
  rw [doResetEnc, ← Run.bind_assoc, h.countC hc, Run.bind_ok]
  rfl

/-- EOS that overflows C: nothing is flushed (R172, R195). -/
theorem encFinish_overflow (h : (encEosWidth e).Fits Config.codeEos)
    (hc : 2 ^ 64 ≤ (encEosWidth e).regs.c.toNat + (encEosWidth e).regs.w.toNat) :
    encFinish e = .raised (((encEosWidth e).wrote Config.codeEos).withRegs (encEosWidth e).regs.overflowed) := by
  rw [encFinish, ← Run.bind_assoc, h.countC_overflow hc, Run.bind_raised]

/-- EOS with room in C ends the stream (R195). -/
theorem encFinish_of_room (h : (encEosWidth e).Fits Config.codeEos)
    (hc : (encEosWidth e).regs.c.toNat + (encEosWidth e).regs.w.toNat < 2 ^ 64) :
    encFinish e = .ok () (encEosWidth e).closed := by
  rcases encFinish_cases e with ⟨t, _, hr⟩ | hok
  · rw [encFinish, ← Run.bind_assoc, h.countC hc] at hr
    cases hr
  · exact hok

/-! ### A running ENC -/

/-- At a legal width the markers and EOS fit (R23, R112). -/
theorem Enc.fits_of_lt (hs : e.regs.st = .active) (h9 : 9 ≤ e.regs.w.toNat) (h16 : e.regs.w.toNat ≤ 16) (hv : v < 512) : e.Fits v :=
  ⟨hs, by omega, by omega, hv.trans_le (Nat.pow_le_pow_right (n := 2) (by omega) h9)⟩

/-- The code of a node fits the width in force (R40). -/
theorem Enc.Running.fits_node (h : e.Running) {c : Code} (hc : IsNode e.regs.next.toNat c) : e.Fits c.toNat := by
  obtain ⟨h9, h16, _, hn, _⟩ := h.regs
  exact ⟨h.st, by omega, by omega, hc.2.trans_le hn⟩

/-- ENC at another width. -/
def Enc.widened (w : Nat) (e : Enc) : Enc := e.withRegs { e.regs with w := BitVec.ofNat 5 w }

/-- The width of EOS is W or, when the dictionary is full below 16 bits, one more; all else is as it was (R195). -/
theorem encEosWidth_eq (e : Enc) {w : Nat}
    (hw : w = if e.regs.next.toNat = 2 ^ e.regs.w.toNat ∧ e.regs.w.toNat < 16 then e.regs.w.toNat + 1 else e.regs.w.toNat) :
    (encEosWidth e).regs.w.toNat = w ∧ encEosWidth e = e.widened w := by
  have hwidth : (encEosWidth e).regs.w.toNat = w := by
    rw [hw]
    unfold encEosWidth Config.wMax
    split
    · next h => exact width_add_one_toNat h.2
    · rfl
  obtain ⟨v, he⟩ := encEosWidth_frame e
  refine ⟨hwidth, ?_⟩
  rw [he, Enc.withRegs_regs] at hwidth
  rw [he, Enc.widened, ← hwidth, BitVec.ofNat_toNat, BitVec.setWidth_eq]

/-- The width of EOS is legal (R23, R195). -/
theorem Enc.Running.eosWidth_bounds (h : e.Running) : 9 ≤ (encEosWidth e).regs.w.toNat ∧ (encEosWidth e).regs.w.toNat ≤ 16 := by
  obtain ⟨h9, h16, -⟩ := h.regs
  rw [(encEosWidth_eq e rfl).1]
  split <;> omega

/-- EOS fits its width (R195). -/
theorem Enc.Running.fits_eos (h : e.Running) : (encEosWidth e).Fits Config.codeEos := by
  obtain ⟨h9, h16⟩ := h.eosWidth_bounds
  have hs : (encEosWidth e).regs.st = .active := by rw [(encEosWidth_eq e rfl).2]; exact h.st
  exact Enc.fits_of_lt hs h9 h16 (by decide)

/-- The stream that ENC.FINISH closes: all bits written, EOS, fewer than eight zero bits (R195). -/
theorem Enc.closed_snk (h : e.acc.length < 8) : ∃ pad, pad < 8 ∧
    bytesToBits e.closed.snk = written e ++ natBits e.regs.w.toNat 256 ++ List.replicate pad false := by
  obtain ⟨hwritten, hacc⟩ := putBits_written h (natBits e.regs.w.toNat Config.codeEos)
  exact ⟨_, Nat.mod_lt _ (by omega), (bcFlush_written hacc).trans (by rw [hwritten])⟩

end

@[simp] theorem Enc.closed_trie (e : Enc) : e.closed.trie = e.trie := (bcFlush_trie _).trans (putBits_trie _ _)
@[simp] theorem Enc.closed_src (e : Enc) : e.closed.src = e.src := (bcFlush_src _).trans (putBits_src _ _)
@[simp] theorem Enc.closed_rsp (e : Enc) : e.closed.rsp = e.rsp := (bcFlush_rsp _).trans (putBits_rsp _ _)
@[simp] theorem Enc.closed_acc (e : Enc) : e.closed.acc = [] := bcFlush_acc _

/-! ### ENC.STEP at the end of the input -/

/-- Settles O30: EOS fits its width, so only the count of C can stop ENC.FINISH. -/
theorem encStepAtTheEndWritesEos : Obligations.EncStepAtTheEndWritesEos := by
  intro s ht hs hinv hsrc w
  obtain ⟨-, -, -, hrun⟩ := Enc.inv_iff.1 hinv.answered
  have run := hrun hs
  have hexec : exec .encStep s = (encFinish s.enc.answered).outcome s.withEnc := by
    rw [exec_encStep ht, encStep, Enc.require_of_eq (e := s.enc.answered) hs, if_pos (show s.enc.answered.src = [] from hsrc)]
  have overflow := encFinish_overflow run.fits_eos
  have room := encFinish_of_room run.fits_eos
  obtain ⟨hw, he⟩ := encEosWidth_eq s.enc.answered (w := w) rfl
  rw [hw] at overflow room
  rw [he] at hw overflow room
  by_cases hc : 2 ^ 64 ≤ s.enc.regs.c.toNat + w
  · rw [overflow hc] at hexec
    have hx := Enc.wroteTo (e := s.enc.answered.widened w) run.acc Config.codeEos (s.enc.answered.widened w).regs.overflowed
    rw [hw] at hx
    refine ⟨_, hexec, hx.trie, hx.src.trans hsrc, hx.rsp, rfl, rfl, rfl, ?_⟩
    rw [if_pos hc]
    exact ⟨hx.written, hx.acc, rfl⟩
  · rw [room (Nat.lt_of_not_le hc)] at hexec
    have hsnk := Enc.closed_snk (e := s.enc.answered.widened w) run.acc
    have hregs : (s.enc.answered.widened w).closed.regs = { (s.enc.answered.widened w).regs with
      c := s.enc.regs.c + BitVec.ofNat 64 (s.enc.answered.widened w).regs.w.toNat, st := .done } := rfl
    rw [hw] at hsnk hregs
    refine ⟨_, hexec, Enc.closed_trie _, (Enc.closed_src _).trans hsrc, Enc.closed_rsp _, rfl, rfl, rfl, ?_⟩
    rw [if_neg hc]
    exact ⟨hsnk, Enc.closed_acc _, hregs⟩

end Sys2Proof.Machine
end

section
/-! PROOF. ENC.STEP with input left, exactly (44_encoder.md R190; 43_width_policy.md R160, R172, R173). -/

namespace Sys2Proof.Machine

/-! ### The three arms of `ADVANCE` -/

section
variable {e : Enc} {r : Regs} {c : Code} {x : Byte}

/-- Register: the missing extension of the match goes under NEXT (R135, R190). -/
theorem encAdvance_of_register (h : advance e.regs = (.register, r)) (hx : trieRead e.trie c x = none) :
    encAdvance c x e = .ok () { e with regs := { r with next := r.next + 1 }, trie := trieWrite e.trie c x r.next } := by
  simp only [encAdvance, h, pdInsert_of_none hx]
  rfl

/-- KeepFrozen: the dictionary stays (R190). -/
theorem encAdvance_of_keepFrozen (h : advance e.regs = (.keepFrozen, r)) : encAdvance c x e = .ok () (e.withRegs r) := by
  simp only [encAdvance, h]

/-- DoReset: the marker, then an empty dictionary (R173, R190). -/
theorem encAdvance_of_doReset (h : advance e.regs = (.doReset, r)) : encAdvance c x e = doResetEnc (e.withRegs r) := by
  simp only [encAdvance, h]

/-- The marker fits the 16 bits at which a running ENC meets it (R160, R173). -/
theorem Enc.Running.fits_marker (h : e.Running) (hu : 0 < e.regs.u.toNat) (ha : advance e.regs = (.doReset, r)) :
    r.w = 16 ∧ (e.withRegs r).Fits Config.codeRst := by
  obtain ⟨_, _, hw⟩ := h.regs.advance hu
  have hst := advance_st e.regs
  rw [ha] at hw hst
  have hw : r.w = 16 := hw rfl
  refine ⟨hw, Enc.fits_of_lt (hst.trans h.st) ?_ ?_ (by decide)⟩ <;> rw [Enc.withRegs_regs, hw] <;> decide

/-- DoReset at a running ENC: the marker is written in 16 bits; C takes them and the dictionary is cleared, or C overflows (R172,
R173). -/
theorem Enc.Running.doReset_cases (h : e.Running) (hu : 0 < e.regs.u.toNat) (ha : advance e.regs = (.doReset, r)) :
    (2 ^ 64 ≤ r.c.toNat + 16 ∧ ∃ t, encAdvance c x e = .raised t ∧ e.WroteTo (natBits 16 257) r.overflowed t) ∨
      (r.c.toNat + 16 < 2 ^ 64 ∧ ∃ t, encAdvance c x e = .ok () { t with trie := [] } ∧
        e.WroteTo (natBits 16 257) { r with c := r.c + 16, w := 9, next := 258 } t) := by
  obtain ⟨hw, hfits⟩ := h.fits_marker hu ha
  have hw' : (e.withRegs r).regs.w.toNat = 16 := congrArg BitVec.toNat hw
  have wrote (q : Regs) : e.WroteTo _ q _ := { Enc.wroteTo (e := e.withRegs r) h.acc Config.codeRst q with }
  rw [hw'] at wrote
  rw [encAdvance_of_doReset ha]
  by_cases hc : 2 ^ 64 ≤ r.c.toNat + 16
  · exact .inl ⟨hc, _, doResetEnc_overflow hfits (by rw [hw']; exact hc), wrote _⟩
  · have hc' := Nat.lt_of_not_le hc
    refine .inr ⟨hc', _, (doResetEnc_of_room hfits (by rw [hw']; exact hc')).trans ?_, wrote _⟩
    have hr : { r.restart with c := r.c + BitVec.ofNat 64 r.w.toNat } = { r with c := r.c + 16, w := 9, next := 258 } := by
      rw [hw]; rfl
    rw [← hr]
    rfl

end

/-! ### The step -/

/-- The match of a running ENC that still has input: its node, its length, and that no child of the node follows (R134). -/
theorem Enc.Running.lpm_ok {e : Enc} (h : e.Running) {m : Code × Nat} (hm : pdLpm e = .ok m e) :
    IsNode e.regs.next.toNat m.1 ∧ 1 ≤ m.2 ∧ m.2 ≤ e.src.length ∧ ∀ x, e.src[m.2]? = some x → trieRead e.trie m.1 x = none := by
  cases hsrc : e.src with
  | nil => rw [pdLpm, hsrc] at hm; cases hm
  | cons b bs =>
    obtain ⟨hnode, hl, hlen, -, hstop⟩ := h.lpm hsrc
    rw [pdLpm_of_cons hsrc] at hm
    cases hm
    rw [hsrc] at hlen hstop
    exact ⟨hnode, hl, hlen, hstop⟩

/-- The answer does not enter the match. -/
theorem pdLpm_answered {e : Enc} {m : Code × Nat} (hm : pdLpm e = .ok m e) : pdLpm e.answered = .ok m e.answered := by
  cases hsrc : e.src with
  | nil => rw [pdLpm, hsrc] at hm; cases hm
  | cons b bs =>
    rw [pdLpm_of_cons hsrc] at hm
    cases hm
    exact pdLpm_of_cons (e := e.answered) hsrc

/-- Settles O29: the node's code fits W and the marker fits 16 bits, so only the three counts can stop the step; where none does, the match
is emitted, `ADVANCE`'s answer selects the arm, and the match leaves the source. -/
theorem encStepEmitsTheLongestMatch : Obligations.EncStepEmitsTheLongestMatch := by
  intro s b bs m ht hs hinv hsrc hm w counted r bits
  obtain ⟨-, -, -, hrun⟩ := Enc.inv_iff.1 hinv.answered
  have run : s.enc.answered.Running := hrun hs
  have hlpm := pdLpm_answered hm
  obtain ⟨hnode, hl, -, hstop⟩ := run.lpm_ok hlpm
  have hfits := run.fits_node hnode
  have wrote (q : Regs) : s.enc.answered.WroteTo (natBits w m.1.toNat) q ((s.enc.answered.wrote m.1.toNat).withRegs q) :=
    Enc.wroteTo run.acc _ q
  have hexec : exec .encStep s = (encSymbol s.enc.answered).outcome s.withEnc := by
    rw [exec_encStep ht, encStep_of_cons (e := s.enc.answered) hs hsrc]
  by_cases hc : 2 ^ 64 ≤ s.enc.regs.c.toNat + w
  · rw [encSymbol_of_raised hlpm (encEmit_overflow_c hfits m.2 hc)] at hexec
    have hx := wrote s.enc.regs.overflowed
    simp only [if_pos hc]
    exact ⟨_, hexec, rfl, rfl, rfl, hx.rsp, hx.acc, hx.written, rfl, hx.trie, hx.src⟩
  have hc' := Nat.lt_of_not_le hc
  by_cases hu : 2 ^ 64 ≤ s.enc.regs.u.toNat + 8 * m.2
  · rw [encSymbol_of_raised hlpm (encEmit_overflow_u hfits hc' hu)] at hexec
    have hx := wrote counted.overflowed
    simp only [if_neg hc, if_pos hu]
    exact ⟨_, hexec, rfl, rfl, rfl, hx.rsp, hx.acc, hx.written, rfl, hx.trie, hx.src⟩
  have hu' := Nat.lt_of_not_le hu
  simp only [if_neg hc, if_neg hu]
  have hemit := encEmit_of_room hfits hc' hu'
  have run' := run.emitted m.1 m.2 hc'
  have hx : s.enc.answered.WroteTo (natBits w m.1.toNat) r (s.enc.answered.emitted m.1 m.2) := wrote r
  have hu0 : 0 < (s.enc.answered.emitted m.1 m.2).regs.u.toNat := by
    have : (s.enc.answered.emitted m.1 m.2).regs.u.toNat = s.enc.regs.u.toNat + 8 * m.2 := count_add_toNat hu'
    omega
  have taken := congrArg (List.drop m.2) hx.src
  cases hget : s.enc.src[m.2]? with
  | none =>
    rw [encSymbol_of_end hlpm hemit hget] at hexec
    exact ⟨_, hexec, rfl, rfl, rfl, hx.rsp, hx.acc, hx.written, rfl, hx.trie, taken⟩
  | some x =>
    rw [encSymbol_of_next hlpm hemit hget] at hexec
    have hchild := hstop x hget
    rw [← hx.trie] at hchild
    dsimp only
    cases hadv : advance r with
    | mk a r' =>
    cases a with
    | register =>
      have hnext := advance_next r
      rw [hadv] at hnext
      rw [encAdvance_of_register hadv hchild, hx.trie] at hexec
      rw [← hnext]
      exact ⟨_, hexec, rfl, rfl, rfl, hx.rsp, hx.acc, hx.written, rfl, rfl, taken⟩
    | keepFrozen =>
      rw [encAdvance_of_keepFrozen hadv] at hexec
      exact ⟨_, hexec, rfl, rfl, rfl, hx.rsp, hx.acc, hx.written, rfl, hx.trie, taken⟩
    | doReset =>
      rcases run'.doReset_cases hu0 hadv with ⟨hcm, y, hy, hwrote⟩ | ⟨hcm, y, hy, hwrote⟩ <;> rw [hy] at hexec
      · simp only [if_pos hcm]
        exact ⟨_, hexec, rfl, rfl, rfl, hwrote.rsp.trans hx.rsp, hwrote.acc, hwrote.written.trans (congrArg (· ++ _) hx.written),
          hwrote.regs, hwrote.trie.trans hx.trie, hwrote.src.trans hx.src⟩
      · simp only [if_neg (Nat.not_le_of_lt hcm)]
        exact ⟨_, hexec, rfl, rfl, rfl, hwrote.rsp.trans hx.rsp, hwrote.acc, hwrote.written.trans (congrArg (· ++ _) hx.written),
          hwrote.regs, rfl, congrArg (List.drop m.2) (hwrote.src.trans hx.src)⟩

end Sys2Proof.Machine
end

section
/-! PROOF. ENC.RUN with room in its counters ends the stream (44_encoder.md R197; 70_reset_and_hazards.md R275). -/

namespace Sys2Proof.Machine

/-- The counters have room for the input left: 8 bits of U a byte; 32 bits of C a byte, and 16 for EOS (R275). -/
def Enc.Room (e : Enc) : Prop :=
  e.regs.u.toNat + 8 * e.src.length < 2 ^ 64 ∧ e.regs.c.toNat + 32 * e.src.length + 16 < 2 ^ 64

/-- `t` is `e` with the next `l` bytes of the input covered: the answer and MODE kept, U raised by 8 bits a byte, C by at most `k`
bits. -/
structure Enc.Covered (l k : Nat) (e t : Enc) : Prop where
  src : t.src = e.src.drop l
  rsp : t.rsp = e.rsp
  mode : t.regs.mode = e.regs.mode
  u : t.regs.u.toNat = e.regs.u.toNat + 8 * l
  c : t.regs.c.toNat ≤ e.regs.c.toNat + k

theorem Enc.Covered.trans {l l' k k' : Nat} {e t y : Enc} (h : e.Covered l k t) (h' : t.Covered l' k' y) :
    e.Covered (l + l') (k + k') y where
  src := by rw [h'.src, h.src, List.drop_drop]
  rsp := h'.rsp.trans h.rsp
  mode := h'.mode.trans h.mode
  u := by rw [h'.u, h.u]; ring
  c := by have := h.c; have := h'.c; omega

section
variable {e : Enc}

/-- ADVANCE's arm completes where C has room for a marker (R172, R190). -/
theorem Enc.Running.advance_of_room (h : e.Running) (hu : 0 < e.regs.u.toNat) (hc : e.regs.c.toNat + 16 < 2 ^ 64) (c : Code)
    (x : Byte) : ∃ t, encAdvance c x e = .ok () t := by
  rcases encAdvance_cases c x e with ⟨_, h'⟩ | ⟨_, h'⟩ | ⟨ha, _⟩
  · exact ⟨_, h'⟩
  · exact ⟨_, h'⟩
  · obtain ⟨hw, hfits⟩ := h.fits_marker hu (r := (advance e.regs).2) (Prod.ext ha rfl)
    rw [encAdvance_of_doReset (Prod.ext ha rfl)]
    refine ⟨_, doResetEnc_of_room hfits ?_⟩
    rw [Enc.withRegs_regs, hw, advance_c]
    exact hc

/-- ENC.STEP with input left completes where the counters have room, covers its match and writes at most 32 bits (R275). -/
theorem Enc.Running.step_of_room (h : e.Running) (hsrc : e.src ≠ []) (hroom : e.Room) :
    ∃ t l, encStep e = .ok () t ∧ t.Running ∧ 1 ≤ l ∧ l ≤ e.src.length ∧ e.Covered l 32 t := by
  obtain ⟨b, bs, hcons⟩ := List.exists_cons_of_ne_nil hsrc
  have hlpm := pdLpm_of_cons hcons
  obtain ⟨hnode, hl, hlen, hstop⟩ := h.lpm_ok hlpm
  generalize lpmWalk e.trie (seedCode b) 1 bs = m at hlpm hnode hl hlen hstop
  obtain ⟨-, h16, -⟩ := h.regs
  obtain ⟨hu, hc⟩ := hroom
  have hu' : e.regs.u.toNat + 8 * m.2 < 2 ^ 64 := by omega
  have hc' : e.regs.c.toNat + e.regs.w.toNat < 2 ^ 64 := by omega
  have hemit := encEmit_of_room (h.fits_node hnode) hc' hu'
  have hu1 : (e.emitted m.1 m.2).regs.u.toNat = e.regs.u.toNat + 8 * m.2 := count_add_toNat hu'
  have hc1 : (e.emitted m.1 m.2).regs.c.toNat = e.regs.c.toNat + e.regs.w.toNat := count_add_toNat hc'
  have run := h.emitted m.1 m.2 hc'
  have hrsp : (e.emitted m.1 m.2).rsp = e.rsp := putBits_rsp _ _
  rw [encStep_of_cons h.st hcons]
  suffices ∃ t, encSymbol e = .ok () (srcTake m.2 t) ∧ t.src = e.src ∧ t.rsp = e.rsp ∧ t.regs.mode = e.regs.mode ∧
      t.regs.u = (e.emitted m.1 m.2).regs.u ∧ t.regs.c.toNat ≤ (e.emitted m.1 m.2).regs.c.toNat + 16 by
    obtain ⟨t, hok, htsrc, htrsp, htmode, htu, htc⟩ := this
    exact ⟨_, m.2, hok, h.symbol hcons hok, hl, hlen, congrArg (List.drop m.2) htsrc, htrsp, htmode, by rw [← hu1, ← htu]; rfl,
      by change t.regs.c.toNat ≤ _; omega⟩
  cases hget : e.src[m.2]? with
  | none => exact ⟨_, encSymbol_of_end hlpm hemit hget, Enc.emitted_src _ _ _, hrsp, rfl, rfl, by omega⟩
  | some x =>
    obtain ⟨t, ht⟩ := run.advance_of_room (by omega) (by omega) m.1 x
    obtain ⟨⟨-, hw16, -⟩, -⟩ := run.regs.advance (by omega)
    obtain ⟨htrsp, -, htmode, htu, htc⟩ := encAdvance_ok ht
    refine ⟨t, by rw [encSymbol_of_next hlpm hemit hget, ht]; rfl, (encAdvance_src ht).trans (Enc.emitted_src _ _ _),
      htrsp.trans hrsp, htmode, htu, by omega⟩

/-- ENC.FINISH completes where C has room for EOS (R195). -/
theorem Enc.Running.finish_of_room (h : e.Running) (hc : e.regs.c.toNat + 16 < 2 ^ 64) :
    ∃ t, encFinish e = .ok () t ∧ t.regs.st = .done ∧ t.acc = [] ∧ e.Covered 0 16 t := by
  obtain ⟨-, h16⟩ := h.eosWidth_bounds
  obtain ⟨-, he⟩ := encEosWidth_eq e rfl
  have hroom : (encEosWidth e).regs.c.toNat + (encEosWidth e).regs.w.toNat < 2 ^ 64 := by
    rw [he] at h16 ⊢
    exact lt_of_le_of_lt (Nat.add_le_add_left h16 _) hc
  have hc' : (encEosWidth e).closed.regs.c.toNat = _ := count_add_toNat hroom
  refine ⟨_, encFinish_of_room h.fits_eos hroom, rfl, Enc.closed_acc _, ?_⟩
  rw [he] at h16 hc' ⊢
  exact ⟨Enc.closed_src _, Enc.closed_rsp _, rfl, rfl, hc'.trans_le (Nat.add_le_add_left h16 _)⟩

/-- A run whose counters have room ends the stream (R197, R275). -/
theorem Enc.Running.loop_of_room (h : e.Running) (hroom : e.Room) {n : Nat} (hn : e.src.length < n) :
    ∃ t, encLoop n e = .ok () t ∧ t.regs.st = .done ∧ t.acc = [] ∧ e.Covered e.src.length (32 * e.src.length + 16) t := by
  induction n generalizing e with
  | zero => omega
  | succ n ih =>
    by_cases hsrc : e.src = []
    · rw [encLoop_of_nil h.st hsrc, hsrc]
      obtain ⟨-, hc⟩ := hroom
      exact h.finish_of_room (by omega)
    · obtain ⟨t, l, hstep, hrun, hl, hlen, hcov⟩ := h.step_of_room hsrc hroom
      have htlen : t.src.length + l = e.src.length := by rw [hcov.src, List.length_drop]; omega
      have htroom : t.Room := by
        have := hcov.u; have := hcov.c
        unfold Enc.Room at hroom ⊢
        omega
      obtain ⟨y, hy, hdone, hacc, hcov'⟩ := ih hrun htroom (by omega)
      refine ⟨y, by rw [encLoop, if_pos h.st, hstep, Run.bind_ok, hy], hdone, hacc, ?_⟩
      have := hcov.trans hcov'
      rw [Nat.add_comm, htlen] at this
      exact { this with c := this.c.trans (by omega) }

end

/-- Settles O31: every step has room, covers at least one byte and writes at most 32 bits; EOS takes at most 16. -/
theorem encRunEndsTheStream : Obligations.EncRunEndsTheStream := by
  intro s ht hs hinv hu hc
  obtain ⟨-, -, -, hrun⟩ := Enc.inv_iff.1 hinv.answered
  have run : s.enc.answered.Running := hrun hs
  obtain ⟨t, hok, hdone, hacc, hcov⟩ := run.loop_of_room ⟨hu, hc⟩ (Nat.lt_succ_self _)
  have hexec : exec .encRun s = .next (s.withEnc t) := by
    rw [exec_encRun_of_active ht hs, encRun, hok]
    rfl
  exact ⟨_, hexec, hdone, hcov.src.trans (List.drop_length), hacc, hcov.rsp, hcov.mode, hcov.u, hcov.c, rfl, rfl, rfl⟩

end Sys2Proof.Machine
end

section
/-! PROOF. A codeword of each class, met by a unit that is ready for it (45_decoder.md R212 to R216). -/

namespace Sys2Proof.Machine

/-- The tail of DEC.STEP puts out a phrase that can be counted (R210). -/
theorem symTail_of_countable {p : Phrase} {d : Dec} (h : d.Countable p) : symTail p d = .ok () (d.output p) := by
  rcases symTail_cases p d with ⟨_, e⟩ | ⟨h', _⟩
  · exact e
  · exact absurd h (Nat.not_lt.2 h')

/-- A phrase handed to the tail by a codeword's symbol, its bits taken, is put out (R210). -/
theorem symTail_taken_outcome {s : State} {p : Phrase} (h : s.dec.Countable p) (w : Nat) :
    (symTail p (s.dec.taken w)).outcome s.withDec = .next (s.withDec ((s.dec.taken w).output p)) := by
  rw [symTail_of_countable (d := s.dec.taken w) h, Run.outcome_ok]

/-- Where a registration is pending, the table after the tail reads `PREV ++ [s[0]]` in slot NEXT (R150). -/
theorem tblRead_output_next {d : Dec} (hwf : Cells.Wf tblDefault d.tbl) (hpend : d.pending = true) (p : Phrase) :
    tblRead (d.output p).tbl d.regs.next.toNat = some (d.prev.snoc p.first) := by
  have htbl : (d.output p).tbl = tblWrite d.tbl d.regs.next.toNat (d.prev.snoc p.first) := if_pos hpend
  rw [htbl, tblRead_tblWrite hwf, if_pos rfl]

/-- Settles O37: LIT hands its byte to the tail. -/
theorem literalOutputsItsByte : Obligations.LiteralOutputsItsByte := fun _ byte _ hready hcount =>
  (exec_lit_of_ready hready byte).trans (symTail_taken_outcome hcount _)

/-- Settles O38: REF hands the phrase in its slot to the tail. -/
theorem referenceOutputsItsSlot : Obligations.ReferenceOutputsItsSlot := fun _ _ _ _ hready _ hlt hp hcount =>
  (exec_ref_of_ready hready hlt hp).trans (symTail_taken_outcome hcount _)

/-- Settles O39: KWKWK hands PREV and its first byte to the tail, whose registration is PREV and the first byte of that phrase. -/
theorem selfReferenceOutputsPrevAndItsFirstByte : Obligations.SelfReferenceOutputsPrevAndItsFirstByte := by
  intro f code s hready hcode hpend hwf p hcount
  refine ⟨(exec_kwkwk_of_ready hready hcode hpend).trans (symTail_taken_outcome hcount _), ?_⟩
  rw [hcode]
  exact tblRead_output_next (d := s.dec.taken f.width) hwf hpend p

/-- Settles O40: EOS acts on the unit with its bits taken. -/
theorem eosEndsTheStream : Obligations.EosEndsTheStream := fun f s hready =>
  (exec_eos f s).trans (decSymbol_of_ready hready _)

/-- Settles O41: RSTMARK raises on the unit with its bits taken, which is not in FAULT. -/
theorem markerInDataIsInvalid : Obligations.MarkerInDataIsInvalid := by
  intro f s hready
  have hne : (s.dec.taken f.width).regs.st ≠ .fault := by simp [hready.1]
  refine ((exec_rstmark f s).trans (decSymbol_of_ready hready _)).trans ?_
  rw [Dec.raise_of_ne_fault hne, Run.outcome_raised]

end Sys2Proof.Machine
end

section
/-! PROOF. DEC.STEP through decoded symbols is its pseudocode, and what it does on a codeword that CT.RESOLVE resolves (45_decoder.md R210
to R212; 43_width_policy.md R174; 42_codeword_table.md R149). -/

namespace Sys2Proof.Machine

/-! ### The commands on a started unit -/

/-- A step of a started DEC runs on DEC alone (R210). -/
theorem exec_decStep_of_active {s : State} (ht : s.target = .dec) (hs : s.dec.regs.st = .active) :
    exec .decStep s = s.dec.answered.step.outcome s.withDec := by
  rw [exec_of_dec rfl ht, decOp, Dec.require_of_eq (d := s.dec.answered) hs]

/-- A run of a started DEC runs on DEC alone (R220). -/
theorem exec_decRun_of_active {s : State} (ht : s.target = .dec) (hs : s.dec.regs.st = .active) :
    exec .decRun s = (Dec.loop (s.dec.answered.rem.length + 1) s.dec.answered).outcome s.withDec := by
  rw [exec_of_dec rfl ht, decOp, Dec.require_of_eq (d := s.dec.answered) hs]

/-- A unit that is not started makes no step in a run (R220). -/
theorem Dec.loop_of_ne {d : Dec} (hs : d.regs.st ≠ .active) (n : Nat) : Dec.loop n d = .ok () d := by
  cases n with
  | zero => rfl
  | succ n => rw [Dec.loop, if_neg hs]

/-! ### The width after the head -/

/-- `ADVANCE` keeps W legal, and answers DoReset only at 16 bits (R160). -/
theorem advance_width_bounds {r : Regs} (h9 : 9 ≤ r.w.toNat) (h16 : r.w.toNat ≤ 16) :
    9 ≤ (advance r).2.w.toNat ∧ (advance r).2.w.toNat ≤ 16 ∧ ((advance r).1 = .doReset → (advance r).2.w.toNat = 16) := by
  rcases advance_cases r with ⟨_, e⟩ | ⟨_, hlt, e⟩ | ⟨_, hge, e⟩ <;> rw [e]
  · exact ⟨h9, h16, nofun⟩
  · have hw := width_add_one_toNat hlt
    refine ⟨?_, ?_, nofun⟩ <;> rw [hw] <;> omega
  · have hw : (chooseAction r).2.w = r.w := by
      obtain ⟨_, _, hl⟩ := r.latch_frame
      rcases chooseAction_cases r with ⟨_, e⟩ | ⟨_, e⟩ | ⟨_, _, e⟩ | ⟨_, _, e⟩ <;> rw [e]
      · rw [hl]
      · rw [hl]
    rw [hw]
    exact ⟨h9, h16, fun _ => le_antisymm h16 hge⟩

/-- The head of DEC.STEP keeps W legal, and answers DoReset only at 16 bits (R210, R211). -/
theorem decHead_width_bounds {d : Dec} (h9 : 9 ≤ d.regs.w.toNat) (h16 : d.regs.w.toNat ≤ 16) :
    9 ≤ (decHead d).2.regs.w.toNat ∧ (decHead d).2.regs.w.toNat ≤ 16 ∧
      ((decHead d).1 = .doReset → (decHead d).2.regs.w.toNat = 16) := by
  rcases decHead_cases d with ⟨_, e⟩ | ⟨_, e⟩ <;> rw [e]
  · exact ⟨h9, h16, nofun⟩
  · exact advance_width_bounds h9 h16

/-! ### The pseudocode's lines -/

/-- The lines from `x <- BC.READ(W)` on are the codeword (R210). -/
theorem decStepRead_eq {d : Dec} (h9 : 9 ≤ d.regs.w.toNat) (h16 : d.regs.w.toNat ≤ 16) : decStepRead d = d.codeword := by
  rw [decStepRead, Dec.codeword, if_pos ⟨h9, h16⟩]
  simp only [symRead, Run.bind_assoc, Run.bind_ok]
  rcases bcRead_cases d.regs.w.toNat d with ⟨_, e⟩ | ⟨_, _, _, e⟩ | ⟨_, _, _, e⟩ <;> rw [e]
  · rfl
  · rfl
  · rfl

/-- At 16 bits the lines of `DO_RESET_DEC` read the marker slot, and its value tells Stop from Continue (R174). -/
theorem doResetDec_eq {d : Dec} (h16 : d.regs.w.toNat = 16) :
    doResetDec d = (symRead 16 d).bind fun x d =>
      if x = Config.codeEos then .ok false d.ended else .ok true { restartDec d with pending := false } := by
  simp only [doResetDec, h16, symRead, Run.bind_assoc, Run.bind_ok]
  rfl

/-- `DO_RESET_DEC` and, unless it answered Stop, the lines after it are the marker slot and, unless that ended the stream, the codeword
(R174, R210). -/
theorem doResetDec_decStepRead_eq {d : Dec} (hs : d.regs.st = .active) (h16 : d.regs.w.toNat = 16) :
    ((doResetDec d).bind fun go d => if go then decStepRead d else .ok () d) =
      d.marker.bind fun _ d => if d.regs.st = .active then d.codeword else .ok () d := by
  rw [doResetDec_eq h16, Dec.marker]
  rcases symRead_cases (w := 16) (by decide) (by decide) d with ⟨_, e⟩ | ⟨_, _, e⟩ | ⟨_, _, e⟩ <;> rw [e]
  · rfl
  · rfl
  · simp only [Run.bind_ok, markerEffect]
    split
    · rfl
    · change decStepRead d.restarted = if d.regs.st = .active then d.restarted.codeword else .ok () d.restarted
      rw [if_pos hs]
      exact decStepRead_eq (Nat.le_refl 9) (show 9 ≤ 16 by decide)

/-- `DEC.STEP()` as R210 writes it is the state test and the step (R210, R174, R149). -/
theorem decStepLines_eq {d : Dec} (h9 : 9 ≤ d.regs.w.toNat) (h16 : d.regs.w.toNat ≤ 16) :
    decStepLines d = Dec.require .active Dec.step d := by
  by_cases hs : d.regs.st = .active
  · rw [decStepLines, Dec.require_of_eq hs, Dec.require_of_eq hs, Dec.step]
    obtain ⟨h9', h16', hreset⟩ := decHead_width_bounds h9 h16
    have hst := (decHead_st d).trans hs
    generalize decHead d = ad at h9' h16' hreset hst
    obtain ⟨a, y⟩ := ad
    cases a with
    | register => exact decStepRead_eq h9' h16'
    | keepFrozen => exact decStepRead_eq h9' h16'
    | doReset => exact doResetDec_decStepRead_eq hst (hreset rfl)
  · rw [decStepLines, Dec.require_of_ne hs, Dec.require_of_ne hs]

/-- Settles O47: DEC.STEP is an operation on DEC alone, and its marker slot and codeword are the pseudocode's lines. -/
theorem decStepIsItsPseudocode : Obligations.DecStepIsItsPseudocode := by
  intro s ht h9 h16
  rw [exec_of_dec rfl ht, decStepLines_eq (d := s.dec.answered) h9 h16]
  rfl

/-! ### A step whose head does not clear the dictionary -/

section
variable {a : Action} {d : Dec} {p : Phrase}

/-- On a head that does not answer DoReset the step is the codeword, its bits taken (R210). -/
theorem Dec.step_of_head {d0 : Dec} (hhead : decHead d0 = (a, d)) (ha : a ≠ .doReset) (h9 : 9 ≤ d.regs.w.toNat)
    (h16 : d.regs.w.toNat ≤ 16) (hready : d.Ready d.regs.w.toNat) :
    d0.step = codeEffect (bitsToNat (d.rem.take d.regs.w.toNat)) (d.taken d.regs.w.toNat) := by
  obtain ⟨-, hl, hc⟩ := hready
  have hstep : d0.step = d.codeword := by
    rw [Dec.step, hhead]
    cases a with
    | register => rfl
    | keepFrozen => rfl
    | doReset => exact absurd rfl ha
  rw [hstep, Dec.codeword_of_le h9 h16 hl hc]

/-- CT.RESOLVE looks at the table, NEXT, PREV and PENDING, which the bits taken leave (R149). -/
theorem ctResolve_taken {x : Nat} (h : ctResolve x d = .ok p d) (w : Nat) : ctResolve x (d.taken w) = .ok p (d.taken w) := by
  rw [ctResolve, Dec.taken_next, Dec.taken_tbl, Dec.taken_pending]
  rcases ctResolve_cases x d with ⟨hx, e⟩ | ⟨h256, h257, hlt, q, hq, e⟩ | ⟨_, _, _, _, e⟩ | ⟨h256, h257, heq, hpend, e⟩ | ⟨_, e⟩ <;>
    rw [e] at h <;> cases h
  · rw [if_pos hx]
  · rw [if_neg (by omega), if_neg h257, if_pos hlt, hq]
  · rw [if_neg (by omega), if_neg h257, if_neg (by omega), if_pos ⟨heq, hpend⟩]
    rfl

/-- An EOS ends the stream (R212). -/
theorem codeEffect_eos (d : Dec) : codeEffect 256 d = .ok () d.ended := rfl

end

/-- Settles O44: the step is its codeword, which CT.RESOLVE resolves after the bits are taken as before. -/
theorem decStepOutputsTheResolvedPhrase : Obligations.DecStepOutputsTheResolvedPhrase := by
  intro s a d p ht hs hhead ha h9 h16 hready hx hres hcount
  rw [exec_decStep_of_active ht hs, Dec.step_of_head hhead ha h9 h16 hready,
    codeEffect_of_resolved hx (ctResolve_taken hres _) hcount, Run.outcome_ok]

/-- Settles O45: the step is its codeword, which ends the stream; a run makes no other step. -/
theorem decStepAndRunEndAtEos : Obligations.DecStepAndRunEndAtEos := by
  intro s a d ht hs hhead ha h9 h16 hready hx
  have hstep := Dec.step_of_head hhead ha h9 h16 hready
  rw [hx, codeEffect_eos] at hstep
  have hst : (d.taken d.regs.w.toNat).ended.regs.st ≠ .active := by simp [Dec.ended]
  constructor
  · rw [exec_decStep_of_active ht hs, hstep, Run.outcome_ok]
  · rw [exec_decRun_of_active ht hs, Dec.loop, if_pos (show s.dec.answered.regs.st = .active from hs), hstep, Run.bind_ok,
      Dec.loop_of_ne hst, Run.outcome_ok]

end Sys2Proof.Machine
end

section
/-! PROOF. DEC.RUN is repeated DEC.STEP, and the bound of its loop is never met (45_decoder.md R220; 70_reset_and_hazards.md R275). -/

namespace Sys2Proof.Machine

/-! ### A step that completes -/

/-- `y` is a decoder that has taken bits since `d` and has put nothing out, the answer kept. -/
structure Dec.Consumed (d y : Dec) : Prop where
  rem : y.rem.length < d.rem.length
  rsp : y.rsp = d.rsp
  snk : y.snk = d.snk

theorem Dec.Consumed.trans {d y z : Dec} (h : d.Consumed y) (h' : y.Consumed z) : d.Consumed z :=
  ⟨h'.rem.trans h.rem, h'.rsp.trans h.rsp, h'.snk.trans h.snk⟩

section
variable {d t : Dec}

/-- The bits of a symbol taken (R117). -/
theorem Dec.consumed_taken {w : Nat} (h1 : 1 ≤ w) (hl : w ≤ d.rem.length) : d.Consumed (d.taken w) where
  rem := by
    change (d.rem.drop w).length < d.rem.length
    rw [List.length_drop]
    omega
  rsp := rfl
  snk := rfl

/-- The head of DEC.STEP puts nothing out and keeps the answer (R210). -/
theorem decHead_output (d : Dec) : (decHead d).2.snk = d.snk ∧ (decHead d).2.rsp = d.rsp := by
  rcases decHead_cases d with ⟨_, e⟩ | ⟨_, e⟩ <;> rw [e]
  · exact ⟨rfl, rfl⟩
  · exact ⟨rfl, rfl⟩

/-- What has taken bits since the head of DEC.STEP has taken them since the step began (R210). -/
theorem Dec.Consumed.of_head (h : (decHead d).2.Consumed t) : d.Consumed t := by
  obtain ⟨hsnk, hrsp⟩ := decHead_output d
  exact ⟨decHead_rem d ▸ h.rem, h.rsp.trans hrsp, h.snk.trans hsnk⟩

/-- A codeword that completes has taken its bits, and then ended the stream or put out a phrase (R210). -/
theorem Dec.codeword_ok (h : d.codeword = .ok () t) : ∃ y, d.Consumed y ∧ (t = y.ended ∨ ∃ p, t = y.output p) := by
  rcases d.codeword_cases with ⟨_, e⟩ | ⟨_, _, e⟩ | ⟨h9, _, hl, _, e⟩ <;> rw [e] at h
  · cases h
  · cases h
  · refine ⟨d.taken d.regs.w.toNat, Dec.consumed_taken (by omega) hl, ?_⟩
    rcases codeEffect_cases (bitsToNat (d.rem.take d.regs.w.toNat)) (d.taken d.regs.w.toNat) with
      ⟨_, e⟩ | ⟨_, p, _, _, e⟩ | ⟨_, _, e⟩ | ⟨_, _, _, e⟩ <;> rw [e] at h <;> cases h
    · exact .inl rfl
    · exact .inr ⟨p, rfl⟩

/-- A step that completes has taken bits, and then ended the stream or put out a phrase (R210, R217). -/
theorem Dec.step_ok (hs : d.regs.st = .active) (h : d.step = .ok () t) :
    ∃ y, d.Consumed y ∧ (t = y.ended ∨ ∃ p, t = y.output p) := by
  have marker (hl : 16 ≤ d.rem.length) : (decHead d).2.Consumed ((decHead d).2.taken 16) :=
    Dec.consumed_taken (by decide) (decHead_rem d ▸ hl)
  rcases Dec.step_cases hs with ⟨_, e⟩ | ⟨_, _, _, e⟩ | ⟨_, hl, _, ⟨_, e⟩ | ⟨_, e⟩⟩ <;> rw [e] at h
  · obtain ⟨y, hy, ht⟩ := Dec.codeword_ok h
    exact ⟨y, hy.of_head, ht⟩
  · cases h
  · cases h
    exact ⟨_, (marker hl).of_head, .inl rfl⟩
  · obtain ⟨y, hy, ht⟩ := Dec.codeword_ok h
    obtain ⟨hrem, hrsp, hsnk⟩ := marker hl
    have restarted : (decHead d).2.Consumed (decHead d).2.restarted := ⟨hrem, hrsp, hsnk⟩
    exact ⟨y, (restarted.trans hy).of_head, ht⟩

/-- A step that completes leaves fewer bits and keeps the answer (R275). -/
theorem Dec.step_progress (hs : d.regs.st = .active) (h : d.step = .ok () t) : t.rem.length < d.rem.length ∧ t.rsp = d.rsp := by
  obtain ⟨y, hy, rfl | ⟨p, rfl⟩⟩ := Dec.step_ok hs h
  · exact ⟨hy.rem, hy.rsp⟩
  · exact ⟨hy.rem, hy.rsp⟩

/-! ### The bound of the loop -/

/-- A run does not depend on a bound above the bits left (R275, log 19). -/
theorem Dec.loop_eq_of_lt {n m : Nat} (hn : d.rem.length < n) (hm : d.rem.length < m) : Dec.loop n d = Dec.loop m d := by
  induction n generalizing m d with
  | zero => omega
  | succ n ih =>
    obtain ⟨m, rfl⟩ := Nat.exists_eq_succ_of_ne_zero (show m ≠ 0 by omega)
    by_cases hs : d.regs.st = .active
    · rw [Dec.loop, Dec.loop, if_pos hs, if_pos hs]
      cases h : d.step with
      | raised t => rfl
      | stuck f => rfl
      | ok _ t =>
        have := (Dec.step_progress hs h).1
        exact ih (by omega) (by omega)
    · rw [Dec.loop_of_ne hs, Dec.loop_of_ne hs]

/-- A run whose bound is above the bits left leaves the stream (R220, R275). -/
theorem Dec.loop_leaves_active {n : Nat} (hn : d.rem.length < n) : (Dec.loop n d).EndsIn (fun t => t.regs.st ≠ .active) True := by
  induction n generalizing d with
  | zero => omega
  | succ n ih =>
    by_cases hs : d.regs.st = .active
    · rw [Dec.loop, if_pos hs]
      cases h : d.step with
      | raised t =>
        have := Dec.step_raised hs h
        exact fun ht => nomatch this.symm.trans ht
      | stuck f => trivial
      | ok _ t =>
        have := (Dec.step_progress hs h).1
        exact ih (by omega)
    · rw [Dec.loop_of_ne hs]
      exact hs

end

/-- Settles O46: a step that completes leaves fewer bits, so the rest of the run has a bound above the bits left; one that raises or ends
the stream is the run's last. -/
theorem decRunIsRepeatedStep : Obligations.DecRunIsRepeatedStep := by
  intro s ht hs
  have hs' : s.dec.answered.regs.st = .active := hs
  have step := exec_decStep_of_active ht hs
  have run : exec .decRun s = (s.dec.answered.step.bind fun _ t => Dec.loop s.dec.answered.rem.length t).outcome s.withDec := by
    rw [exec_decRun_of_active ht hs, Dec.loop, if_pos hs']
  refine ⟨fun s1 hstep hact => ?_, fun s1 hstep hleft => ?_, fun t hrun => ?_⟩
  · obtain ⟨x, ⟨_, hx⟩ | hx, rfl⟩ := Run.outcome_eq_next.1 (step.symm.trans hstep)
    · obtain ⟨hlen, hrsp⟩ := Dec.step_progress hs' hx
      have hx' : x.answered = x := by cases x; cases hrsp; rfl
      rw [run, hx, Run.bind_ok, exec_decRun_of_active (s := s.withDec x) ht hact, State.withDec_dec, hx',
        Dec.loop_eq_of_lt hlen (Nat.lt_succ_self _)]
      rfl
    · exact nomatch (Dec.step_raised hs' hx).symm.trans hact
  · obtain ⟨x, ⟨_, hx⟩ | hx, rfl⟩ := Run.outcome_eq_next.1 (step.symm.trans hstep)
    · rw [run, hx, Run.bind_ok, Dec.loop_of_ne (d := x) hleft, Run.outcome_ok]
    · rw [run, hx, Run.bind_raised, Run.outcome_raised]
  · rw [exec_decRun_of_active ht hs] at hrun
    obtain ⟨x, hx, rfl⟩ := (Dec.loop_leaves_active (Nat.lt_succ_self _)).of_next hrun
    exact hx

end Sys2Proof.Machine
end

section
/-! PROOF. DEC.START on the three kinds of header (45_decoder.md R206; 60_exceptions.md R234, R235). -/

namespace Sys2Proof.Machine

/-- A start of an idle DEC runs on DEC alone (R206). -/
theorem exec_decStart_of_idle {s : State} (ht : s.target = .dec) (hs : s.dec.regs.st = .idle) :
    exec .decStart s = s.dec.answered.start.outcome s.withDec := by
  rw [exec_of_dec rfl ht, decOp, Dec.require_of_eq (d := s.dec.answered) hs]

section
variable {d : Dec}

/-- On a source with two bits DEC.START takes them and acts on their value (R206). -/
theorem Dec.start_of_le (hl : 2 ≤ (bytesToBits d.src).length) :
    d.start = headerEffect (bitsToNat ((bytesToBits d.src).take 2)) ((decReady d).taken 2) := by
  rw [Dec.start]
  rcases symRead_cases (w := 2) (by decide) (by decide) (decReady d) with ⟨h, _⟩ | ⟨_, h, _⟩ | ⟨_, _, e⟩
  · exact absurd hl (Nat.not_le.2 h)
  · exact absurd h (show ¬2 ^ 64 ≤ 0 + 2 by decide)
  · rw [e]
    rfl

/-- A source that begins with two given bits has them. -/
theorem two_le_length_of_take {bits : List Bool} {a b : Bool} (h : bits.take 2 = [a, b]) : 2 ≤ bits.length := by
  simpa using congrArg List.length h

/-- A legal header starts the stream in its mode (R206). -/
theorem Dec.start_of_header {m : Mode} (h : (bytesToBits d.src).take 2 = natBits 2 m.bits.toNat) :
    d.start = .ok () (((decReady d).taken 2).started m) := by
  rw [Dec.start_of_le (two_le_length_of_take h), h, bitsToNat_natBits_of_lt m.bits.isLt, headerEffect, BitVec.ofNat_toNat,
    BitVec.setWidth_eq, Mode.ofBits_bits]

end

/-- Settles O35: the header's bits are its mode's, and the stream starts in that mode. -/
theorem decStartReadsTheHeader : Obligations.DecStartReadsTheHeader := by
  intro m s ht hs hheader
  rw [exec_decStart_of_idle ht hs, Dec.start_of_header (d := s.dec.answered) hheader]
  rfl

/-- Settles O36: the empty source has too few bits for a header; the value 3 is no mode. -/
theorem decStartFaultsOnABadHeader : Obligations.DecStartFaultsOnABadHeader := by
  intro s ht hs ready
  have hready : decReady s.dec.answered = ready := rfl
  have hne : ready.regs.st ≠ .fault := by simp [ready, Regs.clearCounts, hs]
  rw [exec_decStart_of_idle ht hs]
  refine ⟨fun hsrc => ?_, fun hheader => ?_⟩
  · have hl : ready.rem.length < 2 := by simp [ready, hsrc]
    rw [Dec.start, hready]
    rcases symRead_cases (w := 2) (by decide) (by decide) ready with ⟨_, e⟩ | ⟨h, _⟩ | ⟨h, _⟩
    · rw [e, Run.bind_raised, Run.outcome_raised, Dec.raise_of_ne_fault hne]
    · exact absurd h (Nat.not_le.2 hl)
    · exact absurd h (Nat.not_le.2 hl)
  · have hstart := Dec.start_of_le (d := s.dec.answered) (two_le_length_of_take hheader)
    rw [hstart, hready, show (bytesToBits s.dec.answered.src).take 2 = [true, true] from hheader]
    change (Run.raised ((ready.taken 2).raise .invalidMode) : Run Dec Unit).outcome _ = _
    rw [Run.outcome_raised, Dec.raise_of_ne_fault (d := ready.taken 2) hne]

end Sys2Proof.Machine
end

section
/-! PROOF. The round trip: DEC puts out, step by step, the input that ENC has taken, and ends where ENC ended (45_decoder.md R221). -/

namespace Sys2Proof.Machine

/-! ### EOS -/

/-- A marker slot that holds 256 ends the stream (R174, R217). -/
theorem Dec.marker_of_eos {d : Dec} (hl : 16 ≤ d.rem.length) (hc : d.regs.c.toNat + 16 < 2 ^ 64)
    (hv : bitsToNat (d.rem.take 16) = 256) : d.marker = .ok () (d.taken 16).ended := by
  rw [Dec.marker]
  rcases symRead_cases (w := 16) (by decide) (by decide) d with ⟨h, _⟩ | ⟨_, h, _⟩ | ⟨_, _, e⟩
  · omega
  · omega
  · rw [e, Run.bind_ok, hv]
    rfl

/-- EOS at the width after the head ends the stream, whether the step meets it as its codeword or, on the answer DoReset, in the marker
slot (R210, R212, R217). -/
theorem Dec.step_of_eos {d : Dec} (h9 : 9 ≤ d.regs.w.toNat) (h16 : d.regs.w.toNat ≤ 16)
    (hready : (decHead d).2.Ready (decHead d).2.regs.w.toNat)
    (hv : bitsToNat ((decHead d).2.rem.take (decHead d).2.regs.w.toNat) = 256) :
    d.step = .ok () ((decHead d).2.taken (decHead d).2.regs.w.toNat).ended := by
  obtain ⟨h9', h16', hreset⟩ := decHead_width_bounds h9 h16
  by_cases ha : (decHead d).1 = .doReset
  · rw [hreset ha] at hready hv ⊢
    obtain ⟨-, hl, hc⟩ := hready
    have hmarker := Dec.marker_of_eos hl hc hv
    rw [Dec.step, show decHead d = (.doReset, (decHead d).2) from Prod.ext ha rfl]
    simp only [hmarker, Run.bind_ok]
    exact if_neg (by simp [Dec.ended])
  · rw [Dec.step_of_head Prod.mk.eta.symm ha h9' h16' hready, hv, codeEffect_eos]

/-- Where ENC.FINISH completes, C had room for EOS (R172, R195). -/
theorem Enc.Running.room_of_eos {e t : Enc} (h : e.Running) (hsrc : e.src = []) (ht : encStep e = .ok () t) :
    (encEosWidth e).regs.c.toNat + (encEosWidth e).regs.w.toNat < 2 ^ 64 := by
  by_contra hc
  rw [encStep, Enc.require_of_eq h.st, if_pos hsrc, encFinish_overflow h.fits_eos (Nat.le_of_not_lt hc)] at ht
  cases ht

/-! ### The output so far -/

/-- ENC `e` and DEC `d` at a symbol boundary on the stream `B` of mode `m`: DEC has put out what ENC has taken of `input`, and where ENC
has no input left DEC has read all that ENC has written. -/
structure Decoding (input : List Byte) (m : Mode) (B : List Bool) (e : Enc) (d : Dec) : Prop extends AtBoundary B e d where
  out : d.snk ++ e.src = input
  mode : d.regs.mode = m
  bits : e.src = [] → B = written e ++ d.rem

/-- A step that stays in the stream puts out the bytes of the phrase that it leaves in PREV (R210). -/
theorem Dec.step_snk {d t : Dec} (hs : d.regs.st = .active) (h : d.step = .ok () t) (ht : t.regs.st = .active) :
    t.snk = d.snk ++ t.prev.toList := by
  obtain ⟨y, hy, rfl | ⟨p, rfl⟩⟩ := Dec.step_ok hs h
  · cases ht
  · exact congrArg (· ++ p.toList) hy.snk

/-- DEC's PREV after a codeword is the match that ENC wrote (R134, R210). -/
theorem AfterCodeword.prev_toList {B : List Bool} {b : Byte} {bs : List Byte} {e : Enc} {d : Dec} (he : e.Running)
    (hsrc : e.src = b :: bs) :
    let m := lpmWalk e.trie (seedCode b) 1 bs
    AfterCodeword B m.1 (e.emitted m.1 m.2) d → d.prev.toList = e.src.take m.2 := by
  intro m h
  obtain ⟨-, hl1, -, hcode, -⟩ := he.lpm hsrc
  have hprev := h.prev
  rw [Enc.emitted_trie] at hprev
  obtain ⟨k, hk⟩ := Nat.exists_eq_add_of_le' hl1
  rw [he.trie.dictCode_inj hprev hcode, hsrc, hk]
  rfl

/-- A step of ENC with input left takes its match off the source; after the last one it has written the codeword and no more (R190). -/
theorem Enc.Running.step_src {e t : Enc} (h : e.Running) {b : Byte} {bs : List Byte} (hsrc : e.src = b :: bs)
    (ht : encStep e = .ok () t) :
    let m := lpmWalk e.trie (seedCode b) 1 bs
    t.src = e.src.drop m.2 ∧ (t.src = [] → written t = written (e.emitted m.1 m.2)) := by
  intro m
  obtain ⟨-, -, -, -, -, -, t', rfl, ⟨-, rfl⟩ | ⟨x, hx, hadv⟩⟩ := h.step hsrc ht
  · exact ⟨congrArg (List.drop m.2) (Enc.emitted_src _ _ _), fun _ => rfl⟩
  · have hdrop : (srcTake m.2 t').src = e.src.drop m.2 :=
      congrArg (List.drop m.2) ((encAdvance_src hadv).trans (Enc.emitted_src _ _ _))
    refine ⟨hdrop, fun hnil => ?_⟩
    rw [hdrop, List.drop_eq_nil_iff] at hnil
    rw [List.getElem?_eq_none hnil] at hx
    cases hx

/-- A step of ENC with input left and one of DEC: DEC puts out the match that ENC takes (R190, R210). -/
theorem Decoding.step {input : List Byte} {m : Mode} {B : List Bool} {b : Byte} {bs : List Byte} {e t : Enc} {d : Dec}
    (h : Decoding input m B e d) (hsrc : e.src = b :: bs) (ht : encStep e = .ok () t) (hpre : written t <+: B) :
    ∃ d', d.step = .ok () d' ∧ Decoding input m B t d' := by
  obtain ⟨d', hd', hafter⟩ := h.codeword hsrc ht hpre
  obtain ⟨y, hy, hbound⟩ := h.toAtBoundary.step hsrc ht hpre
  obtain rfl : d' = y := by rw [hd'] at hy; cases hy; rfl
  obtain ⟨htsrc, hwritten⟩ := h.enc.step_src hsrc ht
  have hfollows := Dec.step_follows h.dec.st
  rw [hd'] at hfollows
  refine ⟨d', hd', hbound, ?_, hfollows.1.trans h.mode, fun hnil => hwritten hnil ▸ hafter.bits⟩
  rw [Dec.step_snk h.dec.st hd' hafter.dec.st, hafter.prev_toList h.enc hsrc, htsrc, List.append_assoc, List.take_append_drop, h.out]

/-- The step of ENC with no input left, and DEC's: EOS is read, and all of the input is out (R195, R212). -/
theorem Decoding.step_eos {input : List Byte} {m : Mode} {e t : Enc} {d : Dec} (h : Decoding input m (bytesToBits t.snk) e d)
    (hsrc : e.src = []) (ht : encStep e = .ok () t) :
    ∃ d', d.step = .ok () d' ∧ d'.regs.st = .done ∧ d'.snk = input ∧ d'.regs.mode = m := by
  obtain ⟨⟨hw, -, -, hc⟩, -⟩ := h.eos hsrc
  have hroom := h.enc.room_of_eos hsrc ht
  have hbits := h.bits hsrc
  obtain rfl := encStep_of_nil h.enc.st hsrc ht
  have hacc : (encEosWidth e).acc.length < 8 := by rw [(encEosWidth_eq e rfl).2]; exact h.enc.acc
  have hwritten : written (encEosWidth e) = written e := by rw [(encEosWidth_eq e rfl).2]; rfl
  obtain ⟨pad, -, hsnk⟩ := Enc.closed_snk hacc
  rw [hsnk, hwritten, List.append_assoc, List.append_cancel_left_eq] at hbits
  obtain ⟨hval, -, hlen⟩ := bitsToNat_take_natBits h.enc.fits_eos.lt (List.replicate pad false)
  have hrem := (decHead_rem d).trans hbits.symm
  rw [hw] at hrem hval hlen hroom
  rw [hc] at hroom
  rw [← hrem] at hval hlen
  obtain ⟨h9, h16, -⟩ := h.dec.regs
  have hsame := decHead_sameStatus d
  refine ⟨_, Dec.step_of_eos h9 h16 ⟨hsame.2.1.trans h.dec.st, hlen, hroom⟩ hval, rfl, ?_, hsame.1.trans h.mode⟩
  rw [← h.out, hsrc, List.append_nil]
  exact (decHead_output d).1

/-! ### The run -/

/-- In a run of ENC that completes, DEC's run from the same symbol boundary ends in DONE with all of the input put out (R197, R220). -/
theorem Decoding.loop {input : List Byte} {m : Mode} {e e2 : Enc} {d : Dec} (h : Decoding input m (bytesToBits e2.snk) e d)
    (hcomp : e.Completes e2) {n : Nat} (hn : d.rem.length < n) :
    ∃ d', Dec.loop n d = .ok () d' ∧ d'.regs.st = .done ∧ d'.snk = input ∧ d'.regs.mode = m := by
  induction n generalizing e d with
  | zero => omega
  | succ n ih =>
    obtain ⟨t, ht, htcomp⟩ := hcomp.step h.enc.st
    rw [Dec.loop, if_pos h.dec.st]
    cases hsrc : e.src with
    | nil =>
      have htst : t.regs.st ≠ .active := by rw [encStep_of_nil h.enc.st hsrc ht]; simp [Enc.closed]
      obtain ⟨k, hk, -⟩ := htcomp
      rw [encLoop_of_ne htst] at hk
      cases hk
      obtain ⟨d', hd', hdone, hend⟩ := h.step_eos hsrc ht
      rw [hd', Run.bind_ok, Dec.loop_of_ne (by simp [hdone])]
      exact ⟨d', rfl, hdone, hend⟩
    | cons b bs =>
      obtain ⟨d', hd', hnext⟩ := h.step hsrc ht ((h.enc.step hsrc ht).1.written_prefix htcomp)
      have := (Dec.step_progress h.dec.st hd').1
      rw [hd', Run.bind_ok]
      exact ih hnext htcomp (by omega)

/-- Right after ENC.START and DEC.START all of the input is still ENC's to take (R186, R206). -/
theorem decoding_start (m : Mode) (e0 : Enc) {B : List Bool} {d : Dec} (hpre : written (e0.started m) <+: B)
    (hd : bytesToBits d.src = B) :
    d.start = .ok () (((decReady d).taken 2).started m) ∧
      Decoding e0.src m B (e0.started m) (((decReady d).taken 2).started m) := by
  obtain ⟨z, hz⟩ : natBits 2 m.bits.toNat <+: bytesToBits d.src := hd ▸ hpre
  have hstart : d.start = .ok () (((decReady d).taken 2).started m) :=
    Dec.start_of_header (by rw [← hz, List.take_left' (natBits_length _ _)])
  obtain ⟨d', hd', hbound⟩ := atBoundary_start m e0 hpre hd
  rw [hstart] at hd'
  cases hd'
  refine ⟨hstart, hbound, rfl, rfl, fun _ => ?_⟩
  rw [← hd]
  change bytesToBits d.src = natBits 2 m.bits.toNat ++ (bytesToBits d.src).drop 2
  rw [← hz, List.drop_left' (natBits_length _ _)]

/-- Where ENC.RUN raises, the unit is in FAULT. -/
theorem encLoop_raised {n : Nat} {e t : Enc} (h : encLoop n e = .raised t) : t.regs.st = .fault := by
  induction n generalizing e with
  | zero => cases h
  | succ n ih =>
    by_cases hs : e.regs.st = .active
    · rw [encLoop, if_pos hs] at h
      rcases Run.bind_eq_raised.1 h with h | ⟨_, _, _, h⟩
      · exact encStep_raised hs h
      · exact ih h
    · rw [encLoop_of_ne hs] at h
      cases h

/-- ENC.START with the bits of a mode begins the stream of an idle ENC (R186). -/
theorem exec_encStart_of_idle {s : State} (ht : s.target = .enc) (hs : s.enc.regs.st = .idle) (m : Mode) :
    exec (.encStart m.bits) s = .next (s.withEnc (s.enc.answered.started m)) := by
  refine (encCommand_of_idle ht hs _).trans ?_
  rw [encStart_bits, Run.outcome_ok]

/-- Settles O60: both units start at a symbol boundary with nothing of the input taken, and DEC's run follows ENC's to its end. -/
theorem roundTrip : Obligations.RoundTrip := by
  intro m s s1 s2 ht hs hstart hrun hdone r htr hsr hsrc
  rw [exec_encStart_of_idle ht hs] at hstart
  cases hstart
  rw [exec_encRun_of_active (s := s.withEnc (s.enc.answered.started m)) ht rfl] at hrun
  obtain ⟨e2, ⟨_, hloop⟩ | hraised, rfl⟩ := Run.outcome_eq_next.1 hrun
  · have hcomp : (s.enc.answered.started m).Completes e2 := ⟨_, hloop, hdone⟩
    have hpre := (Enc.started_running m s.enc.answered).written_prefix hcomp
    obtain ⟨hdstart, hdec⟩ := decoding_start m s.enc.answered (d := r.dec.answered) hpre (congrArg bytesToBits hsrc)
    obtain ⟨d', hd', hend⟩ := hdec.loop hcomp (Nat.lt_succ_self _)
    have hstart := exec_decStart_of_idle htr hsr
    rw [hdstart, Run.outcome_ok] at hstart
    refine ⟨_, r.withDec d', hstart, ?_, hend⟩
    rw [exec_decRun_of_active (s := r.withDec (((decReady r.dec.answered).taken 2).started m)) htr rfl]
    exact congrArg (Run.outcome · r.withDec) hd'
  · exact nomatch (encLoop_raised hraised).symm.trans hdone

end Sys2Proof.Machine
end

section
/-! PROOF. Faults at the command port: which commands a unit refuses, that a stopped unit refuses all, and what a step can do to a unit
(60_exceptions.md R230, R238, R240, R241, R249). -/

namespace Sys2Proof.Machine

/-- Settles O8: fault entry outside FAULT and in it, and the table of codes. -/
theorem faultEntryKeepsTheFirstFault : Obligations.FaultEntryKeepsTheFirstFault :=
  ⟨fun f _ h => Regs.raise_of_ne_fault h f, fun f _ h => Regs.raise_of_fault h f, rfl, rfl, rfl, rfl, rfl, rfl, rfl, rfl⟩

/-! ### Commands a unit refuses -/

/-- A command is legal in IDLE or in ACTIVE, never in DONE or FAULT (R238). -/
theorem legalIn_cases (i : Instr) : i.legalIn = .idle ∨ i.legalIn = .active := by
  unfold Instr.legalIn
  split
  · exact .inr rfl
  · exact .inr rfl
  · exact .inr rfl
  · exact .inr rfl
  · exact .inl rfl

/-- A unit that is in neither IDLE nor ACTIVE is not where a command is legal (R238). -/
theorem ne_legalIn {st : UnitState} (hidle : st ≠ .idle) (hactive : st ≠ .active) (i : Instr) : st ≠ i.legalIn := by
  rcases legalIn_cases i with h | h <;> rw [h]
  · exact hidle
  · exact hactive

/-- ENC's own commands outside their state, and everything that is not ENC's, are a ProtocolError (R238). -/
theorem encOp_of_not_legal {i : Instr} {e : Enc} (h : i.isEncCommand = true → e.regs.st ≠ i.legalIn) :
    encOp i e = .raised (e.raise .protocolError) := by
  cases i
  case encStart | encRun | bcWrite => exact Enc.require_of_ne (h rfl) _
  case encStep => exact Enc.require_of_ne (h rfl) fun e => if e.src = [] then encFinish e else encSymbol e
  case bcWinit => exact Enc.require_of_ne (h rfl) fun e => .ok () (bcWinit e)
  case bcFlush => exact Enc.require_of_ne (h rfl) fun e => .ok () (bcFlush e)
  all_goals rfl

/-- DEC's own commands outside their state, and everything that is not DEC's, are a ProtocolError (R238). -/
theorem decOp_of_not_legal {i : Instr} {d : Dec} (h : i.isDecCommand = true → d.regs.st ≠ i.legalIn) :
    decOp i d = .raised (d.raise .protocolError) := by
  cases i
  case decStart | decStep | decRun => exact Dec.require_of_ne (h rfl) _
  case bcRinit => exact Dec.require_of_ne (h rfl) fun d => .ok () (bcRinit d)
  case bcRead w =>
    exact Dec.require_of_ne (h rfl) fun d =>
      (bcRead w.toNat d).bind fun v d => .ok () { d with rsp := some (BitVec.ofNat 32 v) }
  case bcIsempty => exact Dec.require_of_ne (h rfl) fun d => .ok () { d with rsp := some (if bcIsempty d then 1 else 0) }
  all_goals rfl

/-- A command that ENC refuses clears the answer and raises (R100, R238). -/
theorem exec_enc_of_not_legal {i : Instr} {s : State} (hi : i.slot 0 = .command) (ht : s.target = .enc)
    (h : i.isEncCommand = true → s.enc.regs.st ≠ i.legalIn) :
    exec i s = .next (s.withEnc (s.enc.answered.raise .protocolError)) := by
  rw [exec_of_enc hi ht, encOp_of_not_legal (e := s.enc.answered) h, Run.outcome_raised]

/-- A command that DEC refuses clears the answer and raises (R100, R238). -/
theorem exec_dec_of_not_legal {i : Instr} {s : State} (hi : i.slot 0 = .command) (ht : s.target = .dec)
    (h : i.isDecCommand = true → s.dec.regs.st ≠ i.legalIn) :
    exec i s = .next (s.withDec (s.dec.answered.raise .protocolError)) := by
  rw [exec_of_dec hi ht, decOp_of_not_legal (d := s.dec.answered) h, Run.outcome_raised]

/-- Outside FAULT a command that ENC refuses writes ST and FAULT_CODE (R238, R240). -/
theorem exec_enc_faulted_of_not_legal {i : Instr} {s : State} (hi : i.slot 0 = .command) (ht : s.target = .enc)
    (hs : s.enc.regs.st ≠ .fault) (h : i.isEncCommand = true → s.enc.regs.st ≠ i.legalIn) :
    exec i s = .next (s.withEnc (s.enc.answered.faulted .protocolError)) := by
  rw [exec_enc_of_not_legal hi ht h, Enc.raise_of_ne_fault (e := s.enc.answered) hs]

/-- Outside FAULT a command that DEC refuses writes ST and FAULT_CODE (R238, R240). -/
theorem exec_dec_faulted_of_not_legal {i : Instr} {s : State} (hi : i.slot 0 = .command) (ht : s.target = .dec)
    (hs : s.dec.regs.st ≠ .fault) (h : i.isDecCommand = true → s.dec.regs.st ≠ i.legalIn) :
    exec i s = .next (s.withDec (s.dec.answered.faulted .protocolError)) := by
  rw [exec_dec_of_not_legal hi ht h, Dec.raise_of_ne_fault (d := s.dec.answered) hs]

/-- ENC's commands are command words, and none of DEC's (R100). -/
theorem command_of_isEncCommand {i : Instr} (h : i.isEncCommand = true) : i.slot 0 = .command ∧ i.isDecCommand ≠ true := by
  cases i
  case encStart | encStep | encRun | bcWinit | bcWrite | bcFlush => exact ⟨rfl, Bool.false_ne_true⟩
  all_goals cases h

/-- DEC's commands are command words, and none of ENC's (R100). -/
theorem command_of_isDecCommand {i : Instr} (h : i.isDecCommand = true) : i.slot 0 = .command ∧ i.isEncCommand ≠ true := by
  cases i
  case decStart | decStep | decRun | bcRinit | bcRead | bcIsempty => exact ⟨rfl, Bool.false_ne_true⟩
  all_goals cases h

/-- Settles O48: an unassigned OPSEL is a command word, and neither unit's command. -/
theorem unassignedOpselIsAProtocolError : Obligations.UnassignedOpselIsAProtocolError := by
  intro i s hi
  have hunassigned : i.slot 0 = .command ∧ i.isEncCommand = false ∧ i.isDecCommand = false := by
    rcases hi with rfl | rfl | rfl | rfl <;> exact ⟨rfl, rfl, rfl⟩
  obtain ⟨hslot, henc, hdec⟩ := hunassigned
  exact ⟨fun ht hs => exec_enc_faulted_of_not_legal hslot ht hs (by simp [henc]),
    fun ht hs => exec_dec_faulted_of_not_legal hslot ht hs (by simp [hdec])⟩

/-- Settles O49: each unit refuses its own commands outside their state, and those of the other unit. -/
theorem illegalCommandIsAProtocolError : Obligations.IllegalCommandIsAProtocolError := by
  intro i s
  refine ⟨fun ht hs h => ?_, fun ht hs h => ?_⟩
  · rcases h with ⟨hown, hillegal⟩ | hother
    · exact exec_enc_faulted_of_not_legal (command_of_isEncCommand hown).1 ht hs fun _ => hillegal
    · obtain ⟨hslot, hnot⟩ := command_of_isDecCommand hother
      exact exec_enc_faulted_of_not_legal hslot ht hs fun h => absurd h hnot
  · rcases h with ⟨hown, hillegal⟩ | hother
    · exact exec_dec_faulted_of_not_legal (command_of_isDecCommand hown).1 ht hs fun _ => hillegal
    · obtain ⟨hslot, hnot⟩ := command_of_isEncCommand hother
      exact exec_dec_faulted_of_not_legal hslot ht hs fun h => absurd h hnot

/-- Every stream symbol tests ST first: a header for IDLE, a codeword or a marker slot for ACTIVE (R206, R210; log 2). -/
theorem exec_symbol_requires {i : Instr} (hi : i.slot 0 ≠ .command) :
    ∃ want op, want ≠ .fault ∧ ∀ s, exec i s = decSymbol (Dec.require want op) s := by
  have data (w : Nat) (op : Dec → Run Dec Unit) (h : ∀ s, exec i s = decSymbol (symData w op) s) :
      ∃ want op, want ≠ .fault ∧ ∀ s, exec i s = decSymbol (Dec.require want op) s :=
    ⟨.active, fun d => (symTake w d).bind fun _ d => op d, by decide, h⟩
  cases i
  case hdrNone | hdrReset | hdrMonitor | hdrIllegal => exact ⟨.idle, _, by decide, fun _ => rfl⟩
  case encStart | encStep | encRun | decStart | decStep | decRun | bcWinit | bcWrite | bcFlush | bcRinit | bcRead | bcIsempty |
      opsel3Unassigned | opsel7Unassigned | opselEUnassigned | opselFUnassigned => exact absurd rfl hi
  all_goals exact data _ _ fun _ => rfl

/-- Settles O50: FAULT is where no command is legal and no symbol is met, and there a `raise` does nothing. -/
theorem faultedUnitIgnoresCommands : Obligations.FaultedUnitIgnoresCommands := by
  intro i s
  have hnever : UnitState.fault ≠ i.legalIn := ne_legalIn (by decide) (by decide) i
  refine ⟨fun hi ht hs => ?_, fun hi ht hs => ?_, fun hi hs => ?_⟩
  · rw [exec_enc_of_not_legal hi ht fun _ => hs ▸ hnever, Enc.raise_of_fault (e := s.enc.answered) hs]
  · rw [exec_dec_of_not_legal hi ht fun _ => hs ▸ hnever, Dec.raise_of_fault (d := s.dec.answered) hs]
  · obtain ⟨want, op, hwant, hexec⟩ := exec_symbol_requires hi
    rw [hexec, decSymbol, Dec.require_of_ne (hs ▸ hwant.symm), Run.outcome_raised, Dec.raise_of_fault hs, State.withDec_self]

/-! ### What a step can do to one unit -/

/-- Everything a step can do to ENC: nothing, a command, a hardware reset, a new source (R100, R249, R255, R257). -/
theorem step_enc_cases {s t : State} (h : step s = .next t) :
    t.enc = s.enc ∨
      (∃ cmd rest, s.port = .command .enc cmd :: rest ∧
        (encOp (decodeCommand cmd) s.enc.answered).outcome (s.accept .enc rest).withEnc = .next t) ∨
      (∃ rest, s.port = .hwReset .enc :: rest) ∨
      (∃ bytes rest, s.port = .setSource .enc bytes :: rest ∧ t.enc = { s.enc with src := bytes }) := by
  rcases step_unit_cases s with
    ⟨_, h'⟩ | ⟨cmd, rest, hp, h'⟩ | ⟨cmd, rest, hp, h'⟩ | ⟨u, rest, hp, h'⟩ | ⟨u, bytes, rest, hp, h'⟩ <;> rw [h'] at h
  · cases h
    exact .inl rfl
  · exact .inr (.inl ⟨cmd, rest, hp, h⟩)
  · obtain ⟨d, -, rfl⟩ := Run.outcome_eq_next.1 h
    exact .inl rfl
  · cases u
    · exact .inr (.inr (.inl ⟨rest, hp⟩))
    · cases h
      exact .inl rfl
  · cases u <;> simp only [hostSetSource] at h <;> split at h <;> cases h
    · exact .inr (.inr (.inr ⟨bytes, rest, hp, rfl⟩))
    · exact .inl rfl

/-- Everything a step can do to DEC: nothing, a command, a hardware reset, a new source (R100, R249, R255, R258). -/
theorem step_dec_cases {s t : State} (h : step s = .next t) :
    t.dec = s.dec ∨
      (∃ cmd rest, s.port = .command .dec cmd :: rest ∧
        (decOp (decodeCommand cmd) s.dec.answered).outcome (s.accept .dec rest).withDec = .next t) ∨
      (∃ rest, s.port = .hwReset .dec :: rest) ∨
      (∃ bytes rest, s.port = .setSource .dec bytes :: rest ∧ t.dec = { s.dec with src := bytes }) := by
  rcases step_unit_cases s with
    ⟨_, h'⟩ | ⟨cmd, rest, hp, h'⟩ | ⟨cmd, rest, hp, h'⟩ | ⟨u, rest, hp, h'⟩ | ⟨u, bytes, rest, hp, h'⟩ <;> rw [h'] at h
  · cases h
    exact .inl rfl
  · obtain ⟨e, -, rfl⟩ := Run.outcome_eq_next.1 h
    exact .inl rfl
  · exact .inr (.inl ⟨cmd, rest, hp, h⟩)
  · cases u
    · cases h
      exact .inl rfl
    · exact .inr (.inr (.inl ⟨rest, hp⟩))
  · cases u <;> simp only [hostSetSource] at h <;> split at h <;> cases h
    · exact .inl rfl
    · exact .inr (.inr (.inr ⟨bytes, rest, hp, rfl⟩))

/-- Settles O5: what a step does to a unit it does by an action addressed to that unit, and a new source is taken outside ACTIVE. -/
theorem idlePortKeepsTheState : Obligations.IdlePortKeepsTheState := by
  intro s
  refine ⟨fun hp => by rw [step, hp], fun t h hother => ?_, fun t h hother => ?_, fun bytes rest hp => ?_, fun bytes rest hp => ?_⟩
  · rcases step_enc_cases h with h | ⟨_, _, hp, _⟩ | ⟨_, hp⟩ | ⟨_, _, hp, _⟩
    · exact h
    · exact absurd rfl (hother _ _ hp)
    · exact absurd rfl (hother _ _ hp)
    · exact absurd rfl (hother _ _ hp)
  · rcases step_dec_cases h with h | ⟨_, _, hp, _⟩ | ⟨_, hp⟩ | ⟨_, _, hp, _⟩
    · exact h
    · exact absurd rfl (hother _ _ hp)
    · exact absurd rfl (hother _ _ hp)
    · exact absurd rfl (hother _ _ hp)
  · rw [step, hp]
    exact ⟨fun h => if_neg h, fun h => if_pos h⟩
  · rw [step, hp]
    exact ⟨fun h => if_neg h, fun h => if_pos h⟩

/-! ### A stopped unit -/

/-- Without its hardware reset a step leaves the registers of an ENC in DONE or FAULT, or raises ProtocolError in it (R238, R241). -/
theorem step_enc_regs_of_stopped {s t : State} (h : step s = .next t) (hreset : ∀ rest, s.port ≠ .hwReset .enc :: rest)
    (hidle : s.enc.regs.st ≠ .idle) (hactive : s.enc.regs.st ≠ .active) :
    t.enc.regs = s.enc.regs ∨ t.enc.regs = s.enc.regs.raise .protocolError := by
  rcases step_enc_cases h with h | ⟨cmd, rest, _, h⟩ | ⟨rest, hp⟩ | ⟨bytes, rest, _, h⟩
  · exact .inl (congrArg Enc.regs h)
  · rw [encOp_of_not_legal (e := s.enc.answered) fun _ => ne_legalIn hidle hactive _] at h
    cases h
    exact .inr rfl
  · exact absurd hp (hreset rest)
  · exact .inl (by rw [h])

/-- Without its hardware reset a step leaves the registers of a DEC in DONE or FAULT, or raises ProtocolError in it (R238, R241). -/
theorem step_dec_regs_of_stopped {s t : State} (h : step s = .next t) (hreset : ∀ rest, s.port ≠ .hwReset .dec :: rest)
    (hidle : s.dec.regs.st ≠ .idle) (hactive : s.dec.regs.st ≠ .active) :
    t.dec.regs = s.dec.regs ∨ t.dec.regs = s.dec.regs.raise .protocolError := by
  rcases step_dec_cases h with h | ⟨cmd, rest, _, h⟩ | ⟨rest, hp⟩ | ⟨bytes, rest, _, h⟩
  · exact .inl (congrArg Dec.regs h)
  · rw [decOp_of_not_legal (d := s.dec.answered) fun _ => ne_legalIn hidle hactive _] at h
    cases h
    exact .inr rfl
  · exact absurd hp (hreset rest)
  · exact .inl (by rw [h])

/-- Settles O3: a stopped unit's registers stay or it raises, and in FAULT a `raise` changes nothing. -/
theorem onlyHardwareResetLeavesFault : Obligations.OnlyHardwareResetLeavesFault := by
  intro s t h
  refine ⟨fun hreset hs => ?_, fun hreset hs => ?_⟩
  · have hregs := step_enc_regs_of_stopped h hreset (by simp [hs]) (by simp [hs])
    rwa [Regs.raise_of_fault hs, or_self] at hregs
  · have hregs := step_dec_regs_of_stopped h hreset (by simp [hs]) (by simp [hs])
    rwa [Regs.raise_of_fault hs, or_self] at hregs

/-- Settles O4: a stopped unit's registers stay or it raises, and in DONE a `raise` is the entry into FAULT. -/
theorem doneIsLeftOnlyByResetOrFault : Obligations.DoneIsLeftOnlyByResetOrFault := by
  intro s t h
  refine ⟨fun hreset hs => ?_, fun hreset hs => ?_⟩
  · have hregs := step_enc_regs_of_stopped h hreset (by simp [hs]) (by simp [hs])
    rwa [Regs.raise_of_ne_fault (by simp [hs])] at hregs
  · have hregs := step_dec_regs_of_stopped h hreset (by simp [hs]) (by simp [hs])
    rwa [Regs.raise_of_ne_fault (by simp [hs])] at hregs

end Sys2Proof.Machine
end

section
/-! PROOF. A hardware reset of a unit: its next state, and with it what is restored and what stays (70_reset_and_hazards.md R255;
10_state.md R20, R42). -/

namespace Sys2Proof.Machine

/-- A hardware reset of ENC leaves the list and replaces the encoder alone (R255; log 8). -/
theorem step_of_hwReset_enc {s : State} {rest : List HostAct} (hp : s.port = .hwReset .enc :: rest) :
    step s = .next (State.withEnc { s with port := rest } s.enc.hwReset) := by
  rw [step, hp]
  rfl

/-- A hardware reset of DEC leaves the list and replaces the decoder alone (R255; log 8). -/
theorem step_of_hwReset_dec {s : State} {rest : List HostAct} (hp : s.port = .hwReset .dec :: rest) :
    step s = .next (State.withDec { s with port := rest } s.dec.hwReset) := by
  rw [step, hp]
  rfl

/-- Settles O2: the step replaces the unit by its `hwReset`, which is the unit after reset but for the source. -/
theorem hardwareResetRestoresTheUnit : Obligations.HardwareResetRestoresTheUnit := by
  intro s rest
  refine ⟨fun hp => ⟨_, step_of_hwReset_enc hp, ?_⟩, fun hp => ⟨_, step_of_hwReset_dec hp, ?_⟩⟩
  · exact ⟨Enc.hwReset_regs _, Enc.hwReset_acc _, Enc.hwReset_snk _, Enc.hwReset_src _, rfl, rfl⟩
  · exact ⟨Dec.hwReset_regs _, Dec.hwReset_prevValid _, Dec.hwReset_rem _, Dec.hwReset_snk _, Dec.hwReset_src _, rfl, rfl⟩

end Sys2Proof.Machine
end
